-- ==== Sys2Proof/Word.lean ====
section
/-! DEFINITION. The words OSC-CORE's ports and registers carry, the finite index sets of the spec (channels, mailbox
slots, trigger edges, acquisition modes), and a value held once per channel or once per slot. -/

namespace Sys2Proof

/-- A code: an offset-binary sample in [0, 4095] (R16, R8 `CODE_BITS`). -/
abbrev Code := BitVec 12

/-- A raw interleaved two-channel sample word of the sample port (R80, R82). -/
abbrev RawWord := BitVec 32

/-- A command word of the host command port (R83). -/
abbrev CmdWord := BitVec 32

/-- The two channels: `ch1` is index 0, raw channel A; `ch2` is index 1, raw channel B (R15). -/
inductive Channel where
  | ch1
  | ch2
  deriving DecidableEq, Repr

/-- The two mailbox slots: `ping` is slot 0, `pong` is slot 1 (R15). -/
inductive Slot where
  | ping
  | pong
  deriving DecidableEq, Repr

/-- The trigger edge: 0 Rising, 1 Falling (R25). -/
inductive Edge where
  | rising
  | falling
  deriving DecidableEq, Repr

/-- The acquisition mode: 0 Normal, 1 Average (R25). -/
inductive Mode where
  | normal
  | average
  deriving DecidableEq, Repr

/-- One value for each channel. -/
structure PerChannel (α : Type) where
  ch1 : α
  ch2 : α
  deriving DecidableEq, Repr

/-- The value of channel `ch`. -/
def PerChannel.get {α : Type} (p : PerChannel α) : Channel → α
  | .ch1 => p.ch1
  | .ch2 => p.ch2

/-- `p` with the value of channel `ch` replaced. -/
def PerChannel.set {α : Type} (p : PerChannel α) (ch : Channel) (v : α) : PerChannel α :=
  match ch with
  | .ch1 => { p with ch1 := v }
  | .ch2 => { p with ch2 := v }

/-- The pair of values a function of the channel gives: the spec's `for ch in [0, 2)`. -/
def PerChannel.tabulate {α : Type} (f : Channel → α) : PerChannel α := ⟨f .ch1, f .ch2⟩

/-- One value for each mailbox slot. -/
structure PerSlot (α : Type) where
  ping : α
  pong : α
  deriving DecidableEq, Repr

/-- The value of slot `k`. -/
def PerSlot.get {α : Type} (p : PerSlot α) : Slot → α
  | .ping => p.ping
  | .pong => p.pong

/-- `p` with the value of slot `k` replaced. -/
def PerSlot.set {α : Type} (p : PerSlot α) (k : Slot) (v : α) : PerSlot α :=
  match k with
  | .ping => { p with ping := v }
  | .pong => { p with pong := v }

end Sys2Proof
end

