-- ==== Sys2Proof/Config.lean ====
section
/-! DEFINITION. What is fixed for one OSC-CORE: the fixed parameters of R8, the open parameters of R9 as one record (held
in State, so that every statement about every state is a statement about every choice of them), the parameter values of the
spec's own test configuration, and the free value an overrun delivery draws. -/

namespace Sys2Proof

/-- `FL`, FrameLength: values per channel per frame (R8). -/
abbrev FL : Nat := 319

/-- `TIME_AVG`: capacity of the interval bin array (R8). -/
abbrev TIME_AVG : Nat := 320

/-- `MEASURE_AVG`: frequency estimates per reported mean (R8). -/
abbrev MEASURE_AVG : Nat := 10

/-- `REF_POS`: the frame index of the frequency reference sample (R8, R212). -/
abbrev REF_POS : Nat := 3

/-- `ZERO_CODE`: the code for zero volts (R8). -/
abbrev ZERO_CODE : Nat := 2048

/-- A row of the vertical scale table (R26): pixelDivider, mV-per-pixel constant, midlevel of each channel (signed). -/
structure VRow where
  div  : BitVec 16
  mvpp : BitVec 16
  mid  : PerChannel (BitVec 16)
  deriving DecidableEq, Repr

/-- A row of the horizontal scale table (R27): decimation factor, and the numerator and denominator of the
seconds-per-pixel constant. -/
structure HRow where
  skip : BitVec 16
  sppn : BitVec 16
  sppd : BitVec 16
  deriving DecidableEq, Repr

/-- The open parameters of R9. `NV` and `NH` are the lengths of the two initial tables. -/
structure Params where
  /-- `N`, raw words per block. -/
  n : Nat
  /-- `K`, store capacity in blocks. -/
  k : Nat
  /-- `VTAB_INIT`, one row for each of the `NV` vertical scales. -/
  vtabInit : List VRow
  /-- `HTAB_INIT`, one row for each of the `NH` horizontal scales. -/
  htabInit : List HRow
  /-- `VIEW_INIT`, lower bound (signed). -/
  yMinInit : BitVec 16
  /-- `VIEW_INIT`, upper bound (signed). -/
  yMaxInit : BitVec 16
  /-- `NUM_AVG_INIT`. -/
  numAvgInit : BitVec 16
  deriving DecidableEq, Repr

/-- `CAP = K·N`, store capacity in codes per channel (R9). -/
def Params.cap (p : Params) : Nat := p.k * p.n

/-- The ranges of a vertical row that its 16-bit fields do not already give (R9, R26): div ≥ 1. -/
def VRow.legal (r : VRow) : Bool := r.div != 0

/-- The ranges of a horizontal row that its 16-bit fields do not already give (R9, R27): sppn ≥ 1, sppd ≥ 1. -/
def HRow.legal (r : HRow) : Bool := r.sppn != 0 && r.sppd != 0

/-- The constraints of R9 on a choice of parameters. -/
def Params.legal (p : Params) : Bool :=
  decide (1 ≤ p.n) && decide (1 ≤ p.k)
    && decide (1 ≤ p.vtabInit.length) && decide (p.vtabInit.length ≤ 128) && p.vtabInit.all VRow.legal
    && decide (1 ≤ p.htabInit.length) && decide (p.htabInit.length ≤ 128) && p.htabInit.all HRow.legal
    && p.numAvgInit != 0

/-- The parameter values of the spec's common test configuration (95_test_vectors.md section 0). DESIGN CHOICE, safe where a
statement quantifies over the parameters (log entry 1): the spec leaves them open; `State.reset` uses these. -/
def Params.common : Params where
  n := 200
  k := 4
  vtabInit := [⟨16, 40, ⟨247, 247⟩⟩, ⟨8, 20, ⟨247, 247⟩⟩]
  htabInit := [⟨0, 1, 1000⟩, ⟨1, 1, 500⟩]
  yMinInit := 0
  yMaxInit := 239
  numAvgInit := 4

/-- What a table read gives for a row that does not exist. No legal state reads one (the selected index stays below the row
count); log entry 8. -/
def VRow.absent : VRow := ⟨1, 0, ⟨0, 0⟩⟩

/-- As `VRow.absent`, for the horizontal table. -/
def HRow.absent : HRow := ⟨0, 1, 1⟩

/-- FREE VALUE. The words a delivery into an unconsumed slot leaves there are a draw under no law (R14, R245, R303): the
`j`-th word drawn since reset is `Config.freeWord j`, about which nothing can be proved. Log entry 3. -/
opaque Config.freeWord : Nat → RawWord

end Sys2Proof
end

