-- ==== Sys2Proof/Syntax.lean ====
section
/-! DEFINITION. The host commands: one constructor for each of the 22 rows of R86 (spec/opcode_table.json), with the fields
the row uses, each at its width (R84, R85, R87). Unused fields are ignored (R89) and stand in no constructor. -/

namespace Sys2Proof

/-- The 22 commands of R86. `data` of LOAD_VMID, SET_YMIN and SET_YMAX is a signed field (R87). -/
inductive Instr where
  /-- R262 -/
  | nop
  /-- R263 -/
  | calibrate
  /-- R264 -/
  | setRun (run : Bool)
  /-- R265 -/
  | setMode (mode : Mode)
  /-- R266 -/
  | clearStatus (mask : BitVec 3)
  /-- R267 -/
  | setVscale (ch : Channel) (idx : BitVec 7)
  /-- R268 -/
  | setHscale (idx : BitVec 7)
  /-- R269 -/
  | setChen (ch : Channel) (en : Bool)
  /-- R270, the one command of format T (R85) -/
  | setTrigger (level : Code) (pos : BitVec 9) (edge : Edge) (src : Channel)
  /-- R271 -/
  | loadVdiv (idx : BitVec 7) (data : BitVec 16)
  /-- R272 -/
  | loadVmvpp (idx : BitVec 7) (data : BitVec 16)
  /-- R273 -/
  | loadVmid (ch : Channel) (idx : BitVec 7) (data : BitVec 16)
  /-- R274 -/
  | loadHskip (idx : BitVec 7) (data : BitVec 16)
  /-- R275 -/
  | loadHsppn (idx : BitVec 7) (data : BitVec 16)
  /-- R276 -/
  | loadHsppd (idx : BitVec 7) (data : BitVec 16)
  /-- R277 -/
  | setYmin (data : BitVec 16)
  /-- R278 -/
  | setYmax (data : BitVec 16)
  /-- R279 -/
  | setNumavg (data : BitVec 16)
  /-- R280 -/
  | setHalve (halve : Bool)
  /-- R281 -/
  | setFrThresh (data : BitVec 16)
  /-- R282 -/
  | setFrCap (data : BitVec 16)
  /-- R283 -/
  | setFrEn (en : Bool)
  deriving DecidableEq, Repr

end Sys2Proof
end

