-- ==== Sys2Proof/WellFormed.lean ====
section
/-! DEFINITION. The assembler's command lines and its check that every operand fits its field (R93). A decoded `Instr`
carries each operand at its field's width, so an operand that does not fit cannot be built there; a source line carries
numbers, and `Line.wellFormed` is the check the assembler refuses a line by. -/

namespace Sys2Proof

/-- One command line, `MNEMONIC operand, operand, …`, operands positional in the order of R93. Number operands are the
integers written (decimal or hexadecimal, a leading `-` for a negative one). -/
inductive Line where
  | nop
  | calibrate
  | setRun (run : Int)
  | setMode (mode : Mode)
  | clearStatus (mask : Int)
  | setVscale (ch : Channel) (idx : Int)
  | setHscale (idx : Int)
  | setChen (ch : Channel) (en : Int)
  | setTrigger (level pos : Int) (edge : Edge) (src : Channel)
  | loadVdiv (idx v : Int)
  | loadVmvpp (idx v : Int)
  | loadVmid (ch : Channel) (idx v : Int)
  | loadHskip (idx v : Int)
  | loadHsppn (idx v : Int)
  | loadHsppd (idx v : Int)
  | setYmin (v : Int)
  | setYmax (v : Int)
  | setNumavg (v : Int)
  | setHalve (b : Int)
  | setFrThresh (v : Int)
  | setFrCap (v : Int)
  | setFrEn (b : Int)
  deriving DecidableEq, Repr

/-- `v` fits an unsigned field of `w` bits. -/
def fitsUnsigned (w : Nat) (v : Int) : Bool := decide (0 ≤ v) && decide (v < 2 ^ w)

/-- `v` fits the signed 16-bit DATA field: in [−32768, 32767]. -/
def fitsSigned16 (v : Int) : Bool := decide (-32768 ≤ v) && decide (v ≤ 32767)

/-- R93: the assembler refuses IDX > 127, POS > 511, LEVEL > 4095, unsigned DATA > 65535, signed DATA outside
[−32768, 32767], a 1-bit operand other than 0 or 1 (and a CLEAR_STATUS mask wider than its three bits). -/
def Line.wellFormed : Line → Bool
  | .nop => true
  | .calibrate => true
  | .setRun run => fitsUnsigned 1 run
  | .setMode _ => true
  | .clearStatus mask => fitsUnsigned 3 mask
  | .setVscale _ idx => fitsUnsigned 7 idx
  | .setHscale idx => fitsUnsigned 7 idx
  | .setChen _ en => fitsUnsigned 1 en
  | .setTrigger level pos _ _ => fitsUnsigned 12 level && fitsUnsigned 9 pos
  | .loadVdiv idx v => fitsUnsigned 7 idx && fitsUnsigned 16 v
  | .loadVmvpp idx v => fitsUnsigned 7 idx && fitsUnsigned 16 v
  | .loadVmid _ idx v => fitsUnsigned 7 idx && fitsSigned16 v
  | .loadHskip idx v => fitsUnsigned 7 idx && fitsUnsigned 16 v
  | .loadHsppn idx v => fitsUnsigned 7 idx && fitsUnsigned 16 v
  | .loadHsppd idx v => fitsUnsigned 7 idx && fitsUnsigned 16 v
  | .setYmin v => fitsSigned16 v
  | .setYmax v => fitsSigned16 v
  | .setNumavg v => fitsUnsigned 16 v
  | .setHalve b => fitsUnsigned 1 b
  | .setFrThresh v => fitsUnsigned 16 v
  | .setFrCap v => fitsUnsigned 16 v
  | .setFrEn b => fitsUnsigned 1 b

end Sys2Proof
end

