-- ==== Sys2Proof/Decode.lean ====
section
/-! DEFINITION. The command word: fields (R84, R85), the decoder of R260 over the opcode map of R86, total and rejecting a
reserved word by name (R88); the encoder written from the same tables, ignored bits 0 (R89); the opcode map in mask/match
form; and the assembler's step from a line to its command (R93). -/

namespace Sys2Proof

/-! ## Fields -/

/-- `OP`, bits [31:28]. -/
def opOf (w : CmdWord) : BitVec 4 := w.extractLsb' 28 4
/-- `SUB`, bits [27:24]. -/
def subOf (w : CmdWord) : BitVec 4 := w.extractLsb' 24 4
/-- A channel number read from one bit: 0 Channel1, 1 Channel2. -/
def channelOfBit (b : Bool) : Channel := if b then .ch2 else .ch1
/-- An edge read from one bit: 0 Rising, 1 Falling. -/
def edgeOfBit (b : Bool) : Edge := if b then .falling else .rising
/-- A mode read from one bit: 0 Normal, 1 Average. -/
def modeOfBit (b : Bool) : Mode := if b then .average else .normal
/-- `CH`, bit [23] of format R. -/
def chOf (w : CmdWord) : Channel := channelOfBit (w.getLsbD 23)
/-- `IDX`, bits [22:16] of format R. -/
def idxOf (w : CmdWord) : BitVec 7 := w.extractLsb' 16 7
/-- `DATA`, bits [15:0] of format R. -/
def dataOf (w : CmdWord) : BitVec 16 := w.extractLsb' 0 16
/-- `DATA[0]`. -/
def flagOf (w : CmdWord) : Bool := w.getLsbD 0
/-- `DATA[2:0]`. -/
def maskOf (w : CmdWord) : BitVec 3 := w.extractLsb' 0 3
/-- `EDGE`, bit [27] of format T. -/
def edgeOf (w : CmdWord) : Edge := edgeOfBit (w.getLsbD 27)
/-- `SRC`, bit [26] of format T. -/
def srcOf (w : CmdWord) : Channel := channelOfBit (w.getLsbD 26)
/-- `POS`, bits [24:16] of format T. -/
def posOf (w : CmdWord) : BitVec 9 := w.extractLsb' 16 9
/-- `LEVEL`, bits [11:0] of format T. -/
def levelOf (w : CmdWord) : Code := w.extractLsb' 0 12

/-! ## Decoder -/

/-- Why a word is no command (R88). -/
inductive DecodeError where
  /-- The word's `OP` is 0x8-0xF. -/
  | reservedOp (op : BitVec 4)
  /-- The word's `OP` is a group of format R and its `SUB` is no command of the group. -/
  | reservedSub (op sub : BitVec 4)
  deriving DecidableEq, Repr

/-- The command a word holds, or why it is reserved (R86, R88, R260). -/
def decode (w : CmdWord) : Except DecodeError Instr :=
  match (opOf w).toNat, (subOf w).toNat with
  | 0x0, 0x0 => .ok .nop
  | 0x0, 0x1 => .ok .calibrate
  | 0x0, 0x2 => .ok (.setRun (flagOf w))
  | 0x0, 0x3 => .ok (.setMode (modeOfBit (flagOf w)))
  | 0x0, 0x4 => .ok (.clearStatus (maskOf w))
  | 0x1, 0x0 => .ok (.setVscale (chOf w) (idxOf w))
  | 0x1, 0x1 => .ok (.setHscale (idxOf w))
  | 0x1, 0x2 => .ok (.setChen (chOf w) (flagOf w))
  | 0x2, _   => .ok (.setTrigger (levelOf w) (posOf w) (edgeOf w) (srcOf w))
  | 0x3, 0x0 => .ok (.loadVdiv (idxOf w) (dataOf w))
  | 0x3, 0x1 => .ok (.loadVmvpp (idxOf w) (dataOf w))
  | 0x3, 0x2 => .ok (.loadVmid (chOf w) (idxOf w) (dataOf w))
  | 0x4, 0x0 => .ok (.loadHskip (idxOf w) (dataOf w))
  | 0x4, 0x1 => .ok (.loadHsppn (idxOf w) (dataOf w))
  | 0x4, 0x2 => .ok (.loadHsppd (idxOf w) (dataOf w))
  | 0x5, 0x0 => .ok (.setYmin (dataOf w))
  | 0x5, 0x1 => .ok (.setYmax (dataOf w))
  | 0x6, 0x0 => .ok (.setNumavg (dataOf w))
  | 0x6, 0x1 => .ok (.setHalve (flagOf w))
  | 0x7, 0x0 => .ok (.setFrThresh (dataOf w))
  | 0x7, 0x1 => .ok (.setFrCap (dataOf w))
  | 0x7, 0x2 => .ok (.setFrEn (flagOf w))
  | op, _    => .error (if op < 8 then .reservedSub (opOf w) (subOf w) else .reservedOp (opOf w))

/-- The command word whose bits, numbered as the opcode table numbers them, are `w`; bits above `nbits` are 0. Every command
is one 32-bit word (R83). -/
def tableWord (nbits w : Nat) : CmdWord := BitVec.ofNat 32 (w % 2 ^ nbits)

/-- The command the decoder reads from a word of the opcode table. -/
def decodeTableWord (nbits w : Nat) : Option Instr :=
  match decode (tableWord nbits w) with
  | .ok i => some i
  | .error _ => none

/-! ## Encoder -/

/-- The bit that stands for a channel. -/
def channelBit : Channel → BitVec 1
  | .ch1 => 0
  | .ch2 => 1
/-- The bit that stands for an edge. -/
def edgeBit : Edge → BitVec 1
  | .rising => 0
  | .falling => 1
/-- The bit that stands for a mode. -/
def modeBit : Mode → BitVec 1
  | .normal => 0
  | .average => 1

/-- A word of format R (R84). -/
def formatR (op sub : BitVec 4) (ch : BitVec 1) (idx : BitVec 7) (data : BitVec 16) : CmdWord :=
  op ++ sub ++ ch ++ idx ++ data

/-- A word of format T (R85): bits [25] and [15:12] are ignored and written 0 (R89). -/
def formatT (edge src : BitVec 1) (pos : BitVec 9) (level : Code) : CmdWord :=
  0x2#4 ++ edge ++ src ++ 0#1 ++ pos ++ 0#4 ++ level

/-- A flag in `DATA[0]`, the rest of DATA 0. -/
def flagData (b : Bool) : BitVec 16 := (BitVec.ofBool b).setWidth 16

/-- The word of a command: the row's OP and SUB, its fields, every ignored bit 0 (R86, R89). -/
def encode : Instr → CmdWord
  | .nop => formatR 0x0 0x0 0 0 0
  | .calibrate => formatR 0x0 0x1 0 0 0
  | .setRun run => formatR 0x0 0x2 0 0 (flagData run)
  | .setMode mode => formatR 0x0 0x3 0 0 ((modeBit mode).setWidth 16)
  | .clearStatus mask => formatR 0x0 0x4 0 0 (mask.setWidth 16)
  | .setVscale ch idx => formatR 0x1 0x0 (channelBit ch) idx 0
  | .setHscale idx => formatR 0x1 0x1 0 idx 0
  | .setChen ch en => formatR 0x1 0x2 (channelBit ch) 0 (flagData en)
  | .setTrigger level pos edge src => formatT (edgeBit edge) (channelBit src) pos level
  | .loadVdiv idx data => formatR 0x3 0x0 0 idx data
  | .loadVmvpp idx data => formatR 0x3 0x1 0 idx data
  | .loadVmid ch idx data => formatR 0x3 0x2 (channelBit ch) idx data
  | .loadHskip idx data => formatR 0x4 0x0 0 idx data
  | .loadHsppn idx data => formatR 0x4 0x1 0 idx data
  | .loadHsppd idx data => formatR 0x4 0x2 0 idx data
  | .setYmin data => formatR 0x5 0x0 0 0 data
  | .setYmax data => formatR 0x5 0x1 0 0 data
  | .setNumavg data => formatR 0x6 0x0 0 0 data
  | .setHalve halve => formatR 0x6 0x1 0 0 (flagData halve)
  | .setFrThresh data => formatR 0x7 0x0 0 0 data
  | .setFrCap data => formatR 0x7 0x1 0 0 data
  | .setFrEn en => formatR 0x7 0x2 0 0 (flagData en)

/-! ## The opcode map in mask/match form -/

/-- The mnemonic of a command, as R86 and spec/opcode_table.json spell it. -/
def Instr.mnemonic : Instr → String
  | .nop => "NOP"
  | .calibrate => "CALIBRATE"
  | .setRun _ => "SET_RUN"
  | .setMode _ => "SET_MODE"
  | .clearStatus _ => "CLEAR_STATUS"
  | .setVscale _ _ => "SET_VSCALE"
  | .setHscale _ => "SET_HSCALE"
  | .setChen _ _ => "SET_CHEN"
  | .setTrigger _ _ _ _ => "SET_TRIGGER"
  | .loadVdiv _ _ => "LOAD_VDIV"
  | .loadVmvpp _ _ => "LOAD_VMVPP"
  | .loadVmid _ _ _ => "LOAD_VMID"
  | .loadHskip _ _ => "LOAD_HSKIP"
  | .loadHsppn _ _ => "LOAD_HSPPN"
  | .loadHsppd _ _ => "LOAD_HSPPD"
  | .setYmin _ => "SET_YMIN"
  | .setYmax _ => "SET_YMAX"
  | .setNumavg _ => "SET_NUMAVG"
  | .setHalve _ => "SET_HALVE"
  | .setFrThresh _ => "SET_FR_THRESH"
  | .setFrCap _ => "SET_FR_CAP"
  | .setFrEn _ => "SET_FR_EN"

/-- One row of the opcode map: a word matches when its bits under `mask` are `value` (R86). -/
structure OpcodeRow where
  mnemonic : String
  mask : CmdWord
  value : CmdWord
  deriving DecidableEq, Repr

/-- A word matches a row of the map. -/
def OpcodeRow.accepts (r : OpcodeRow) (w : CmdWord) : Bool := (w &&& r.mask) == r.value

/-- The 22 rows of R86 in mask/match form. -/
def opcodeMap : List OpcodeRow :=
  [⟨"NOP", 0xFF000000, 0x00000000⟩, ⟨"CALIBRATE", 0xFF000000, 0x01000000⟩, ⟨"SET_RUN", 0xFF000000, 0x02000000⟩,
   ⟨"SET_MODE", 0xFF000000, 0x03000000⟩, ⟨"CLEAR_STATUS", 0xFF000000, 0x04000000⟩] ++
  [⟨"SET_VSCALE", 0xFF000000, 0x10000000⟩, ⟨"SET_HSCALE", 0xFF000000, 0x11000000⟩, ⟨"SET_CHEN", 0xFF000000, 0x12000000⟩,
   ⟨"SET_TRIGGER", 0xF0000000, 0x20000000⟩] ++
  [⟨"LOAD_VDIV", 0xFF000000, 0x30000000⟩, ⟨"LOAD_VMVPP", 0xFF000000, 0x31000000⟩, ⟨"LOAD_VMID", 0xFF000000, 0x32000000⟩,
   ⟨"LOAD_HSKIP", 0xFF000000, 0x40000000⟩, ⟨"LOAD_HSPPN", 0xFF000000, 0x41000000⟩, ⟨"LOAD_HSPPD", 0xFF000000, 0x42000000⟩] ++
  [⟨"SET_YMIN", 0xFF000000, 0x50000000⟩, ⟨"SET_YMAX", 0xFF000000, 0x51000000⟩, ⟨"SET_NUMAVG", 0xFF000000, 0x60000000⟩,
   ⟨"SET_HALVE", 0xFF000000, 0x61000000⟩, ⟨"SET_FR_THRESH", 0xFF000000, 0x70000000⟩, ⟨"SET_FR_CAP", 0xFF000000, 0x71000000⟩,
   ⟨"SET_FR_EN", 0xFF000000, 0x72000000⟩]

/-! ## The assembler's commands -/

/-- A 1-bit operand of a line. -/
def lineFlag (v : Int) : Bool := v == 1

/-- The command a well-formed line stands for: each operand placed in its field (R87, R93). -/
def Line.instr : Line → Instr
  | .nop => .nop
  | .calibrate => .calibrate
  | .setRun run => .setRun (lineFlag run)
  | .setMode mode => .setMode mode
  | .clearStatus mask => .clearStatus (BitVec.ofInt 3 mask)
  | .setVscale ch idx => .setVscale ch (BitVec.ofInt 7 idx)
  | .setHscale idx => .setHscale (BitVec.ofInt 7 idx)
  | .setChen ch en => .setChen ch (lineFlag en)
  | .setTrigger level pos edge src => .setTrigger (BitVec.ofInt 12 level) (BitVec.ofInt 9 pos) edge src
  | .loadVdiv idx v => .loadVdiv (BitVec.ofInt 7 idx) (BitVec.ofInt 16 v)
  | .loadVmvpp idx v => .loadVmvpp (BitVec.ofInt 7 idx) (BitVec.ofInt 16 v)
  | .loadVmid ch idx v => .loadVmid ch (BitVec.ofInt 7 idx) (BitVec.ofInt 16 v)
  | .loadHskip idx v => .loadHskip (BitVec.ofInt 7 idx) (BitVec.ofInt 16 v)
  | .loadHsppn idx v => .loadHsppn (BitVec.ofInt 7 idx) (BitVec.ofInt 16 v)
  | .loadHsppd idx v => .loadHsppd (BitVec.ofInt 7 idx) (BitVec.ofInt 16 v)
  | .setYmin v => .setYmin (BitVec.ofInt 16 v)
  | .setYmax v => .setYmax (BitVec.ofInt 16 v)
  | .setNumavg v => .setNumavg (BitVec.ofInt 16 v)
  | .setHalve b => .setHalve (lineFlag b)
  | .setFrThresh v => .setFrThresh (BitVec.ofInt 16 v)
  | .setFrCap v => .setFrCap (BitVec.ofInt 16 v)
  | .setFrEn b => .setFrEn (lineFlag b)

/-- The word the assembler writes for a line, or none where it refuses the line (R93). -/
def assemble (l : Line) : Option CmdWord :=
  if l.wellFormed then some (encode l.instr) else none

end Sys2Proof
end

