-- ==== Sys2Proof/Machine/Memory.lean ====
section
/-! DEFINITION. One channel's circular sample store as plain data: the slots that hold something else than the reset code,
with their codes, in one canonical form. The store is the only memory of OSC-CORE (R60); its element is a 12-bit code, not a
byte (R62), so a cell pairs a slot with a code. -/

namespace Sys2Proof.Machine

/-- A store cell: a physical slot and the code in it. -/
abbrev StoreCell := Nat × Code

/-- One channel's store: slots strictly rising, no cell holding what an unlisted slot reads as. -/
abbrev Memory := List StoreCell

/-- What an unlisted slot reads as: 0, the reset contents of every slot (R22, R331). -/
def Memory.blank : Code := 0

/-- The code in slot `a`. -/
def Memory.read : Memory → Nat → Code
  | [], _ => Memory.blank
  | (b, v) :: m, a => if a = b then v else Memory.read m a

/-- The store with the code `v` in slot `a`; the canonical form is kept. -/
def Memory.write : Memory → Nat → Code → Memory
  | [], a, v => if v = Memory.blank then [] else [(a, v)]
  | (b, w) :: m, a, v =>
    if a < b then (if v = Memory.blank then (b, w) :: m else (a, v) :: (b, w) :: m)
    else if a = b then (if v = Memory.blank then m else (a, v) :: m)
    else (b, w) :: Memory.write m a v

/-- The canonical form: slots strictly rising, no cell equal to what an unlisted slot reads as. -/
def Memory.wf : Memory → Bool
  | [] => true
  | (b, v) :: m => m.all (fun c => decide (b < c.1)) && v != Memory.blank && Memory.wf m

/-- Every listed slot is below `cap`: the store has exactly the slots [0, cap) (R22, R66). -/
def Memory.below (m : Memory) (cap : Nat) : Bool := m.all fun c => decide (c.1 < cap)

end Sys2Proof.Machine
end

