-- ==== Sys2Proof/Machine/Registers.lean ====
section
/-! DEFINITION. The register groups State is made of (R24, R25, R28, R30), the records of the output streams (R90-R92), the
input events of the four agents (R67), and LATCH as a function of the pending registers and tables (R247). -/

namespace Sys2Proof.Machine

/-- The pending configuration registers `P_*` (R25). -/
structure PendingCfg where
  vscale   : PerChannel (BitVec 7)
  hscale   : BitVec 7
  level    : Code
  edge     : Edge
  src      : Channel
  pos      : BitVec 9
  mode     : Mode
  chen     : PerChannel Bool
  numavg   : BitVec 16
  halve    : Bool
  frThresh : BitVec 16
  frCap    : BitVec 16
  frEn     : Bool
  /-- signed -/
  yMin     : BitVec 16
  /-- signed -/
  yMax     : BitVec 16
  deriving DecidableEq, Repr

/-- The active configuration registers `A_*` (R28): the twins of the pending ones and the latched table values. -/
structure ActiveCfg where
  vscale   : PerChannel (BitVec 7)
  hscale   : BitVec 7
  level    : Code
  edge     : Edge
  src      : Channel
  pos      : BitVec 9
  mode     : Mode
  chen     : PerChannel Bool
  numavg   : BitVec 16
  halve    : Bool
  frThresh : BitVec 16
  frCap    : BitVec 16
  frEn     : Bool
  /-- signed -/
  yMin     : BitVec 16
  /-- signed -/
  yMax     : BitVec 16
  div      : PerChannel (BitVec 16)
  mvpp     : PerChannel (BitVec 16)
  /-- signed -/
  mid      : PerChannel (BitVec 16)
  skip     : BitVec 16
  sppn     : BitVec 16
  sppd     : BitVec 16
  deriving DecidableEq, Repr

/-- The capture state (R30). The value 7 is reserved and never held, so it has no constructor. -/
inductive CState where
  | idle
  | backfillPending
  | filling
  | publishing
  | accumulatingBackfill
  | accumulating
  | averaging
  deriving DecidableEq, Repr

/-- The 3-bit encoding of the capture state (R30). -/
def CState.code : CState → BitVec 3
  | .idle => 0
  | .backfillPending => 1
  | .filling => 2
  | .publishing => 3
  | .accumulatingBackfill => 4
  | .accumulating => 5
  | .averaging => 6

/-- The rest states: between steps the capture state is one of these (R30, R48). -/
def CState.rest : CState → Bool
  | .idle | .filling | .accumulating => true
  | .backfillPending | .publishing | .accumulatingBackfill | .averaging => false

/-- One mailbox slot: its raw block and its completion flag (R24). -/
structure Mailbox where
  data : List RawWord
  flag : Bool
  deriving DecidableEq, Repr

/-- One channel's frame: exactly FL codes (R16 Frame, R158). -/
abbrev Frame := Vector Code FL

/-- A FRAME_OUT record (R90). -/
structure FrameRecord where
  seq    : BitVec 32
  mode   : Mode
  chen   : PerChannel Bool
  forced : Bool
  trig   : Nat
  data   : PerChannel Frame
  deriving DecidableEq, Repr

/-- The kind of a segment record: 0 ERASE, 1 DRAW (R91). -/
inductive SegKind where
  | erase
  | draw
  deriving DecidableEq, Repr

/-- A SEG_OUT record (R91); `y0` and `y1` are signed. -/
structure SegRecord where
  kind    : SegKind
  ch      : Channel
  col     : Nat
  y0      : BitVec 16
  y1      : BitVec 16
  outcome : BitVec 4
  deriving DecidableEq, Repr

/-- A MEAS_OUT record (R92); rationals are exact (R222). -/
structure MeasRecord where
  seq       : BitVec 32
  ch        : Channel
  min       : Nat
  max       : Nat
  p2p       : Nat
  minMv     : ℚ
  maxMv     : ℚ
  p2pMv     : ℚ
  freqValid : Bool
  freq      : ℚ
  deriving DecidableEq, Repr

/-- One record appended to an output stream. The three streams are kept in one list in the order of the appends, which is
the relative order between them (R44, R74). -/
inductive OutRecord where
  | frame (r : FrameRecord)
  | seg (r : SegRecord)
  | meas (r : MeasRecord)
  deriving DecidableEq, Repr

/-- The FRAME_OUT record an append made, if it made one. -/
def OutRecord.frame? : OutRecord → Option FrameRecord
  | .frame r => some r
  | _ => none

/-- The SEG_OUT record an append made, if it made one. -/
def OutRecord.seg? : OutRecord → Option SegRecord
  | .seg r => some r
  | _ => none

/-- The MEAS_OUT record an append made, if it made one. -/
def OutRecord.meas? : OutRecord → Option MeasRecord
  | .meas r => some r
  | _ => none

/-- One step of one agent (R67, R313): the producer's DELIVER, the host's command, the consumer's POLL, the host's READ. -/
inductive Event where
  | deliver (slot : Slot) (words : List RawWord)
  | command (w : CmdWord)
  | poll
  | read (addr : BitVec 8)
  deriving DecidableEq, Repr

/-- Row `v` of the vertical table. -/
def vrow (t : List VRow) (v : BitVec 7) : VRow := t[v.toNat]?.getD VRow.absent

/-- Row `h` of the horizontal table. -/
def hrow (t : List HRow) (h : BitVec 7) : HRow := t[h.toNat]?.getD HRow.absent

/-- LATCH(): the active set the pending registers and the rows they select give (R247). -/
def latchedCfg (p : PendingCfg) (vt : List VRow) (ht : List HRow) : ActiveCfg where
  vscale := p.vscale
  hscale := p.hscale
  level := p.level
  edge := p.edge
  src := p.src
  pos := p.pos
  mode := p.mode
  chen := p.chen
  numavg := p.numavg
  halve := p.halve
  frThresh := p.frThresh
  frCap := p.frCap
  frEn := p.frEn
  yMin := p.yMin
  yMax := p.yMax
  div := .tabulate fun ch => (vrow vt (p.vscale.get ch)).div
  mvpp := .tabulate fun ch => (vrow vt (p.vscale.get ch)).mvpp
  mid := .tabulate fun ch => (vrow vt (p.vscale.get ch)).mid.get ch
  skip := (hrow ht p.hscale).skip
  sppn := (hrow ht p.hscale).sppn
  sppd := (hrow ht p.hscale).sppd

end Sys2Proof.Machine
end

