-- ==== Sys2Proof/Machine/State.lean ====
section
/-! DEFINITION. The state of OSC-CORE as plain data (10_state.md), the reasons a step can stop, and the state right after
RESET (R330, R331). -/

namespace Sys2Proof.Machine

/-- Everything the spec gives the machine, the parameters it is built with, and four fields of the model's own
(`readOut`, `draws`, `inputs`, `par`; INVENTORY.md). -/
structure State where
  /-- The open parameters of R9: fixed for the machine, written by no step. -/
  par : Params
  /-- `STORE[ch][p]` (R22). -/
  store : PerChannel Memory
  /-- `WP` (R23). -/
  wp : Nat
  /-- `MBOX_DATA[s]`, `MBOX_PEND[s]` (R24). -/
  mbox : PerSlot Mailbox
  /-- `P_*` (R25). -/
  pend : PendingCfg
  /-- `VDIV`, `VMVPP`, `VMID` (R26); `NV` is its length. -/
  vtab : List VRow
  /-- `HSKIP`, `HSPPN`, `HSPPD` (R27); `NH` is its length. -/
  htab : List HRow
  /-- `A_*` (R28). -/
  act : ActiveCfg
  /-- `RUN` (R29). -/
  run : Bool
  /-- `CSTATE` (R30). -/
  cstate : CState
  /-- `TRIG_IDX` (R31). -/
  trigIdx : Nat
  /-- `FORCED` (R31). -/
  forced : Bool
  /-- `PIX` (R32). -/
  pix : BitVec 9
  /-- `SKIPCNT` (R32). -/
  skipcnt : BitVec 16
  /-- `FRAMEBUF[ch][k]` (R33). -/
  framebuf : PerChannel Frame
  /-- `ACC[ch][k]` (R34). -/
  acc : PerChannel (Vector (BitVec 32) FL)
  /-- `AVGCNT` (R34). -/
  avgcnt : BitVec 16
  /-- `MISS` (R35). -/
  miss : BitVec 16
  /-- `LF_VALID` (R38). -/
  lfValid : Bool
  /-- `LF_DATA[ch][k]` (R38). -/
  lfData : PerChannel Frame
  /-- `LF_CHEN[ch]` (R38). -/
  lfChen : PerChannel Bool
  /-- `FRAMESEQ` (R39). -/
  frameseq : BitVec 32
  /-- `RY[ch][k]`, signed (R40). -/
  ry : PerChannel (Vector (BitVec 16) FL)
  /-- `RY_VALID[ch]` (R40). -/
  ryValid : PerChannel Bool
  /-- `FSET[ch][e]` (R41). -/
  fset : PerChannel (Vector ℚ MEASURE_AVG)
  /-- `FCNT[ch]` (R41). -/
  fcnt : PerChannel (BitVec 4)
  /-- `OVR` (R43). -/
  ovr : Bool
  /-- `CFGERR` (R43). -/
  cfgerr : Bool
  /-- `CMDERR` (R43). -/
  cmderr : Bool
  /-- FRAME_OUT, SEG_OUT, MEAS_OUT in append order, oldest first (R44, R74). -/
  out : List OutRecord
  /-- The model's own: the answers the read port has given, with their addresses, oldest first (log entry 4). -/
  readOut : List (BitVec 8 × BitVec 32)
  /-- The model's own: how many words overrun deliveries have drawn (log entry 3). -/
  draws : Nat
  /-- The model's own: the steps of the agents still to come, in the scheduler's order (log entry 2). -/
  inputs : List Event
  deriving DecidableEq, Repr

/-- The reasons the machine stops with a fault. OSC-CORE raises no exceptions and takes no traps (R300), and every
store index is taken modulo the capacity (R61): there is none. -/
inductive Fault where
  deriving DecidableEq, Repr

/-- The reasons a step has no meaning. -/
inductive Refusal where
  /-- Raised by `exec` for a command that has no meaning yet; no arm raises it. Safe. -/
  | notModelled (mnemonic : String)
  /-- Raised by a delivery event whose word list does not have `N` words: a RawBlock is a fixed-size sequence of N words
  (R9, R64), so the sample port has no such step. Safe: nothing the hardware can do is lost. -/
  | blockLength (words : Nat)
  deriving DecidableEq, Repr

/-- `NV`, the rows of the vertical table. -/
def State.nv (s : State) : Nat := s.vtab.length

/-- `NH`, the rows of the horizontal table. -/
def State.nh (s : State) : Nat := s.htab.length

/-- FRAME_OUT (R44). -/
def State.frameOut (s : State) : List FrameRecord := s.out.filterMap OutRecord.frame?

/-- SEG_OUT (R44). -/
def State.segOut (s : State) : List SegRecord := s.out.filterMap OutRecord.seg?

/-- MEAS_OUT (R44). -/
def State.measOut (s : State) : List MeasRecord := s.out.filterMap OutRecord.meas?

/-- The pending registers at reset (R331). -/
def resetPending (p : Params) : PendingCfg where
  vscale := ⟨0, 0⟩
  hscale := 0
  level := 2048
  edge := .rising
  src := .ch1
  pos := 0
  mode := .normal
  chen := ⟨true, true⟩
  numavg := p.numAvgInit
  halve := false
  frThresh := 10
  frCap := 20
  frEn := true
  yMin := p.yMinInit
  yMax := p.yMaxInit

/-- RESET of a core built with the parameters `p` (R330, R331). The mailbox data, which the spec leaves unspecified, are 0
words: DESIGN CHOICE, log entry 5. -/
def State.resetWith (p : Params) : State where
  par := p
  store := ⟨[], []⟩
  wp := 0
  mbox := ⟨⟨List.replicate p.n 0, false⟩, ⟨List.replicate p.n 0, false⟩⟩
  pend := resetPending p
  vtab := p.vtabInit
  htab := p.htabInit
  act := latchedCfg (resetPending p) p.vtabInit p.htabInit
  run := true
  cstate := .idle
  trigIdx := 0
  forced := false
  pix := 0
  skipcnt := 0
  framebuf := ⟨Vector.replicate FL 0, Vector.replicate FL 0⟩
  acc := ⟨Vector.replicate FL 0, Vector.replicate FL 0⟩
  avgcnt := 0
  miss := 0
  lfValid := false
  lfData := ⟨Vector.replicate FL 0, Vector.replicate FL 0⟩
  lfChen := ⟨false, false⟩
  frameseq := 0
  ry := ⟨Vector.replicate FL 0, Vector.replicate FL 0⟩
  ryValid := ⟨false, false⟩
  fset := ⟨Vector.replicate MEASURE_AVG 0, Vector.replicate MEASURE_AVG 0⟩
  fcnt := ⟨0, 0⟩
  ovr := false
  cfgerr := false
  cmderr := false
  out := []
  readOut := []
  draws := 0
  inputs := []

/-- The machine right after RESET, with the parameters of the spec's common test configuration (log entry 1). -/
def State.reset : State := State.resetWith Params.common

end Sys2Proof.Machine
end

