-- ==== Sys2Proof/Machine/Flags.lean ====
section
/-! DEFINITION. The sticky status bits (R43): `set_sticky` (R302), the write-one-to-clear of CLEAR_STATUS (R266), and the
substitute for a reserved word (R284). These bits are all the error reporting there is: no exception is raised, no trap is
taken and there is none to return from (R300), so no operation here saves a context or changes where the machine goes on. -/

namespace Sys2Proof.Machine

/-- `set_sticky(OVR)` (R302, R303). -/
def setOvr (s : State) : State := { s with ovr := true }

/-- `set_sticky(CFGERR)` (R302, R304). -/
def setCfgerr (s : State) : State := { s with cfgerr := true }

/-- `set_sticky(CMDERR)` (R302, R305). -/
def setCmderr (s : State) : State := { s with cmderr := true }

/-- Write-one-to-clear: bit 0 `OVR`, bit 1 `CFGERR`, bit 2 `CMDERR` (R266). -/
def clearSticky (mask : BitVec 3) (s : State) : State :=
  { s with
    ovr := s.ovr && !mask.getLsbD 0
    cfgerr := s.cfgerr && !mask.getLsbD 1
    cmderr := s.cmderr && !mask.getLsbD 2 }

/-- RESERVED(w): a word with a reserved encoding sets `CMDERR` and changes nothing else (R88, R284). -/
def reservedWord (s : State) : State := setCmderr s

end Sys2Proof.Machine
end

