-- ==== Sys2Proof/Machine/Operands.lean ====
section
/-! DEFINITION. How a command's operands are turned into register values: sign, saturation and the clamps that substitute a
legal value for an in-field but illegal one (R13, R87, R267, R268, R270). -/

namespace Sys2Proof.Machine

/-- `sext_32` of a signed 16-bit field, as an integer (R12, R87). -/
def signed16 (v : BitVec 16) : Int := v.toInt

/-- `clamp(v, lo, hi)` (R13). -/
def clampInt (v lo hi : Int) : Int := min (max v lo) hi

/-- `sat16(v)` as the 16-bit two's-complement pattern (R13). -/
def sat16 (v : Int) : BitVec 16 := BitVec.ofInt 16 (clampInt v (-32768) 32767)

/-- A scale index beyond the table is clamped to its last row (R267, R268). -/
def clampIndex (idx : BitVec 7) (rows : Nat) : BitVec 7 := BitVec.ofNat 7 (min idx.toNat (rows - 1))

/-- A trigger position beyond the frame is clamped to its last index (R270). -/
def clampPos (pos : BitVec 9) : BitVec 9 := BitVec.ofNat 9 (min pos.toNat (FL - 1))

end Sys2Proof.Machine
end

