-- ==== Sys2Proof/Machine/Ops.lean ====
section
/-! DEFINITION. The shared operations over the store, the tables, the columns of a frame and the configuration: StoreRead and
StoreWrite (R120, R121), the capture-cycle boundary (R36), the latch (R247), table writes (R271-R276), adjacent columns.
OSC-CORE takes no exception and returns from none (R300); what stands in an exception's place is `set_sticky`
(Machine/Flags.lean). -/

namespace Sys2Proof.Machine

/-! ## Columns of a frame -/

/-- Every entry of `v` changed by `f`. -/
def mapCols {α β : Type} {n : Nat} (f : α → β) (v : Vector α n) : Vector β n :=
  ⟨⟨v.toList.map f⟩, by simp⟩

/-- The pairs of neighbours of a list, each with the index of its second element counted from `c`. -/
def adjacentFrom {α : Type} : Nat → List α → List (Nat × α × α)
  | c, a :: b :: l => (c, a, b) :: adjacentFrom (c + 1) (b :: l)
  | _, [_] => []
  | _, [] => []

/-- `(c, l[c-1], l[c])` for c in [1, length): each adjacent pixel-column pair (R195, R213). -/
def adjacent {α : Type} (l : List α) : List (Nat × α × α) := adjacentFrom 1 l

/-! ## Store -/

/-- The physical slot of a logical index: the Euclidean remainder modulo the capacity (R13, R61). -/
def physicalSlot (cap : Nat) (x : Int) : Nat := (x % (cap : Int)).toNat

/-- StoreRead(ch, x) (R120). -/
def storeRead (s : State) (ch : Channel) (x : Int) : Code :=
  (s.store.get ch).read (physicalSlot s.par.cap x)

/-- StoreWrite of both channels' codes of one word at slot `p` (R121, R114). -/
def storeWrite (st : PerChannel Memory) (p : Nat) (c : PerChannel Code) : PerChannel Memory :=
  .tabulate fun ch => (st.get ch).write p (c.get ch)

/-! ## Configuration -/

/-- `AtBoundary`: no frame and no accumulation cycle is in progress (R36). -/
def atBoundary (s : State) : Bool := s.cstate == .idle && s.avgcnt == 0

/-- LATCH() (R247). -/
def latch (s : State) : State := { s with act := latchedCfg s.pend s.vtab s.htab }

/-- LATCH_IF_BOUNDARY() (R247). -/
def latchIfBoundary (s : State) : State := if atBoundary s then latch s else s

/-! ## Scale tables -/

/-- Row `idx` of the vertical table changed by `f`; no other row changes. -/
def modifyVrow (idx : BitVec 7) (f : VRow → VRow) (s : State) : State :=
  { s with vtab := s.vtab.modify idx.toNat f }

/-- Row `idx` of the horizontal table changed by `f`; no other row changes. -/
def modifyHrow (idx : BitVec 7) (f : HRow → HRow) (s : State) : State :=
  { s with htab := s.htab.modify idx.toNat f }

/-- A vertical table command: refused with `CFGERR` and no other effect when the row does not exist or the value is illegal,
else the row is written (R271-R273, R304). -/
def loadVrow (idx : BitVec 7) (illegal : Bool) (f : VRow → VRow) (s : State) : State :=
  if decide (s.nv ≤ idx.toNat) || illegal then setCfgerr s else modifyVrow idx f s

/-- A horizontal table command, refused or written as `loadVrow` says (R274-R276, R304). -/
def loadHrow (idx : BitVec 7) (illegal : Bool) (f : HRow → HRow) (s : State) : State :=
  if decide (s.nh ≤ idx.toNat) || illegal then setCfgerr s else modifyHrow idx f s

/-- The pending registers changed by `f`; a command that writes one changes nothing else (R261). -/
def withPending (f : PendingCfg → PendingCfg) (s : State) : State := { s with pend := f s.pend }

end Sys2Proof.Machine
end

