-- ==== Sys2Proof/Machine/Measurement.lean ====
section
/-! DEFINITION. Measurement Engine (46_measurement.md). Means, voltages and rates are exact rationals (R222). -/

namespace Sys2Proof.Machine

/-! ## Amplitude -/

/-- The minimum code of a frame (R210). -/
def frameMin (f : Frame) : Nat := f.toList.foldl (fun m c => min m c.toNat) 4095

/-- The maximum code of a frame (R210). -/
def frameMax (f : Frame) : Nat := f.toList.foldl (fun m c => max m c.toNat) 0

/-- The voltage of a code difference `d` on channel `ch`: `d · A_MVPP / A_DIV` (R211). -/
def volts (a : ActiveCfg) (ch : Channel) (d : Int) : ℚ :=
  (d : ℚ) * ((a.mvpp.get ch).toNat : ℚ) / ((a.div.get ch).toNat : ℚ)

/-! ## Frequency of one frame -/

/-- FREQ_REFERENCE: the 4th frame sample (R212). -/
def freqReference (f : Frame) : Code := f[REF_POS]

/-- CROSS: half-open, in the direction of the trigger edge (R213). -/
def cross (e : Edge) (ref p q : Code) : Bool :=
  match e with
  | .rising => decide (p < ref) && decide (ref ≤ q)
  | .falling => decide (ref < p) && decide (q ≤ ref)

/-- CROSSINGS: the indices k in [1, FL) at which the frame crosses the reference, ascending (R213). -/
def crossings (e : Edge) (f : Frame) : List Nat :=
  ((adjacent f.toList).filter fun t => cross e (freqReference f) t.2.1 t.2.2).map Prod.fst

/-- The intervals between successive crossings, in frame samples (R214). -/
def intervals (xs : List Nat) : List Nat := (adjacent xs).map fun t => t.2.2 - t.2.1

/-- INTERVAL_BINS: the bin array of capacity TIME_AVG, cleared and then filled from its start (R214). -/
def intervalBins (xs : List Nat) : List Nat :=
  (intervals xs).take TIME_AVG ++ List.replicate (TIME_AVG - (intervals xs).length) 0

/-- The nonzero bins (R215). -/
def nonzeroBins (bins : List Nat) : List Nat := bins.filter (· ≠ 0)

/-- OUTLIER_REJECT: the nonzero bins within [0.5·mean1, 1.5·mean1], bounds included, in the integer form with
mean1 = S / m (R216). -/
def outlierReject (bins : List Nat) : List Nat :=
  let m := (nonzeroBins bins).length
  let S := (nonzeroBins bins).sum
  (nonzeroBins bins).filter fun b => decide (S ≤ 2 * m * b) && decide (2 * m * b ≤ 3 * S)

/-- FIRST_MEAN, or none where there is no interval (R215). -/
def firstMean (bins : List Nat) : Option ℚ :=
  if (nonzeroBins bins).length = 0 then none
  else some (((nonzeroBins bins).sum : ℚ) / ((nonzeroBins bins).length : ℚ))

/-- SECOND_MEAN with its guard: none where no interval survives the rejection (R217). -/
def secondMean (keep : List Nat) : Option ℚ :=
  if keep.length = 0 then none else some ((keep.sum : ℚ) / (keep.length : ℚ))

/-- RATE: the reciprocal of the mean interval in seconds (R218). -/
def rate (a : ActiveCfg) (mean2 : ℚ) : ℚ := 1 / (mean2 * ((a.sppn.toNat : ℚ) / (a.sppd.toNat : ℚ)))

/-- FREQ_ESTIMATE (R219): the composition of R212-R218. -/
def freqEstimate (a : ActiveCfg) (f : Frame) : Option ℚ :=
  let bins := intervalBins (crossings a.edge f)
  match firstMean bins with
  | none => none
  | some _ => (secondMean (outlierReject bins)).map (rate a)

/-! ## The estimate set and the records -/

/-- What FREQ_SET_UPDATE leaves and returns. -/
structure FreqUpdate where
  set : Vector ℚ MEASURE_AVG
  cnt : BitVec 4
  valid : Bool
  freq : ℚ
  deriving DecidableEq, Repr

/-- The mean of the nonzero entries of a completed set, or none where it has none (R221). -/
def setMean (set : Vector ℚ MEASURE_AVG) : Option ℚ :=
  let nz := set.toList.filter (· ≠ 0)
  if nz.length = 0 then none else some (nz.sum / (nz.length : ℚ))

/-- FREQ_SET_UPDATE: the estimate (0 for none) goes into the next entry; a completed set is reported and cleared (R221). -/
def freqSetUpdate (set : Vector ℚ MEASURE_AVG) (cnt : BitVec 4) (est : Option ℚ) : FreqUpdate :=
  let set' := set.setIfInBounds cnt.toNat (est.getD 0)
  if cnt.toNat + 1 = MEASURE_AVG then
    ⟨Vector.replicate MEASURE_AVG 0, 0, (setMean set').isSome, (setMean set').getD 0⟩
  else ⟨set', cnt + 1, false, 0⟩

/-- The MEAS_OUT record of one channel of one frame (R92, R210, R211, R220). -/
def measRecord (a : ActiveCfg) (ch : Channel) (f : Frame) (seq : BitVec 32) (u : FreqUpdate) : MeasRecord where
  seq := seq
  ch := ch
  min := frameMin f
  max := frameMax f
  p2p := frameMax f - frameMin f
  minMv := volts a ch (frameMin f - ZERO_CODE)
  maxMv := volts a ch (frameMax f - ZERO_CODE)
  p2pMv := volts a ch (frameMax f - frameMin f : Nat)
  freqValid := u.valid
  freq := u.freq

/-- MEASURE for one channel: a record and the set advanced when the channel is enabled, else nothing (R220). -/
def measureChannel (ch : Channel) (f : Frame) (seq : BitVec 32) (s : State) : State :=
  if s.act.chen.get ch then
    let u := freqSetUpdate (s.fset.get ch) (s.fcnt.get ch) (freqEstimate s.act f)
    { s with
      fset := s.fset.set ch u.set
      fcnt := s.fcnt.set ch u.cnt
      out := s.out ++ [.meas (measRecord s.act ch f seq u)] }
  else s

/-- MEASURE: channel 0, then channel 1 (R220). -/
def measure (frame : PerChannel Frame) (seq : BitVec 32) (s : State) : State :=
  measureChannel .ch2 frame.ch2 seq (measureChannel .ch1 frame.ch1 seq s)

end Sys2Proof.Machine
end

