-- ==== Sys2Proof/Machine/Viewport.lean ====
section
/-! DEFINITION. Viewport Mapper (45_viewport.md). -/

namespace Sys2Proof.Machine

/-- MAP_Y: an integer, not yet clamped (R190). -/
def mapY (a : ActiveCfg) (ch : Channel) (c : Code) : Int :=
  signed16 (a.mid.get ch) - ((c.toNat / (a.div.get ch).toNat : Nat) : Int)

/-- The class of an endpoint: IN (0), BELOW (1), ABOVE (2) (R191). -/
inductive ClampClass where
  | inRange
  | below
  | above
  deriving DecidableEq, Repr

/-- The number of a class (R191). -/
def ClampClass.code : ClampClass → Nat
  | .inRange => 0
  | .below => 1
  | .above => 2

/-- CLASSIFY; BELOW is tested first (R191). -/
def classify (a : ActiveCfg) (y : Int) : ClampClass :=
  if y < signed16 a.yMin then .below else if y > signed16 a.yMax then .above else .inRange

/-- CLAMP: a signed 16-bit value (R192). -/
def clampY (a : ActiveCfg) (y : Int) : BitVec 16 :=
  match classify a y with
  | .below => a.yMin
  | .above => a.yMax
  | .inRange => BitVec.ofInt 16 y

/-- OUTCOME, 0 to 8 (R193). -/
def outcome (a : ActiveCfg) (p q : Int) : BitVec 4 :=
  BitVec.ofNat 4 (3 * (classify a p).code + (classify a q).code)

/-- The ERASE record of a column: the coordinates that were emitted, outcome 15 (R91, R194). -/
def eraseRecord (ch : Channel) (c : Nat) (y0 y1 : BitVec 16) : SegRecord := ⟨.erase, ch, c, y0, y1, 15⟩

/-- The ERASE records of one channel (R194). -/
def eraseTrace (s : State) (ch : Channel) : List SegRecord :=
  if s.ryValid.get ch then (adjacent (s.ry.get ch).toList).map fun t => eraseRecord ch t.1 t.2.1 t.2.2 else []

/-- ERASE_PHASE: channel 0 first, columns ascending (R194, R195). -/
def erasePhase (s : State) : State :=
  { s with out := s.out ++ (eraseTrace s .ch1 ++ eraseTrace s .ch2).map .seg }

/-- The DRAW record of a column (R91, R193, R196). -/
def drawRecord (a : ActiveCfg) (ch : Channel) (c : Nat) (p q : Int) : SegRecord :=
  ⟨.draw, ch, c, clampY a p, clampY a q, outcome a p q⟩

/-- The unclamped coordinates of one channel's columns (R190, R196). -/
def traceY (a : ActiveCfg) (ch : Channel) (f : Frame) : Vector Int FL := mapCols (mapY a ch) f

/-- The DRAW records of one channel, columns ascending (R196). -/
def drawTrace (a : ActiveCfg) (ch : Channel) (f : Frame) : List SegRecord :=
  (adjacent (traceY a ch f).toList).map fun t => drawRecord a ch t.1 t.2.1 t.2.2

/-- DRAW_PHASE for one channel: drawn and persisted when enabled, else its trace is no longer on the display (R196). -/
def drawChannel (ch : Channel) (f : Frame) (s : State) : State :=
  if s.act.chen.get ch then
    { s with
      out := s.out ++ (drawTrace s.act ch f).map .seg
      ry := s.ry.set ch (mapCols (clampY s.act) (traceY s.act ch f))
      ryValid := s.ryValid.set ch true }
  else { s with ryValid := s.ryValid.set ch false }

/-- VIEWPORT_MAP: every erase of both channels, then every draw, channel 0 first (R195). -/
def viewportMap (frame : PerChannel Frame) (s : State) : State :=
  drawChannel .ch2 frame.ch2 (drawChannel .ch1 frame.ch1 (erasePhase s))

end Sys2Proof.Machine
end

