-- ==== Sys2Proof/Machine/Capture.lean ====
section
/-! DEFINITION. Capture Engine: publication, Normal mode (43_capture_normal.md) and Average mode (44_capture_average.md). -/

namespace Sys2Proof.Machine

/-! ## Publication -/

/-- The FRAME_OUT record of a frame published now (R90). -/
def frameRecord (s : State) (frame : PerChannel Frame) : FrameRecord where
  seq := s.frameseq
  mode := s.act.mode
  chen := s.act.chen
  forced := s.forced
  trig := s.trigIdx
  data := frame

/-- The frame record appended to FRAME_OUT (R157). -/
def emitFrame (frame : PerChannel Frame) (s : State) : State :=
  { s with out := s.out ++ [.frame (frameRecord s frame)] }

/-- The last-frame state and the sequence number of a delivered frame (R38, R39, R157). -/
def recordFrame (frame : PerChannel Frame) (s : State) : State :=
  { s with lfValid := true, lfData := frame, lfChen := s.act.chen, frameseq := s.frameseq + 1 }

/-- The part of PUBLISH that runs while `RUN = 1`: FRAME_OUT, then SEG_OUT, then MEAS_OUT (R157). -/
def deliverFrame (frame : PerChannel Frame) (s : State) : State :=
  recordFrame frame (measure frame s.frameseq (viewportMap frame (emitFrame frame s)))

/-- `s` in the capture state `c`. -/
def withCState (c : CState) (s : State) : State := { s with cstate := c }

/-- PUBLISH (R157): with `RUN = 0` the frame is discarded; then Idle, re-armed, and the latch. -/
def publish (frame : PerChannel Frame) (s : State) : State :=
  latchIfBoundary (withCState .idle
    (if s.run then deliverFrame frame (withCState .publishing s) else withCState .publishing s))

/-! ## Normal mode -/

/-- BACKFILL_INDEX(T, k), the formula as the source writes it, both modes (R152, R172). -/
def backfillIndex (a : ActiveCfg) (T k : Nat) : Int :=
  (T : Int) - (a.pos.toNat : Int) + (k : Int) * ((a.skip.toNat : Int) + 1)

/-- FRAME_COMPLETE_NORMAL (R154). -/
def frameCompleteNormal (s : State) : State := publish s.framebuf s

/-- The frame buffer of one channel after the backfill and the trigger sample (R151, R152). -/
def backfilled (s : State) (T : Nat) (ch : Channel) : Frame :=
  Vector.ofFn fun k : Fin FL =>
    if k.val < s.act.pos.toNat then storeRead s ch (backfillIndex s.act T k.val)
    else if k.val = s.act.pos.toNat then storeRead s ch T
    else (s.framebuf.get ch)[k]

/-- The state after the writes of START_CAPTURE_NORMAL, before its test for a complete frame (R151). BackfillPending is
entered and left within it (R150). -/
def normalStarted (T : Nat) (forced : Bool) (s : State) : State :=
  { s with
    cstate := .filling
    trigIdx := T
    forced := forced
    framebuf := .tabulate (backfilled s T)
    pix := s.act.pos + 1
    skipcnt := s.act.skip }

/-- A Normal-mode capture whose pixel was just taken: complete at FL pixels, else as it is (R151, R153). -/
def completeIfFull (s : State) : State := if s.pix.toNat = FL then frameCompleteNormal s else s

/-- START_CAPTURE_NORMAL (R151). -/
def startCaptureNormal (T : Nat) (forced : Bool) (s : State) : State := completeIfFull (normalStarted T forced s)

/-- A code skipped between two forward pixels, both modes (R153, R173). -/
def codeSkipped (s : State) : State := { s with skipcnt := s.skipcnt - 1 }

/-- The forward pixel at store index `i` taken into the frame buffer (R153). -/
def pixelFilled (i : Nat) (s : State) : State :=
  { s with
    framebuf := .tabulate fun ch => (s.framebuf.get ch).setIfInBounds s.pix.toNat (storeRead s ch i)
    pix := s.pix + 1
    skipcnt := s.act.skip }

/-- FILL_STEP (R153). -/
def fillStep (i : Nat) (s : State) : State :=
  if s.skipcnt ≠ 0 then codeSkipped s else completeIfFull (pixelFilled i s)

/-! ## Average mode -/

/-- BACKFILL_ACCUMULATE of the code `b` onto the entry `a` (R174). -/
def backfillAccumulate (halve : Bool) (a : BitVec 32) (b : Code) : BitVec 32 :=
  if halve then BitVec.ofNat 32 ((a.toNat + b.toNat) / 2) else BitVec.ofNat 32 (a.toNat + b.toNat)

/-- A forward pixel added onto an entry (R171, R173). -/
def accumulate (a : BitVec 32) (b : Code) : BitVec 32 := BitVec.ofNat 32 (a.toNat + b.toNat)

/-- An accumulator entry divided by NumAvg: floor (R176). -/
def averageEntry (n : BitVec 16) (a : BitVec 32) : Code := BitVec.ofNat 12 (a.toNat / n.toNat)

/-- The averaged frame (R176). -/
def averagedFrame (s : State) : PerChannel Frame :=
  .tabulate fun ch => mapCols (averageEntry s.act.numavg) (s.acc.get ch)

/-- An accumulation cycle closed: Averaging, the accumulators and the count zeroed (R176). -/
def cycleClosed (s : State) : State :=
  { s with
    cstate := .averaging
    acc := ⟨Vector.replicate FL 0, Vector.replicate FL 0⟩
    avgcnt := 0 }

/-- AVERAGE (R176). -/
def average (s : State) : State := publish (averagedFrame s) (cycleClosed s)

/-- One more trigger occurrence completed (R175). -/
def occurrenceCounted (s : State) : State := { s with avgcnt := s.avgcnt + 1 }

/-- OCCURRENCE_COMPLETE (R175). -/
def occurrenceComplete (s : State) : State :=
  if s.avgcnt + 1 < s.act.numavg then withCState .idle (occurrenceCounted s) else average (occurrenceCounted s)

/-- The accumulators an occurrence starts from: zeroed at the first of a cycle (R171). -/
def occurrenceBase (s : State) : PerChannel (Vector (BitVec 32) FL) :=
  if s.avgcnt = 0 then ⟨Vector.replicate FL 0, Vector.replicate FL 0⟩ else s.acc

/-- The accumulators of one channel after the backfill and the trigger sample of an occurrence (R171, R174). -/
def backfillAccumulated (s : State) (T : Nat) (ch : Channel) : Vector (BitVec 32) FL :=
  Vector.ofFn fun k : Fin FL =>
    if k.val < s.act.pos.toNat then
      backfillAccumulate s.act.halve ((occurrenceBase s).get ch)[k] (storeRead s ch (backfillIndex s.act T k.val))
    else if k.val = s.act.pos.toNat then accumulate ((occurrenceBase s).get ch)[k] (storeRead s ch T)
    else ((occurrenceBase s).get ch)[k]

/-- The state after the writes of START_CAPTURE_AVERAGE, before its test for a complete occurrence (R171).
AccumulatingBackfill is entered and left within it (R170). -/
def occurrenceStarted (T : Nat) (forced : Bool) (s : State) : State :=
  { s with
    cstate := .accumulating
    trigIdx := T
    forced := (if s.avgcnt = 0 then false else s.forced) || forced
    acc := .tabulate (backfillAccumulated s T)
    pix := s.act.pos + 1
    skipcnt := s.act.skip }

/-- An occurrence whose pixel was just added: complete at FL pixels, else as it is (R171, R173). -/
def occurrenceIfFull (s : State) : State := if s.pix.toNat = FL then occurrenceComplete s else s

/-- START_CAPTURE_AVERAGE (R171). -/
def startCaptureAverage (T : Nat) (forced : Bool) (s : State) : State := occurrenceIfFull (occurrenceStarted T forced s)

/-- One forward pixel added at column `k` of one channel (R173). -/
def accumulateAt (v : Vector (BitVec 32) FL) (k : Nat) (b : Code) : Vector (BitVec 32) FL :=
  v.setIfInBounds k (accumulate (v[k]?.getD 0) b)

/-- The forward pixel at store index `i` added into the accumulators (R173). -/
def pixelAccumulated (i : Nat) (s : State) : State :=
  { s with
    acc := .tabulate fun ch => accumulateAt (s.acc.get ch) s.pix.toNat (storeRead s ch i)
    pix := s.pix + 1
    skipcnt := s.act.skip }

/-- ACCUMULATE_STEP (R173). -/
def accumulateStep (i : Nat) (s : State) : State :=
  if s.skipcnt ≠ 0 then codeSkipped s else occurrenceIfFull (pixelAccumulated i s)

/-! ## Start of capture in the active mode -/

/-- StartCapture(T, forced): R151 in Normal mode, R171 in Average mode (R132). -/
def startCapture (T : Nat) (forced : Bool) (s : State) : State :=
  match s.act.mode with
  | .normal => startCaptureNormal T forced s
  | .average => startCaptureAverage T forced s

end Sys2Proof.Machine
end

