-- ==== Sys2Proof/Machine/SampleDecoder.lean ====
section
/-! DEFINITION. Sample Decoder and APPEND (40_decoder.md, 41_store.md). -/

namespace Sys2Proof.Machine

/-- The channel field of a raw word: `w[11:0]` for channel A, `w[23:12]` for channel B (R80, R81). -/
def channelField (w : RawWord) : Channel → BitVec 12
  | .ch1 => w.extractLsb' 0 12
  | .ch2 => w.extractLsb' 12 12

/-- DECODE_FIELD, by the source's sign and magnitude algorithm; the one's complement is over the 11 magnitude bits (R110). -/
def decodeField (f : BitVec 12) : Code :=
  let mag := f.extractLsb' 0 11
  if f.getLsbD 11 then BitVec.ofNat 12 ((2048 - (1 + (~~~mag).toNat)) % 4096)
  else BitVec.ofNat 12 ((2048 + mag.toNat) % 4096)

/-- DECODE_WORD (R113). -/
def decodeWord (w : RawWord) : PerChannel Code := .tabulate fun ch => decodeField (channelField w ch)

/-- The codes of a block written from slot `p` up, word by word, both channels (R114). -/
def storeBlock : Nat → List RawWord → PerChannel Memory → PerChannel Memory
  | _, [], st => st
  | p, w :: ws, st => storeBlock (p + 1) ws (storeWrite st p (decodeWord w))

/-- DECODE_BLOCK and APPEND: the block's codes at slots `WP + j`, then the pointer advances by N and wraps at the capacity
(R114, R122, R123). -/
def decodeBlock (words : List RawWord) (s : State) : State :=
  { s with store := storeBlock s.wp words s.store, wp := (s.wp + s.par.n) % s.par.cap }

end Sys2Proof.Machine
end

