-- ==== Sys2Proof/Machine/Consumer.lean ====
section
/-! DEFINITION. Trigger Detector (42_trigger.md) and the consumer loop (47_consumer_loop.md section 1). `FIRED` is local to a
pass: the code steps of a pass carry it beside the state. -/

namespace Sys2Proof.Machine

/-! ## Trigger Detector -/

/-- TRIGGER_COMPARE; both comparisons inclusive (R130). -/
def triggerCompare (prev curr level : Code) (edge : Edge) : Bool :=
  match edge with
  | .rising => decide (prev ≤ level) && decide (level ≤ curr)
  | .falling => decide (level ≤ prev) && decide (curr ≤ level)

/-- `s` with the miss counter at `m`. -/
def withMiss (m : BitVec 16) (s : State) : State := { s with miss := m }

/-- FIRE(i); the caller sets `FIRED` (R132). -/
def fire (i : Nat) (s : State) : State := startCapture i false (withMiss 0 s)

/-- The comparison the armed detector makes at store index `i` (R131). -/
def triggered (i : Nat) (s : State) : Bool :=
  triggerCompare (storeRead s s.act.src ((i : Int) - 1)) (storeRead s s.act.src i) s.act.level s.act.edge

/-- TRIGGER_STEP at store index `i` of an armed detector: the state and whether a real trigger fired (R131). -/
def triggerStep (i : Nat) (s : State) : State × Bool :=
  if triggered i s then (fire i s, true) else (s, false)

/-- MISS_ACCOUNT (R133). -/
def missAccount (fired : Bool) (s : State) : State :=
  if !fired && s.cstate == .idle then withMiss (BitVec.ofNat 16 (min (s.miss.toNat + 1) s.act.frCap.toNat)) s else s

/-- FORCE_FIRE at store index `last`; `MISS` is not reset (R134). -/
def forceFire (fired : Bool) (last : Nat) (s : State) : State :=
  if !fired && s.cstate == .idle && s.act.frEn && decide (s.act.frThresh ≤ s.miss) then startCapture last true s else s

/-! ## One code, one pass, one iteration -/

/-- CODE_STEP(i): one of the three actions, chosen by the capture state; the flag is `FIRED` (R242). In a transient state,
which is never held here (R48), nothing happens (log entry 8). -/
def codeStep (i : Nat) (p : State × Bool) : State × Bool :=
  match p.1.cstate with
  | .idle => ((triggerStep i p.1).1, p.2 || (triggerStep i p.1).2)
  | .filling => (fillStep i p.1, p.2)
  | .accumulating => (accumulateStep i p.1, p.2)
  | .backfillPending => p
  | .publishing => p
  | .accumulatingBackfill => p
  | .averaging => p

/-- The code steps of `n` codes from store index `b`, in ascending index (R241). -/
def codeSteps (b : Nat) : Nat → State × Bool → State × Bool
  | 0, p => p
  | n + 1, p => codeSteps (b + 1) n (codeStep b p)

/-- The state in which a pass scans its block: latched at a boundary, the whole block stored (R241). -/
def passLoaded (words : List RawWord) (s : State) : State := decodeBlock words (latchIfBoundary s)

/-- The state and `FIRED` after the code steps of a pass (R241). -/
def passScanned (words : List RawWord) (s : State) : State × Bool :=
  codeSteps s.wp s.par.n (passLoaded words s, false)

/-- PROCESS_PASS (R241). -/
def processPass (words : List RawWord) (s : State) : State :=
  let p := passScanned words s
  forceFire p.2 (s.wp + s.par.n - 1) (missAccount p.2 p.1)

/-- The mailbox slot `k` consumed: its flag cleared, its data kept (R240). -/
def consumed (k : Slot) (s : State) : State :=
  { s with mbox := s.mbox.set k { s.mbox.get k with flag := false } }

/-- One slot of a POLL (R240). -/
def pollSlot (k : Slot) (s : State) : State :=
  if (s.mbox.get k).flag then consumed k (processPass (s.mbox.get k).data s) else s

/-- POLL: slot 0 (ping) first, then slot 1 (pong) (R240). -/
def poll (s : State) : State := pollSlot .pong (pollSlot .ping s)

end Sys2Proof.Machine
end

