-- ==== Sys2Proof/Machine/CaptureCommands.lean ====
section
/-! DEFINITION. Groups 5, 6 and 7 of the commands: the visible band, averaging and free-run (R277-R283). -/

namespace Sys2Proof.Machine

/-- SET_YMIN; a band with yMin > yMax is not refused (R277). -/
def execSetYmin (data : BitVec 16) (s : State) : Host.Outcome State Fault Refusal :=
  .next (withPending (fun p => { p with yMin := data }) s)

/-- SET_YMAX (R278). -/
def execSetYmax (data : BitVec 16) (s : State) : Host.Outcome State Fault Refusal :=
  .next (withPending (fun p => { p with yMax := data }) s)

/-- SET_NUMAVG: 0 is refused with `CFGERR` (R279). -/
def execSetNumavg (data : BitVec 16) (s : State) : Host.Outcome State Fault Refusal :=
  .next (if data = 0 then setCfgerr s else withPending (fun p => { p with numavg := data }) s)

/-- SET_HALVE (R280). -/
def execSetHalve (halve : Bool) (s : State) : Host.Outcome State Fault Refusal :=
  .next (withPending (fun p => { p with halve := halve }) s)

/-- SET_FR_THRESH (R281). -/
def execSetFrThresh (data : BitVec 16) (s : State) : Host.Outcome State Fault Refusal :=
  .next (withPending (fun p => { p with frThresh := data }) s)

/-- SET_FR_CAP (R282). -/
def execSetFrCap (data : BitVec 16) (s : State) : Host.Outcome State Fault Refusal :=
  .next (withPending (fun p => { p with frCap := data }) s)

/-- SET_FR_EN (R283). -/
def execSetFrEn (en : Bool) (s : State) : Host.Outcome State Fault Refusal :=
  .next (withPending (fun p => { p with frEn := en }) s)

end Sys2Proof.Machine
end

