-- ==== Sys2Proof/Machine/ControlCommands.lean ====
section
/-! DEFINITION. Group 0 of the commands: NOP, CALIBRATE, SET_RUN, SET_MODE, CLEAR_STATUS (R262-R266). -/

namespace Sys2Proof.Machine

/-- NOP: no effect (R262). -/
def execNop (s : State) : Host.Outcome State Fault Refusal := .next s

/-- The mean code of a frame, floor (R263). -/
def frameMean (f : Frame) : Nat := (f.toList.map BitVec.toNat).sum / FL

/-- The centre of the active visible band, floor (R263). -/
def bandCentre (a : ActiveCfg) : Int := (signed16 a.yMin + signed16 a.yMax) / 2

/-- The midlevel that puts the mean code of the last published frame of `ch` at the band's centre, saturated (R263). -/
def calibratedMid (s : State) (ch : Channel) : BitVec 16 :=
  sat16 (bandCentre s.act + ((frameMean (s.lfData.get ch) / (s.act.div.get ch).toNat : Nat) : Int))

/-- CALIBRATE for one channel enabled in the last published frame: the row of its active vertical scale (R263). -/
def calibrateChannel (ch : Channel) (s : State) : State :=
  if s.lfChen.get ch then
    modifyVrow (s.act.vscale.get ch) (fun r => { r with mid := r.mid.set ch (calibratedMid s ch) }) s
  else s

/-- CALIBRATE: nothing before a frame has been published (R263). -/
def execCalibrate (s : State) : Host.Outcome State Fault Refusal :=
  .next (if s.lfValid then calibrateChannel .ch2 (calibrateChannel .ch1 s) else s)

/-- SET_RUN: effective at once (R264). -/
def execSetRun (run : Bool) (s : State) : Host.Outcome State Fault Refusal := .next { s with run := run }

/-- SET_MODE (R265). -/
def execSetMode (mode : Mode) (s : State) : Host.Outcome State Fault Refusal :=
  .next (withPending (fun p => { p with mode := mode }) s)

/-- CLEAR_STATUS: write-one-to-clear (R266). -/
def execClearStatus (mask : BitVec 3) (s : State) : Host.Outcome State Fault Refusal := .next (clearSticky mask s)

end Sys2Proof.Machine
end

