-- ==== Sys2Proof/Machine/SelectionCommands.lean ====
section
/-! DEFINITION. Groups 1 and 2 of the commands: SET_VSCALE, SET_HSCALE, SET_CHEN, SET_TRIGGER (R267-R270). Each writes pending
registers only. -/

namespace Sys2Proof.Machine

/-- SET_VSCALE: an index beyond the table is clamped to its last row, no flag (R267). -/
def execSetVscale (ch : Channel) (idx : BitVec 7) (s : State) : Host.Outcome State Fault Refusal :=
  .next (withPending (fun p => { p with vscale := p.vscale.set ch (clampIndex idx s.nv) }) s)

/-- SET_HSCALE: clamped as SET_VSCALE (R268). -/
def execSetHscale (idx : BitVec 7) (s : State) : Host.Outcome State Fault Refusal :=
  .next (withPending (fun p => { p with hscale := clampIndex idx s.nh }) s)

/-- SET_CHEN (R269). -/
def execSetChen (ch : Channel) (en : Bool) (s : State) : Host.Outcome State Fault Refusal :=
  .next (withPending (fun p => { p with chen := p.chen.set ch en }) s)

/-- SET_TRIGGER: the whole TriggerConfig in one step; a position of 319..511 is clamped to 318, no flag (R270). -/
def execSetTrigger (level : Code) (pos : BitVec 9) (edge : Edge) (src : Channel) (s : State) :
    Host.Outcome State Fault Refusal :=
  .next (withPending (fun p => { p with level := level, pos := clampPos pos, edge := edge, src := src }) s)

end Sys2Proof.Machine
end

