-- ==== Sys2Proof/Machine/TableCommands.lean ====
section
/-! DEFINITION. Groups 3 and 4 of the commands: the scale tables (R271-R276). A row that does not exist, or a zero divider,
numerator or denominator, is refused: `CFGERR` is set and nothing else changes (R304). -/

namespace Sys2Proof.Machine

/-- LOAD_VDIV (R271). -/
def execLoadVdiv (idx : BitVec 7) (data : BitVec 16) (s : State) : Host.Outcome State Fault Refusal :=
  .next (loadVrow idx (data == 0) (fun r => { r with div := data }) s)

/-- LOAD_VMVPP; 0 is legal (R272). -/
def execLoadVmvpp (idx : BitVec 7) (data : BitVec 16) (s : State) : Host.Outcome State Fault Refusal :=
  .next (loadVrow idx false (fun r => { r with mvpp := data }) s)

/-- LOAD_VMID; `data` is signed (R273). -/
def execLoadVmid (ch : Channel) (idx : BitVec 7) (data : BitVec 16) (s : State) : Host.Outcome State Fault Refusal :=
  .next (loadVrow idx false (fun r => { r with mid := r.mid.set ch data }) s)

/-- LOAD_HSKIP; 0 is legal (R274). -/
def execLoadHskip (idx : BitVec 7) (data : BitVec 16) (s : State) : Host.Outcome State Fault Refusal :=
  .next (loadHrow idx false (fun r => { r with skip := data }) s)

/-- LOAD_HSPPN (R275). -/
def execLoadHsppn (idx : BitVec 7) (data : BitVec 16) (s : State) : Host.Outcome State Fault Refusal :=
  .next (loadHrow idx (data == 0) (fun r => { r with sppn := data }) s)

/-- LOAD_HSPPD (R276). -/
def execLoadHsppd (idx : BitVec 7) (data : BitVec 16) (s : State) : Host.Outcome State Fault Refusal :=
  .next (loadHrow idx (data == 0) (fun r => { r with sppd := data }) s)

end Sys2Proof.Machine
end

