-- ==== Sys2Proof/Machine/Dispatch.lean ====
section
/-! DEFINITION. The meaning of each command, one arm per constructor of Instr (R260). -/

namespace Sys2Proof.Machine

def exec (i : Instr) (s : State) : Host.Outcome State Fault Refusal :=
  match i with
  | .nop => Sys2Proof.Machine.execNop s
  | .calibrate => Sys2Proof.Machine.execCalibrate s
  | .setRun run => Sys2Proof.Machine.execSetRun run s
  | .setMode mode => Sys2Proof.Machine.execSetMode mode s
  | .clearStatus mask => Sys2Proof.Machine.execClearStatus mask s
  | .setVscale ch idx => Sys2Proof.Machine.execSetVscale ch idx s
  | .setHscale idx => Sys2Proof.Machine.execSetHscale idx s
  | .setChen ch en => Sys2Proof.Machine.execSetChen ch en s
  | .setTrigger level pos edge src => Sys2Proof.Machine.execSetTrigger level pos edge src s
  | .loadVdiv idx data => Sys2Proof.Machine.execLoadVdiv idx data s
  | .loadVmvpp idx data => Sys2Proof.Machine.execLoadVmvpp idx data s
  | .loadVmid ch idx data => Sys2Proof.Machine.execLoadVmid ch idx data s
  | .loadHskip idx data => Sys2Proof.Machine.execLoadHskip idx data s
  | .loadHsppn idx data => Sys2Proof.Machine.execLoadHsppn idx data s
  | .loadHsppd idx data => Sys2Proof.Machine.execLoadHsppd idx data s
  | .setYmin data => Sys2Proof.Machine.execSetYmin data s
  | .setYmax data => Sys2Proof.Machine.execSetYmax data s
  | .setNumavg data => Sys2Proof.Machine.execSetNumavg data s
  | .setHalve halve => Sys2Proof.Machine.execSetHalve halve s
  | .setFrThresh data => Sys2Proof.Machine.execSetFrThresh data s
  | .setFrCap data => Sys2Proof.Machine.execSetFrCap data s
  | .setFrEn en => Sys2Proof.Machine.execSetFrEn en s

end Sys2Proof.Machine
end

