-- ==== Sys2Proof/Machine/ReadPort.lean ====
section
/-! DEFINITION. The read port: the register map of R46 and READ (R45). -/

namespace Sys2Proof.Machine

/-- A field placed with its bit 0 at bit `lo` of a 32-bit value; a wider field keeps its low bits. -/
def fieldAt (lo : Nat) {w : Nat} (v : BitVec w) : BitVec 32 := v.setWidth 32 <<< lo

/-- A flag placed at bit `lo`. -/
def bitAt (lo : Nat) (b : Bool) : BitVec 32 := fieldAt lo (BitVec.ofBool b)

/-- STATUS, address 0x00 (R46). -/
def readStatus (s : State) : BitVec 32 :=
  fieldAt 0 s.cstate.code ||| fieldAt 3 (modeBit s.act.mode) ||| bitAt 4 s.run ||| bitAt 5 s.lfValid ||| bitAt 6 s.forced
    ||| bitAt 8 s.ovr ||| bitAt 9 s.cfgerr ||| bitAt 10 s.cmderr
    ||| bitAt 16 (s.mbox.get .ping).flag ||| bitAt 17 (s.mbox.get .pong).flag

/-- The layout of A_TRIG and P_TRIG (R46). -/
def trigFields (level : Code) (pos : BitVec 9) (src : Channel) (edge : Edge) : BitVec 32 :=
  fieldAt 0 level ||| fieldAt 16 pos ||| fieldAt 26 (channelBit src) ||| fieldAt 27 (edgeBit edge)

/-- The layout of A_SEL and P_SEL (R46). -/
def selFields (vscale : PerChannel (BitVec 7)) (hscale : BitVec 7) (chen : PerChannel Bool) (mode : Mode) : BitVec 32 :=
  fieldAt 0 (vscale.get .ch1) ||| fieldAt 8 (vscale.get .ch2) ||| fieldAt 16 hscale
    ||| bitAt 24 (chen.get .ch1) ||| bitAt 25 (chen.get .ch2) ||| fieldAt 28 (modeBit mode)

/-- Two 16-bit fields, `[15:0]` and `[31:16]`. -/
def halves (lo hi : BitVec 16) : BitVec 32 := fieldAt 0 lo ||| fieldAt 16 hi

/-- READ(addr): the 32-bit value at an address of the map; an address the map does not list reads 0 (R45, R46). `WP` and
`TRIG_IDX` show their low 32 bits (log entry 7). -/
def readPort (s : State) (addr : BitVec 8) : BitVec 32 :=
  match addr.toNat with
  | 0x00 => readStatus s
  | 0x01 => BitVec.ofNat 32 s.wp
  | 0x02 => BitVec.ofNat 32 s.trigIdx
  | 0x03 => fieldAt 0 s.pix ||| fieldAt 16 s.skipcnt
  | 0x04 => halves s.miss s.avgcnt
  | 0x05 => s.frameseq
  | 0x06 => trigFields s.act.level s.act.pos s.act.src s.act.edge
  | 0x07 => trigFields s.pend.level s.pend.pos s.pend.src s.pend.edge
  | 0x08 => selFields s.act.vscale s.act.hscale s.act.chen s.act.mode
  | 0x09 => selFields s.pend.vscale s.pend.hscale s.pend.chen s.pend.mode
  | 0x0A => fieldAt 0 s.act.numavg ||| bitAt 16 s.act.halve
  | 0x0B => fieldAt 0 s.pend.numavg ||| bitAt 16 s.pend.halve
  | 0x0C => halves s.act.frThresh s.act.frCap
  | 0x0D => halves s.pend.frThresh s.pend.frCap
  | 0x0E => bitAt 0 s.act.frEn ||| bitAt 1 s.pend.frEn
  | 0x0F => halves s.act.yMin s.act.yMax
  | 0x10 => halves s.pend.yMin s.pend.yMax
  | 0x11 => halves (s.act.div.get .ch1) (s.act.mvpp.get .ch1)
  | 0x12 => halves (s.act.div.get .ch2) (s.act.mvpp.get .ch2)
  | 0x13 => halves (s.act.mid.get .ch1) (s.act.mid.get .ch2)
  | 0x14 => fieldAt 0 s.act.skip
  | 0x15 => halves s.act.sppn s.act.sppd
  | 0x16 => fieldAt 0 (s.fcnt.get .ch1) ||| fieldAt 8 (s.fcnt.get .ch2)
  | _ => 0

/-- The READ step: no side effect on any state the spec names; the answer goes to the model's log of answers (R45). -/
def readStep (addr : BitVec 8) (s : State) : State := { s with readOut := s.readOut ++ [(addr, readPort s addr)] }

end Sys2Proof.Machine
end

