-- ==== Sys2Proof/Machine/Ports.lean ====
section
/-! DEFINITION. The steps of the four agents (R67, R313): the producer's DELIVER (R245), the host's COMMAND (R260), the
consumer's POLL (R240), the host's READ (R45); and what a step takes next from the scheduler's list. -/

namespace Sys2Proof.Machine

/-! ## Producer -/

/-- The `n` words an overrun draws: free values, nothing constrains them (R14, R245, R303). -/
def drawnWords (draws n : Nat) : List RawWord := (List.range n).map fun j => Config.freeWord (draws + j)

/-- The slot `k` filled and its completion flag raised, in one step (R64, R245). -/
def fillSlot (k : Slot) (words : List RawWord) (s : State) : State :=
  { s with mbox := s.mbox.set k ⟨words, true⟩ }

/-- DELIVER into a slot whose flag is still set: `OVR`, and the slot's data become a draw (R245, R303). -/
def overrun (k : Slot) (s : State) : State :=
  setOvr { fillSlot k (drawnWords s.draws s.par.n) s with draws := s.draws + s.par.n }

/-- DELIVER(s, words) of a block (R245). -/
def deliver (k : Slot) (words : List RawWord) (s : State) : State :=
  if (s.mbox.get k).flag then overrun k s else fillSlot k words s

/-- The delivery step; a list that is no block of N words is no step of the sample port. -/
def deliverStep (k : Slot) (words : List RawWord) (s : State) : Host.Outcome State Fault Refusal :=
  if words.length = s.par.n then .next (deliver k words s) else .refused (.blockLength words.length)

/-! ## Host commands -/

/-- COMMAND(w): the command of the word, or RESERVED (R260). -/
def command (w : CmdWord) (s : State) : Host.Outcome State Fault Refusal :=
  match decode w with
  | .ok i => exec i s
  | .error _ => .next (reservedWord s)

/-! ## One step -/

/-- The step an agent takes (R67). -/
def runEvent (e : Event) (s : State) : Host.Outcome State Fault Refusal :=
  match e with
  | .deliver k words => deliverStep k words s
  | .command w => command w s
  | .poll => .next (poll s)
  | .read addr => .next (readStep addr s)

/-- The next step of the machine: the scheduler's next event, or, when it has none, an iteration of the consumer loop, which
is enabled at every point (R67, R240; log entry 2). -/
def nextStep (s : State) : Host.Outcome State Fault Refusal :=
  match s.inputs with
  | [] => .next (poll s)
  | e :: rest => runEvent e { s with inputs := rest }

/-- `s` with a command word next at the command port. -/
def withCommand (w : CmdWord) (s : State) : State := { s with inputs := .command w :: s.inputs }

end Sys2Proof.Machine
end

