-- ==== Sys2Proof/Machine/Step.lean ====
section
/-! DEFINITION. The step of OSC-CORE, and where the host's question puts a command word: next at the command port. OSC-CORE has
no program counter and fetches nothing (R21); a word comes to run because the host sends it (log entry 6). -/

namespace Sys2Proof.Machine

/-- One step: next, fault or refusal. -/
def step (s : State) : Host.Outcome State Fault Refusal := nextStep s

/-- `s` with the opcode-table word `w` next at the command port. -/
def State.withFetchWord (s : State) (nbits w : Nat) : State := withCommand (tableWord nbits w) s

end Sys2Proof.Machine
end

