-- ==== Sys2Proof/Machine/Assembler.lean ====
section
/-! DEFINITION. The rest of the textual syntax (R93, R94): the pseudo-commands and their expansions, the lines that describe
the other ports in a test program, and the agents' steps a program's lines stand for. -/

namespace Sys2Proof.Machine

/-- The pseudo-commands (R94). A STEP operand `up` is d = +1, else d = −1. -/
inductive Pseudo where
  | setViewport (ymin ymax : Int)
  | loadVrow (idx div mvpp mid1 mid2 : Int)
  | loadHrow (idx skip sppn sppd : Int)
  | setFreerun (thresh cap en : Int)
  | setAverage (n halve : Int)
  | stop
  | start
  | stepVscale (ch : Channel) (up : Bool)
  | stepHscale (up : Bool)
  deriving DecidableEq, Repr

/-- `clamp(cur + d, 0, rows − 1)` of the STEP forms (R94). -/
def steppedIndex (cur : BitVec 7) (up : Bool) (rows : Nat) : Int :=
  clampInt ((cur.toNat : Int) + (if up then 1 else -1)) 0 ((rows : Int) - 1)

/-- The expansion of a pseudo-command into command lines, in order; the STEP forms read the pending index that P_SEL
shows (R94). -/
def Pseudo.expand (s : State) : Pseudo → List Line
  | .setViewport ymin ymax => [.setYmin ymin, .setYmax ymax]
  | .loadVrow idx div mvpp mid1 mid2 =>
    [.loadVdiv idx div, .loadVmvpp idx mvpp, .loadVmid .ch1 idx mid1, .loadVmid .ch2 idx mid2]
  | .loadHrow idx skip sppn sppd => [.loadHskip idx skip, .loadHsppn idx sppn, .loadHsppd idx sppd]
  | .setFreerun thresh cap en => [.setFrThresh thresh, .setFrCap cap, .setFrEn en]
  | .setAverage n halve => [.setNumavg n, .setHalve halve, .setMode .average]
  | .stop => [.setRun 0]
  | .start => [.setRun 1]
  | .stepVscale ch up => [.setVscale ch (steppedIndex (s.pend.vscale.get ch) up s.nv)]
  | .stepHscale up => [.setHscale (steppedIndex s.pend.hscale up s.nh)]

/-- A line of a test program (R93): a command, a pseudo-command, or one of the three lines of the other ports. -/
inductive ProgLine where
  | command (l : Line)
  | pseudo (p : Pseudo)
  | deliver (k : Slot) (words : List RawWord)
  | poll
  | read (addr : BitVec 8)
  deriving DecidableEq, Repr

/-- The steps a line stands for when it is issued in state `s`, or none where the assembler refuses it (R93, R94). -/
def ProgLine.events (s : State) : ProgLine → Option (List Event)
  | .command l => (assemble l).map fun w => [.command w]
  | .pseudo p => ((p.expand s).mapM assemble).map fun ws => ws.map .command
  | .deliver k words => some [.deliver k words]
  | .poll => some [.poll]
  | .read addr => some [.read addr]

end Sys2Proof.Machine
end

