-- ==== Sys2Proof/Safety.lean ====
section
/-! DEFINITION. What counts as a legal state (R9, R48) and a legal schedule (R248), the parts of the state each agent may
write (R47, R250, R286), and the frames the capture rules promise (R155): the words the statements are written in. -/

namespace Sys2Proof.Machine

/-! ## The invariant -/

/-- The pending registers are in the ranges of R25. -/
structure PendingLegal (nv nh : Nat) (p : PendingCfg) : Prop where
  vscale : ∀ ch, (p.vscale.get ch).toNat < nv
  hscale : p.hscale.toNat < nh
  pos : p.pos.toNat < FL
  numavg : p.numavg ≠ 0

/-- The active registers are in the ranges of R25-R28: no divisor of any rule is 0 (R301). -/
structure ActiveLegal (nv nh : Nat) (a : ActiveCfg) : Prop where
  vscale : ∀ ch, (a.vscale.get ch).toNat < nv
  hscale : a.hscale.toNat < nh
  pos : a.pos.toNat < FL
  numavg : a.numavg ≠ 0
  div : ∀ ch, a.div.get ch ≠ 0
  sppn : a.sppn ≠ 0
  sppd : a.sppd ≠ 0

/-- What holds between steps (R48), with the shapes and ranges the state rules give (R9, R22-R41). R48's `SKIPCNT ≤ A_SKIP`
stands here for every state but a capture-cycle boundary (log entry 9). -/
structure Inv (s : State) : Prop where
  /-- R9 -/
  params : s.par.legal = true
  /-- R22: each store is in canonical form and has the slots [0, CAP) only. -/
  store_wf : ∀ ch, (s.store.get ch).wf = true
  store_below : ∀ ch, (s.store.get ch).below s.par.cap = true
  /-- R23 -/
  wp_lt : s.wp < s.par.cap
  wp_aligned : s.wp % s.par.n = 0
  /-- R24 -/
  mbox_length : ∀ k, (s.mbox.get k).data.length = s.par.n
  /-- R26, R27: the tables keep their rows, and no row holds a zero divisor. -/
  vtab_length : s.nv = s.par.vtabInit.length
  htab_length : s.nh = s.par.htabInit.length
  vtab_legal : ∀ r ∈ s.vtab, r.legal = true
  htab_legal : ∀ r ∈ s.htab, r.legal = true
  /-- R25 -/
  pend_legal : PendingLegal s.nv s.nh s.pend
  /-- R28 -/
  act_legal : ActiveLegal s.nv s.nh s.act
  /-- R30, R48 -/
  rest : s.cstate.rest = true
  filling_normal : s.cstate = .filling → s.act.mode = .normal
  accumulating_average : s.cstate = .accumulating → s.act.mode = .average
  /-- R31 -/
  trig_lt : s.trigIdx < s.par.cap
  /-- R48 -/
  pix_low : s.cstate ≠ .idle → s.act.pos.toNat + 1 ≤ s.pix.toNat
  pix_high : s.cstate ≠ .idle → s.pix.toNat < FL
  skip_le : atBoundary s = false → s.skipcnt ≤ s.act.skip
  avgcnt_lt : s.avgcnt < s.act.numavg
  normal_avgcnt : s.act.mode = .normal → s.avgcnt = 0
  boundary_acc : atBoundary s = true → ∀ ch, s.acc.get ch = Vector.replicate FL 0
  /-- What makes the line above inductive: in Normal mode nothing is ever summed (R150-R154, R171). -/
  normal_acc : s.act.mode = .normal → ∀ ch, s.acc.get ch = Vector.replicate FL 0
  fcnt_le : ∀ ch, (s.fcnt.get ch).toNat ≤ 9
  /-- R41 -/
  fset_nonneg : ∀ ch, ∀ q ∈ (s.fset.get ch).toList, 0 ≤ q

/-- The occurrences summed in entry `k` of the accumulators: those completed, and the one in progress once it has reached
column `k` (R34, R173). -/
def occurrencesAt (s : State) (k : Nat) : Nat :=
  s.avgcnt.toNat + (if s.cstate = .accumulating ∧ k < s.pix.toNat then 1 else 0)

/-- No accumulator entry exceeds 4095 for each occurrence summed in it, so no 32-bit sum wraps (R34, R173). -/
def AccBounded (s : State) : Prop :=
  ∀ ch (k : Nat) (h : k < FL), ((s.acc.get ch)[k]).toNat ≤ occurrencesAt s k * 4095

/-- `FRAMESEQ` counts the frames delivered, and each record carries its number (R39, R90). -/
def SequenceNumbered (s : State) : Prop :=
  s.frameseq = BitVec.ofNat 32 s.frameOut.length ∧ ∀ i r, s.frameOut[i]? = some r → r.seq = BitVec.ofNat 32 i

/-! ## Schedules -/

/-- The throughput obligation on a schedule, from mailbox flags `f`: no delivery goes into a slot whose block no POLL has
consumed since it was delivered (R248). -/
def keepsThroughput : PerSlot Bool → List Event → Bool
  | _, [] => true
  | f, .deliver k _ :: es => !f.get k && keepsThroughput (f.set k true) es
  | _, .poll :: es => keepsThroughput ⟨false, false⟩ es
  | f, .command _ :: es => keepsThroughput f es
  | f, .read _ :: es => keepsThroughput f es

/-- Every delivery of a schedule is a block of `n` words (R9, R64). -/
def wholeBlocks (n : Nat) (es : List Event) : Bool :=
  es.all fun e => match e with
    | .deliver _ words => words.length == n
    | .command _ => true
    | .poll => true
    | .read _ => true

/-- The deliveries of a schedule fill the slots alternately, `k` first (R246): expected of the environment, enforced by no rule. -/
def alternates : Slot → List Event → Bool
  | _, [] => true
  | .ping, .deliver k _ :: es => k == .ping && alternates .pong es
  | .pong, .deliver k _ :: es => k == .pong && alternates .ping es
  | k, .command _ :: es => alternates k es
  | k, .poll :: es => alternates k es
  | k, .read _ :: es => alternates k es

/-- The completion flags of the two slots. -/
def mailFlags (s : State) : PerSlot Bool := ⟨(s.mbox.get .ping).flag, (s.mbox.get .pong).flag⟩

/-- `n` steps in a row; it stops at the first step that answers no next state. -/
def runSteps : Nat → State → Host.Outcome State Fault Refusal
  | 0, s => .next s
  | n + 1, s =>
    match step s with
    | .next t => runSteps n t
    | .fault f => .fault f
    | .refused r => .refused r

/-- A run is over when no agent has a step left to take and both completion flags are 0 (R351). -/
def runOver (s : State) : Bool := s.inputs.isEmpty && mailFlags s == ⟨false, false⟩

/-- What a run shows: the three output streams, the read port and the sticky bits (R351). -/
structure Observation where
  frames : List FrameRecord
  segs   : List SegRecord
  meas   : List MeasRecord
  /-- The value at each address of the map, 0x00 to 0x16. -/
  port   : List (BitVec 32)
  ovr    : Bool
  cfgerr : Bool
  cmderr : Bool
  deriving DecidableEq, Repr

/-- The observation a state gives (R351). -/
def observed (s : State) : Observation :=
  ⟨s.frameOut, s.segOut, s.measOut, (List.range 0x17).map fun a => readPort s (BitVec.ofNat 8 a), s.ovr, s.cfgerr, s.cmderr⟩

/-! ## Who may write what -/

/-- `t` is `s` but for what a host command may write: the pending registers, the tables, `RUN` and the sticky bits
(R47, R286). -/
def OnlyHostWrites (s t : State) : Prop :=
  t = { s with pend := t.pend, vtab := t.vtab, htab := t.htab, run := t.run, ovr := t.ovr, cfgerr := t.cfgerr, cmderr := t.cmderr }

/-- `t` is `s` but for the pending registers. -/
def OnlyPendingWrites (s t : State) : Prop := t = { s with pend := t.pend }

/-- `t` is `s` but for what the consumer may write (R47). -/
def OnlyConsumerWrites (s t : State) : Prop :=
  t = { s with
    store := t.store, wp := t.wp, mbox := t.mbox, act := t.act, cstate := t.cstate, trigIdx := t.trigIdx, forced := t.forced,
    pix := t.pix, skipcnt := t.skipcnt, framebuf := t.framebuf, acc := t.acc, avgcnt := t.avgcnt, miss := t.miss,
    lfValid := t.lfValid, lfData := t.lfData, lfChen := t.lfChen, frameseq := t.frameseq, ry := t.ry, ryValid := t.ryValid,
    fset := t.fset, fcnt := t.fcnt, out := t.out }

/-- `s` and `t` agree on everything but `RUN` and what only a delivered frame writes: the last-frame state, the sequence
number, the rendered coordinates, the estimate sets and the output streams (R157, R250). -/
def SameCapture (s t : State) : Prop :=
  t = { s with
    run := t.run, lfValid := t.lfValid, lfData := t.lfData, lfChen := t.lfChen, frameseq := t.frameseq, ry := t.ry,
    ryValid := t.ryValid, fset := t.fset, fcnt := t.fcnt, out := t.out }

/-- `t` is `s` but for row `idx` of the vertical table, which `f` changed. -/
def VrowWritten (idx : Nat) (f : VRow → VRow) (s t : State) : Prop :=
  t = { s with vtab := t.vtab } ∧ t.nv = s.nv ∧
    ∀ (r : Nat) (row : VRow), s.vtab[r]? = some row → t.vtab[r]? = some (if r = idx then f row else row)

/-- `t` is `s` but for row `idx` of the horizontal table, which `f` changed. -/
def HrowWritten (idx : Nat) (f : HRow → HRow) (s t : State) : Prop :=
  t = { s with htab := t.htab } ∧ t.nh = s.nh ∧
    ∀ (r : Nat) (row : HRow), s.htab[r]? = some row → t.htab[r]? = some (if r = idx then f row else row)

/-- The commands whose operand is refused with `CFGERR` in a state (R304). -/
def refusedOperand (s : State) : Instr → Bool
  | .loadVdiv idx data => decide (s.nv ≤ idx.toNat) || data == 0
  | .loadVmvpp idx _ => decide (s.nv ≤ idx.toNat)
  | .loadVmid _ idx _ => decide (s.nv ≤ idx.toNat)
  | .loadHskip idx _ => decide (s.nh ≤ idx.toNat)
  | .loadHsppn idx data => decide (s.nh ≤ idx.toNat) || data == 0
  | .loadHsppd idx data => decide (s.nh ≤ idx.toNat) || data == 0
  | .setNumavg data => data == 0
  | .nop | .calibrate | .setRun _ | .setMode _ | .clearStatus _ | .setVscale _ _ | .setHscale _ | .setChen _ _
  | .setTrigger _ _ _ _ | .setYmin _ | .setYmax _ | .setHalve _ | .setFrThresh _ | .setFrCap _ | .setFrEn _ => false

/-! ## Encodings -/

/-- The bits of a command's word that its row lists as used, OP and SUB among them; the others are ignored (R86, R89). -/
def usedBits : Instr → CmdWord
  | .nop | .calibrate => 0xFF000000
  | .setRun _ | .setMode _ | .setHalve _ | .setFrEn _ => 0xFF000001
  | .clearStatus _ => 0xFF000007
  | .setVscale _ _ => 0xFFFF0000
  | .setHscale _ => 0xFF7F0000
  | .setChen _ _ => 0xFF800001
  | .setTrigger _ _ _ _ => 0xFDFF0FFF
  | .loadVdiv _ _ | .loadVmvpp _ _ | .loadHskip _ _ | .loadHsppn _ _ | .loadHsppd _ _ => 0xFF7FFFFF
  | .loadVmid _ _ _ => 0xFFFFFFFF
  | .setYmin _ | .setYmax _ | .setNumavg _ | .setFrThresh _ | .setFrCap _ => 0xFF00FFFF

/-- A line assembles exactly when `fits` holds, and the command its word decodes to is then one that `means` describes
(R93). -/
def AssemblesTo (l : Line) (fits : Prop) (means : Instr → Prop) : Prop :=
  ((∃ w, assemble l = some w) ↔ fits) ∧ ∀ w, assemble l = some w → ∃ i, decode w = .ok i ∧ means i

/-- The reserved encodings as R88 lists them, by the numbers of OP and SUB. -/
def reservedEncoding (op sub : Nat) : Bool :=
  decide (8 ≤ op) || (op == 0 && decide (5 ≤ sub)) || (op == 1 && decide (3 ≤ sub))
    || ((op == 3 || op == 4 || op == 7) && decide (3 ≤ sub)) || ((op == 5 || op == 6) && decide (2 ≤ sub))

/-- The bits of each address of the read port that the map lists; the others read 0 (R45, R46). -/
def listedBits (addr : BitVec 8) : BitVec 32 :=
  match addr.toNat with
  | 0x00 => 0x0003077F
  | 0x01 | 0x02 | 0x04 | 0x05 => 0xFFFFFFFF
  | 0x03 => 0xFFFF01FF
  | 0x06 | 0x07 => 0x0DFF0FFF
  | 0x08 | 0x09 => 0x137F7F7F
  | 0x0A | 0x0B => 0x0001FFFF
  | 0x0C | 0x0D | 0x0F | 0x10 | 0x11 | 0x12 | 0x13 | 0x15 => 0xFFFFFFFF
  | 0x0E => 0x00000003
  | 0x14 => 0x0000FFFF
  | 0x16 => 0x00000F0F
  | _ => 0

/-! ## Frames -/

/-- The store index pixel `k` of a frame triggered at `T` is read at: the backfill formula below the trigger position, a code
every `A_SKIP + 1` from the trigger on (R152, R155). -/
def pixelIndex (a : ActiveCfg) (T k : Nat) : Int :=
  if k < a.pos.toNat then backfillIndex a T k
  else (T : Int) + ((k : Int) - (a.pos.toNat : Int)) * ((a.skip.toNat : Int) + 1)

/-- The frame of a trigger at `T`, every pixel read from the store of `s` (R155). -/
def frameAt (s : State) (T : Nat) : PerChannel Frame :=
  .tabulate fun ch => Vector.ofFn fun k : Fin FL => storeRead s ch (pixelIndex s.act T k.val)

/-- The codes after the trigger that complete a frame: (FL − 1 − p)·(s + 1) (R155). -/
def codesToComplete (a : ActiveCfg) : Nat := (FL - 1 - a.pos.toNat) * (a.skip.toNat + 1)

/-- A capture started at `T` and the code steps that complete it, all reading one store: the frame of Normal mode (R155), or
one trigger occurrence of Average mode (R171-R175). -/
def captureScan (T : Nat) (forced : Bool) (s : State) : State :=
  (codeSteps (T + 1) (codesToComplete s.act) (startCapture T forced s, true)).1

/-- `n` code steps after a trigger, over as many passes as they take: the `m`-th code after the trigger is stepped at store
index `idx m`, with the store as it then stands, `stores m` (R153, R155). -/
def scanAcross (idx : Nat → Nat) (stores : Nat → PerChannel Memory) : Nat → State × Bool → State × Bool
  | 0, p => p
  | n + 1, p =>
    codeStep (idx (n + 1))
      ({ (scanAcross idx stores n p).1 with store := stores (n + 1) }, (scanAcross idx stores n p).2)

/-- The frame of a trigger whose pixels are read as the codes arrive: the backfill from the store at the trigger, the pixel
at `pos + j` from the store as it stands `j·(A_SKIP + 1)` codes later (R155). -/
def frameAcross (s : State) (idx : Nat → Nat) (stores : Nat → PerChannel Memory) : PerChannel Frame :=
  .tabulate fun ch => Vector.ofFn fun k : Fin FL =>
    if k.val < s.act.pos.toNat then storeRead { s with store := stores 0 } ch (backfillIndex s.act (idx 0) k.val)
    else
      storeRead { s with store := stores ((k.val - s.act.pos.toNat) * (s.act.skip.toNat + 1)) } ch
        (idx ((k.val - s.act.pos.toNat) * (s.act.skip.toNat + 1)))

/-- A trigger of an accumulation cycle: the store as it stands through its occurrence, its index, and whether it was forced. -/
structure Occurrence where
  store : PerChannel Memory
  index : Nat
  forced : Bool
  deriving DecidableEq, Repr

/-- The occurrences of `os` captured in turn, each from its own store (R170). -/
def captureCycle : List Occurrence → State → State
  | [], s => s
  | o :: os, s => captureCycle os (captureScan o.index o.forced { s with store := o.store })

/-- `Σ_j F_j[ch][k]`: column `k` of the Normal-mode frames of the occurrences, summed (R177). -/
def frameSum (s : State) (ch : Channel) (k : Nat) : List Occurrence → Nat
  | [] => 0
  | o :: os =>
    (storeRead { s with store := o.store } ch (pixelIndex s.act o.index k)).toNat + frameSum s ch k os

end Sys2Proof.Machine
end

