-- ==== Sys2Proof/Certificates/Slice0/Obligations.lean ====
section
/-! DEFINITION. The statements about OSC-CORE, each from the numbered rules its docstring names. -/

open Sys2Proof Sys2Proof.Machine

/-! ## Encodings -/

/-- R84-R86, R89: the decoder gives back every command an encoder wrote, and a word that decodes differs from the encoded
word of its command in ignored bits only. -/
def Obligations.EncodeAndDecodeAgree : Prop :=
  (∀ i : Instr, decode (encode i) = .ok i) ∧
  ∀ (w : CmdWord) (i : Instr), decode w = .ok i → encode i = w &&& usedBits i

/-- R86: exactly one row of the opcode map or none matches a word, and the decoder gives that row's command. -/
def Obligations.EveryWordMatchesOneRowOrNone : Prop :=
  ∀ w : CmdWord,
    (∀ r ∈ opcodeMap, ∀ r' ∈ opcodeMap, r.accepts w = true → r'.accepts w = true → r = r') ∧
    (∀ r ∈ opcodeMap, r.accepts w = true → ∃ i, decode w = .ok i ∧ i.mnemonic = r.mnemonic) ∧
    (∀ i, decode w = .ok i → ∃ r ∈ opcodeMap, r.accepts w = true ∧ r.mnemonic = i.mnemonic)

/-- R89: two words that differ in ignored bits only are one command with one effect, never CMDERR; the toolchain writes
ignored bits as 0. -/
def Obligations.IgnoredBitsHaveNoEffect : Prop :=
  (∀ (w w' : CmdWord) (i : Instr), decode w = .ok i → w &&& usedBits i = w' &&& usedBits i →
    decode w' = .ok i ∧ ∀ s : State, command w' s = command w s ∧
      ∀ t, command w' s = .next t → s.cmderr = false → t.cmderr = false) ∧
  ∀ i : Instr, encode i &&& ~~~(usedBits i) = 0

/-- R88, R284: the words the decoder refuses are the reserved encodings; a reserved word sets CMDERR and changes nothing
else. -/
def Obligations.ReservedWordsSetOnlyCmderr : Prop :=
  ∀ w : CmdWord,
    ((∃ e, decode w = .error e) ↔ reservedEncoding (w.toNat / 2 ^ 28) (w.toNat / 2 ^ 24 % 16) = true) ∧
    (reservedEncoding (w.toNat / 2 ^ 28) (w.toNat / 2 ^ 24 % 16) = true →
      ∀ s : State, command w s = .next { s with cmderr := true })

/-- R95: the encoding examples, written and read. -/
def Obligations.SpecEncodingExamples : Prop :=
  (assemble (.setTrigger 2048 50 .rising .ch1) = some 0x20320800 ∧
    assemble (.setTrigger 1000 318 .falling .ch2) = some 0x2D3E03E8 ∧ assemble (.loadVdiv 0 16) = some 0x30000010 ∧
    assemble (.loadVmid .ch2 0 247) = some 0x328000F7 ∧ assemble (.setYmin (-10)) = some 0x5000FFF6 ∧
    assemble (.setYmax 239) = some 0x510000EF ∧ assemble (.setVscale .ch2 5) = some 0x10850000 ∧
    assemble (.setRun 1) = some 0x02000001 ∧ assemble (.setMode .average) = some 0x03000001 ∧
    assemble (.clearStatus 7) = some 0x04000007 ∧ assemble .nop = some 0x00000000) ∧
  (decode 0x20320800 = .ok (.setTrigger 2048 50 .rising .ch1) ∧
    decode 0x2D3E03E8 = .ok (.setTrigger 1000 318 .falling .ch2) ∧ decode 0x30000010 = .ok (.loadVdiv 0 16) ∧
    decode 0x328000F7 = .ok (.loadVmid .ch2 0 247) ∧ decode 0x5000FFF6 = .ok (.setYmin 0xFFF6) ∧
    decode 0x510000EF = .ok (.setYmax 239) ∧ decode 0x10850000 = .ok (.setVscale .ch2 5) ∧
    decode 0x02000001 = .ok (.setRun true) ∧ decode 0x03000001 = .ok (.setMode .average) ∧
    decode 0x04000007 = .ok (.clearStatus 7) ∧ decode 0x00000000 = .ok .nop)

/-- R87, R93: for each command, a line assembles exactly when its operands fit its fields, and the word decodes to that command
with the operands' numbers in its fields. That a CLEAR_STATUS mask must fit its three bits is the model's reading of R93 (log
entry 14). -/
def Obligations.AssembledLineDecodesToItsOperands : Prop :=
  (AssemblesTo .nop True (· = .nop) ∧ AssemblesTo .calibrate True (· = .calibrate) ∧
    (∀ v : Int, AssemblesTo (.setRun v) (0 ≤ v ∧ v ≤ 1) fun i => ∃ b, i = .setRun b ∧ (b = true ↔ v = 1)) ∧
    (∀ m, AssemblesTo (.setMode m) True (· = .setMode m)) ∧
    ∀ v : Int, AssemblesTo (.clearStatus v) (0 ≤ v ∧ v ≤ 7) fun i => ∃ x, i = .clearStatus x ∧ (x.toNat : Int) = v) ∧
  ((∀ (ch : Channel) (n : Int), AssemblesTo (.setVscale ch n) (0 ≤ n ∧ n ≤ 127) fun i =>
      ∃ x, i = .setVscale ch x ∧ (x.toNat : Int) = n) ∧
    (∀ n : Int, AssemblesTo (.setHscale n) (0 ≤ n ∧ n ≤ 127) fun i => ∃ x, i = .setHscale x ∧ (x.toNat : Int) = n) ∧
    (∀ (ch : Channel) (v : Int), AssemblesTo (.setChen ch v) (0 ≤ v ∧ v ≤ 1) fun i =>
      ∃ b, i = .setChen ch b ∧ (b = true ↔ v = 1)) ∧
    ∀ (l p : Int) (e : Edge) (ch : Channel),
      AssemblesTo (.setTrigger l p e ch) ((0 ≤ l ∧ l ≤ 4095) ∧ 0 ≤ p ∧ p ≤ 511) fun i =>
        ∃ x y, i = .setTrigger x y e ch ∧ (x.toNat : Int) = l ∧ (y.toNat : Int) = p) ∧
  (∀ n v : Int,
    AssemblesTo (.loadVdiv n v) ((0 ≤ n ∧ n ≤ 127) ∧ 0 ≤ v ∧ v ≤ 65535)
      (fun i => ∃ x y, i = .loadVdiv x y ∧ (x.toNat : Int) = n ∧ (y.toNat : Int) = v) ∧
    AssemblesTo (.loadVmvpp n v) ((0 ≤ n ∧ n ≤ 127) ∧ 0 ≤ v ∧ v ≤ 65535)
      (fun i => ∃ x y, i = .loadVmvpp x y ∧ (x.toNat : Int) = n ∧ (y.toNat : Int) = v) ∧
    (∀ ch, AssemblesTo (.loadVmid ch n v) ((0 ≤ n ∧ n ≤ 127) ∧ -32768 ≤ v ∧ v ≤ 32767) fun i =>
      ∃ x y, i = .loadVmid ch x y ∧ (x.toNat : Int) = n ∧ y.toInt = v) ∧
    AssemblesTo (.loadHskip n v) ((0 ≤ n ∧ n ≤ 127) ∧ 0 ≤ v ∧ v ≤ 65535)
      (fun i => ∃ x y, i = .loadHskip x y ∧ (x.toNat : Int) = n ∧ (y.toNat : Int) = v) ∧
    AssemblesTo (.loadHsppn n v) ((0 ≤ n ∧ n ≤ 127) ∧ 0 ≤ v ∧ v ≤ 65535)
      (fun i => ∃ x y, i = .loadHsppn x y ∧ (x.toNat : Int) = n ∧ (y.toNat : Int) = v) ∧
    AssemblesTo (.loadHsppd n v) ((0 ≤ n ∧ n ≤ 127) ∧ 0 ≤ v ∧ v ≤ 65535)
      fun i => ∃ x y, i = .loadHsppd x y ∧ (x.toNat : Int) = n ∧ (y.toNat : Int) = v) ∧
  ∀ v : Int,
    AssemblesTo (.setYmin v) (-32768 ≤ v ∧ v ≤ 32767) (fun i => ∃ y, i = .setYmin y ∧ y.toInt = v) ∧
    AssemblesTo (.setYmax v) (-32768 ≤ v ∧ v ≤ 32767) (fun i => ∃ y, i = .setYmax y ∧ y.toInt = v) ∧
    AssemblesTo (.setNumavg v) (0 ≤ v ∧ v ≤ 65535) (fun i => ∃ y, i = .setNumavg y ∧ (y.toNat : Int) = v) ∧
    AssemblesTo (.setHalve v) (0 ≤ v ∧ v ≤ 1) (fun i => ∃ b, i = .setHalve b ∧ (b = true ↔ v = 1)) ∧
    AssemblesTo (.setFrThresh v) (0 ≤ v ∧ v ≤ 65535) (fun i => ∃ y, i = .setFrThresh y ∧ (y.toNat : Int) = v) ∧
    AssemblesTo (.setFrCap v) (0 ≤ v ∧ v ≤ 65535) (fun i => ∃ y, i = .setFrCap y ∧ (y.toNat : Int) = v) ∧
    AssemblesTo (.setFrEn v) (0 ≤ v ∧ v ≤ 1) fun i => ∃ b, i = .setFrEn b ∧ (b = true ↔ v = 1)

/-- R94: the pseudo-commands; a STEP form is assembled and moves the pending index by one, kept within the table. -/
def Obligations.PseudoCommandsExpand : Prop :=
  (∀ (s : State) (a b c d e : Int),
    Pseudo.expand s (.setViewport a b) = [.setYmin a, .setYmax b] ∧
    Pseudo.expand s (.loadVrow a b c d e) = [.loadVdiv a b, .loadVmvpp a c, .loadVmid .ch1 a d, .loadVmid .ch2 a e] ∧
    Pseudo.expand s (.loadHrow a b c d) = [.loadHskip a b, .loadHsppn a c, .loadHsppd a d] ∧
    Pseudo.expand s (.setFreerun a b c) = [.setFrThresh a, .setFrCap b, .setFrEn c] ∧
    Pseudo.expand s (.setAverage a b) = [.setNumavg a, .setHalve b, .setMode .average] ∧
    Pseudo.expand s .stop = [.setRun 0] ∧ Pseudo.expand s .start = [.setRun 1]) ∧
  ∀ (s : State) (ch : Channel) (up : Bool), Inv s →
    (∃ w p, (ProgLine.pseudo (.stepVscale ch up)).events s = some [.command w] ∧
      command w s = .next { s with pend := { s.pend with vscale := s.pend.vscale.set ch p } } ∧
      (p.toNat : Int) = clampInt ((s.pend.vscale.get ch).toNat + (if up then 1 else -1)) 0 ((s.nv : Int) - 1)) ∧
    (∃ w p, (ProgLine.pseudo (.stepHscale up)).events s = some [.command w] ∧
      command w s = .next { s with pend := { s.pend with hscale := p } } ∧
      (p.toNat : Int) = clampInt (s.pend.hscale.toNat + (if up then 1 else -1)) 0 ((s.nh : Int) - 1))

/-! ## Steps -/

/-- R260, R67, R240: a step takes the scheduler's next event; a command word at the command port runs as the command it
decodes to. That a step with nothing scheduled is a POLL is the model's choice (log entry 2), that the answer of a READ is
appended to `readOut` is log entry 4, and that a word of the opcode table runs by being sent is log entry 6. -/
def Obligations.StepRunsTheNextEvent : Prop :=
  ∀ (s : State) (rest : List Event),
    (∀ w i, s.inputs = .command w :: rest → decode w = .ok i → step s = exec i { s with inputs := rest }) ∧
    (∀ w e, s.inputs = .command w :: rest → decode w = .error e →
      step s = .next { s with inputs := rest, cmderr := true }) ∧
    (∀ k ws, s.inputs = .deliver k ws :: rest → step s = deliverStep k ws { s with inputs := rest }) ∧
    (s.inputs = .poll :: rest → step s = .next (poll { s with inputs := rest })) ∧
    (∀ a, s.inputs = .read a :: rest →
      step s = .next { s with inputs := rest, readOut := s.readOut ++ [(a, readPort s a)] }) ∧
    (s.inputs = [] → step s = .next (poll s)) ∧
    (∀ w i, decodeTableWord 32 w = some i → step (s.withFetchWord 32 w) = exec i s)

/-- R300, R249: every command answers a next state in every state, and every step does whose delivery, if it is one, is a
block of N words. A list of another length is no step of the port: the model refuses it (log entry 10). -/
def Obligations.EveryStepCompletes : Prop :=
  (∀ (i : Instr) (s : State), ∃ t, exec i s = .next t) ∧
  (∀ s : State, (∀ k ws rest, s.inputs = .deliver k ws :: rest → ws.length = s.par.n) → ∃ t, step s = .next t) ∧
  ∀ (s : State) k ws rest, s.inputs = .deliver k ws :: rest → ws.length ≠ s.par.n →
    step s = .refused (.blockLength ws.length)

/-! ## Commands -/

/-- R262, R264, R266: NOP changes nothing; SET_RUN writes RUN at once; CLEAR_STATUS clears the bits its mask selects. -/
def Obligations.ControlCommandsResult : Prop :=
  ∀ s : State,
    exec .nop s = .next s ∧
    (∀ b, exec (.setRun b) s = .next { s with run := b }) ∧
    ∀ m : BitVec 3, exec (.clearStatus m) s = .next { s with
      ovr := if m.getLsbD 0 = true then false else s.ovr,
      cfgerr := if m.getLsbD 1 = true then false else s.cfgerr,
      cmderr := if m.getLsbD 2 = true then false else s.cmderr }

/-- R265, R269, R277-R283: each writes its pending register and nothing else; NumAvg 0 is refused with CFGERR. -/
def Obligations.PendingCommandsResult : Prop :=
  ∀ s : State,
    (∀ m, exec (.setMode m) s = .next { s with pend := { s.pend with mode := m } }) ∧
    (∀ ch en, ∃ c : PerChannel Bool, exec (.setChen ch en) s = .next { s with pend := { s.pend with chen := c } } ∧
      ∀ ch', c.get ch' = if ch' = ch then en else s.pend.chen.get ch') ∧
    (∀ v, exec (.setYmin v) s = .next { s with pend := { s.pend with yMin := v } }) ∧
    (∀ v, exec (.setYmax v) s = .next { s with pend := { s.pend with yMax := v } }) ∧
    (∀ v, exec (.setNumavg v) s =
      .next (if v = 0 then { s with cfgerr := true } else { s with pend := { s.pend with numavg := v } })) ∧
    (∀ b, exec (.setHalve b) s = .next { s with pend := { s.pend with halve := b } }) ∧
    (∀ v, exec (.setFrThresh v) s = .next { s with pend := { s.pend with frThresh := v } }) ∧
    (∀ v, exec (.setFrCap v) s = .next { s with pend := { s.pend with frCap := v } }) ∧
    (∀ b, exec (.setFrEn b) s = .next { s with pend := { s.pend with frEn := b } })

/-- R267, R268, R270: an index beyond a table is clamped to its last row, a position beyond the frame to FL − 1, with no
flag; SET_TRIGGER writes the whole TriggerConfig in one step. -/
def Obligations.SelectionCommandsClamp : Prop :=
  ∀ s : State,
    (∀ ch idx, ∃ v : PerChannel (BitVec 7),
      exec (.setVscale ch idx) s = .next { s with pend := { s.pend with vscale := v } } ∧
      (v.get ch).toNat = min idx.toNat (s.nv - 1) ∧ ∀ ch', ch' ≠ ch → v.get ch' = s.pend.vscale.get ch') ∧
    (∀ idx, ∃ v : BitVec 7, exec (.setHscale idx) s = .next { s with pend := { s.pend with hscale := v } } ∧
      v.toNat = min idx.toNat (s.nh - 1)) ∧
    (∀ level pos edge src, ∃ p : BitVec 9,
      exec (.setTrigger level pos edge src) s =
        .next { s with pend := { s.pend with level := level, pos := p, edge := edge, src := src } } ∧
      p.toNat = min pos.toNat (FL - 1))

/-- R271-R273: a vertical table command writes its field of its row, or is refused with CFGERR and no other effect. -/
def Obligations.LoadVerticalRow : Prop :=
  ∀ (s : State) (idx : BitVec 7) (v : BitVec 16),
    (if s.nv ≤ idx.toNat ∨ v = 0 then exec (.loadVdiv idx v) s = .next { s with cfgerr := true }
     else ∃ t, exec (.loadVdiv idx v) s = .next t ∧ VrowWritten idx.toNat (fun r => { r with div := v }) s t) ∧
    (if s.nv ≤ idx.toNat then exec (.loadVmvpp idx v) s = .next { s with cfgerr := true }
     else ∃ t, exec (.loadVmvpp idx v) s = .next t ∧ VrowWritten idx.toNat (fun r => { r with mvpp := v }) s t) ∧
    (if s.nv ≤ idx.toNat then ∀ ch, exec (.loadVmid ch idx v) s = .next { s with cfgerr := true }
     else (∃ t, exec (.loadVmid .ch1 idx v) s = .next t ∧
            VrowWritten idx.toNat (fun r => { r with mid := ⟨v, r.mid.ch2⟩ }) s t) ∧
          (∃ t, exec (.loadVmid .ch2 idx v) s = .next t ∧
            VrowWritten idx.toNat (fun r => { r with mid := ⟨r.mid.ch1, v⟩ }) s t))

/-- R274-R276: a horizontal table command writes its field of its row, or is refused with CFGERR and no other effect. -/
def Obligations.LoadHorizontalRow : Prop :=
  ∀ (s : State) (idx : BitVec 7) (v : BitVec 16),
    (if s.nh ≤ idx.toNat then exec (.loadHskip idx v) s = .next { s with cfgerr := true }
     else ∃ t, exec (.loadHskip idx v) s = .next t ∧ HrowWritten idx.toNat (fun r => { r with skip := v }) s t) ∧
    (if s.nh ≤ idx.toNat ∨ v = 0 then exec (.loadHsppn idx v) s = .next { s with cfgerr := true }
     else ∃ t, exec (.loadHsppn idx v) s = .next t ∧ HrowWritten idx.toNat (fun r => { r with sppn := v }) s t) ∧
    (if s.nh ≤ idx.toNat ∨ v = 0 then exec (.loadHsppd idx v) s = .next { s with cfgerr := true }
     else ∃ t, exec (.loadHsppd idx v) s = .next t ∧ HrowWritten idx.toNat (fun r => { r with sppd := v }) s t)

/-- R263: before a published frame CALIBRATE does nothing; after one it rewrites the midlevel of each channel enabled in it,
in the row of the channel's active scale, so that the frame's mean code maps to the centre of the band up to the saturation;
calibrating twice writes the same values. -/
def Obligations.CalibrateCentresTheMean : Prop :=
  (∀ s : State, ∃ t, exec .calibrate s = .next t ∧ t = { s with vtab := t.vtab } ∧ t.nv = s.nv ∧
    (s.lfValid = false → t = s) ∧
    (s.lfValid = true → ∀ (r : Nat) (row : VRow), s.vtab[r]? = some row →
      t.vtab[r]? = some ⟨row.div, row.mvpp, .tabulate fun ch =>
        if s.lfChen.get ch = true ∧ (s.act.vscale.get ch).toNat = r then
          sat16 ((s.act.yMin.toInt + s.act.yMax.toInt) / 2 +
            ((((s.lfData.get ch).toList.map BitVec.toNat).sum / 319 / (s.act.div.get ch).toNat : Nat) : Int))
        else row.mid.get ch⟩) ∧
    exec .calibrate t = .next t) ∧
  ∀ (s : State) (ch : Channel) (a : ActiveCfg),
    a.div = s.act.div → a.mid.get ch = calibratedMid s ch →
    -32768 ≤ bandCentre s.act + ((frameMean (s.lfData.get ch) / (s.act.div.get ch).toNat : Nat) : Int) →
    bandCentre s.act + ((frameMean (s.lfData.get ch) / (s.act.div.get ch).toNat : Nat) : Int) ≤ 32767 →
    mapY a ch (BitVec.ofNat 12 (frameMean (s.lfData.get ch))) = bandCentre s.act

/-- R47, R261, R286: no command writes the store, the capture state, the active set, a published frame or an output stream;
every code of both stores reads as before. -/
def Obligations.CommandsWriteOnlyHostState : Prop :=
  ∀ (i : Instr) (s t : State), exec i s = .next t →
    OnlyHostWrites s t ∧ ∀ (ch : Channel) (x : Int), storeRead t ch x = storeRead s ch x

/-- R302-R306: OVR is set by a delivery into a full slot alone, CFGERR by a refused operand alone, CMDERR by a reserved word
alone; a bit that is set stays until CLEAR_STATUS selects it; one step sets at most one of them. -/
def Obligations.StickyBitsHaveTheirCauses : Prop :=
  (∀ (i : Instr) (s : State), refusedOperand s i = true → exec i s = .next { s with cfgerr := true }) ∧
  (∀ (w : CmdWord) (s : State), (∃ e, decode w = .error e) → command w s = .next { s with cmderr := true }) ∧
  ∀ s t : State, step s = .next t →
    (s.ovr = false → t.ovr = true → (∃ k ws rest, s.inputs = .deliver k ws :: rest ∧ (s.mbox.get k).flag = true) ∧
      t.cfgerr = s.cfgerr ∧ t.cmderr = s.cmderr) ∧
    (s.cfgerr = false → t.cfgerr = true →
      (∃ w i rest, s.inputs = .command w :: rest ∧ decode w = .ok i ∧ refusedOperand s i = true) ∧
      t.ovr = s.ovr ∧ t.cmderr = s.cmderr) ∧
    (s.cmderr = false → t.cmderr = true → (∃ w e rest, s.inputs = .command w :: rest ∧ decode w = .error e) ∧
      t.ovr = s.ovr ∧ t.cfgerr = s.cfgerr) ∧
    (s.ovr = true → t.ovr = false →
      ∃ w m rest, s.inputs = .command w :: rest ∧ decode w = .ok (.clearStatus m) ∧ m.getLsbD 0 = true) ∧
    (s.cfgerr = true → t.cfgerr = false →
      ∃ w m rest, s.inputs = .command w :: rest ∧ decode w = .ok (.clearStatus m) ∧ m.getLsbD 1 = true) ∧
    (s.cmderr = true → t.cmderr = false →
      ∃ w m rest, s.inputs = .command w :: rest ∧ decode w = .ok (.clearStatus m) ∧ m.getLsbD 2 = true)

/-! ## Decoder and store -/

/-- R82, R111-R113: the decoder maps a two's-complement field to offset binary, on each channel's bits of the raw word, whose
top byte has no effect. -/
def Obligations.DecoderIsOffsetBinary : Prop :=
  (∀ f : BitVec 12, decodeField f = f ^^^ 0x800 ∧ ((decodeField f).toNat : Int) = f.toInt + 2048) ∧
  (∀ c : Code, decodeField (c ^^^ 0x800) = c) ∧
  (∀ w : RawWord, (decodeWord w).ch1 = decodeField (w.extractLsb' 0 12) ∧
    (decodeWord w).ch2 = decodeField (w.extractLsb' 12 12)) ∧
  ∀ w w' : RawWord, w.extractLsb' 0 24 = w'.extractLsb' 0 24 → decodeWord w = decodeWord w'

/-- R114, R122, R123: a block of N words goes to the slots WP .. WP + N − 1 of both channels, every other slot reads as
before, and the pointer advances by N and wraps at the capacity; nothing else changes. -/
def Obligations.AppendStoresTheBlock : Prop :=
  ∀ (s : State) (words : List RawWord), Inv s → words.length = s.par.n →
    decodeBlock words s = { s with store := (decodeBlock words s).store, wp := (decodeBlock words s).wp } ∧
    (∀ (j : Nat) (w : RawWord) ch, words[j]? = some w →
      storeRead (decodeBlock words s) ch (s.wp + j) = (decodeWord w).get ch) ∧
    (∀ (p : Nat) ch, p < s.par.cap → p < s.wp ∨ s.wp + s.par.n ≤ p →
      storeRead (decodeBlock words s) ch p = storeRead s ch p) ∧
    (decodeBlock words s).wp = (if s.wp + s.par.n = s.par.cap then 0 else s.wp + s.par.n) ∧
    (s.par.k = 1 → (decodeBlock words s).wp = s.wp)

/-- R61, R120: a logical index names the slot of its Euclidean remainder modulo the capacity. -/
def Obligations.StoreReadResolvesModulo : Prop :=
  (∀ (s : State) (ch : Channel) (x m : Int), 0 < s.par.cap →
    storeRead s ch (x + m * s.par.cap) = storeRead s ch x ∧
    storeRead s ch (-1) = (s.store.get ch).read (s.par.cap - 1) ∧
    (0 ≤ x → x < s.par.cap → storeRead s ch x = (s.store.get ch).read x.toNat)) ∧
  ∀ (p : Params) (ch : Channel) (x : Int), storeRead (State.resetWith p) ch x = 0

/-- R125: after K blocks have been appended the store holds the last CAP codes: the index `WP − 1 − d` reads the code
appended `d` codes before the newest one, for every `d` below CAP. -/
def Obligations.StoreHoldsTheLastCapCodes : Prop :=
  ∀ (s : State) (blocks : List (List RawWord)), Inv s → blocks.length = s.par.k → (∀ b ∈ blocks, b.length = s.par.n) →
    let t := blocks.foldl (fun u b => decodeBlock b u) s
    t.wp = s.wp ∧ ∀ (d : Nat) (w : RawWord) ch, blocks.flatten.reverse[d]? = some w →
      storeRead t ch ((t.wp : Int) - 1 - d) = (decodeWord w).get ch

/-! ## Trigger -/

/-- R130: the comparator, inclusive on both sides. -/
def Obligations.TriggerCompareIsInclusive : Prop :=
  ∀ prev curr level : Code,
    (triggerCompare prev curr level .rising = true ↔ prev.toNat ≤ level.toNat ∧ level.toNat ≤ curr.toNat) ∧
    (triggerCompare prev curr level .falling = true ↔ level.toNat ≤ prev.toNat ∧ curr.toNat ≤ level.toNat)

/-- R135: on a strictly monotonic run the comparator holds at the crossing code alone, or there and at the next code where
the run takes the level exactly; the other edge never. -/
def Obligations.MonotonicRunTriggersAtTheCrossing : Prop :=
  ∀ (n : Nat) (f : Nat → Code) (level : Code),
    ((∀ i j, i < j → j ≤ n → f i < f j) →
      (∀ k, k < n → f k < level → level < f (k + 1) →
        ∀ i, i < n → (triggerCompare (f i) (f (i + 1)) level .rising = true ↔ i = k)) ∧
      (∀ k, k < n → f k < level → level = f (k + 1) →
        ∀ i, i < n → (triggerCompare (f i) (f (i + 1)) level .rising = true ↔ i = k ∨ i = k + 1)) ∧
      ∀ i, i < n → triggerCompare (f i) (f (i + 1)) level .falling = false) ∧
    ((∀ i j, i < j → j ≤ n → f j < f i) →
      (∀ k, k < n → level < f k → f (k + 1) < level →
        ∀ i, i < n → (triggerCompare (f i) (f (i + 1)) level .falling = true ↔ i = k)) ∧
      (∀ k, k < n → level < f k → level = f (k + 1) →
        ∀ i, i < n → (triggerCompare (f i) (f (i + 1)) level .falling = true ↔ i = k ∨ i = k + 1)) ∧
      ∀ i, i < n → triggerCompare (f i) (f (i + 1)) level .rising = false)

/-- R133: a pass without a fire that ends armed counts, saturating at the cap; any other pass leaves MISS; nothing else
changes. -/
def Obligations.MissCountSaturates : Prop :=
  ∀ (fired : Bool) (s : State),
    missAccount fired s = { s with miss := (missAccount fired s).miss } ∧
    (missAccount fired s).miss.toNat =
      (if fired = false ∧ s.cstate = .idle then min (s.miss.toNat + 1) s.act.frCap.toNat else s.miss.toNat) ∧
    (fired = false → s.cstate = .idle → (missAccount fired s).miss ≤ s.act.frCap)

/-- R134: free-run starts a forced capture at the last code when the pass did not fire, ends armed, is enabled and MISS has
reached the threshold, and MISS is not reset; otherwise nothing happens. -/
def Obligations.ForceFireAtTheThreshold : Prop :=
  ∀ (fired : Bool) (last : Nat) (s : State),
    if fired = false ∧ s.cstate = .idle ∧ s.act.frEn = true ∧ s.act.frThresh.toNat ≤ s.miss.toNat then
      forceFire fired last s = startCapture last true s ∧ (forceFire fired last s).trigIdx = last ∧
        (forceFire fired last s).forced = true ∧ (forceFire fired last s).miss = s.miss
    else forceFire fired last s = s

/-- R131-R134, R241: a pass that starts armed and meets no qualifying edge stores its block, counts one miss and comes to the
free-run check; no code step changes anything. -/
def Obligations.QuietPassCountsOneMiss : Prop :=
  ∀ (s : State) (words : List RawWord), s.cstate = .idle →
    let u := passLoaded words s
    (∀ j, j < s.par.n → triggered (s.wp + j) u = false) →
    passScanned words s = (u, false) ∧
    processPass words s = forceFire false (s.wp + s.par.n - 1)
      { u with miss := BitVec.ofNat 16 (min (u.miss.toNat + 1) u.act.frCap.toNat) }

/-! ## Capture -/

/-- R151: the start of a Normal capture fills the backfill and the trigger sample, both channels at the same indices; a
capture at position FL − 1 is complete at once. -/
def Obligations.StartCaptureNormalBackfills : Prop :=
  ∀ (s : State) (T : Nat) (forced : Bool),
    let buf : PerChannel Frame := .tabulate fun ch => Vector.ofFn fun k : Fin FL =>
      if k.val < s.act.pos.toNat then
        storeRead s ch ((T : Int) - s.act.pos.toNat + k.val * ((s.act.skip.toNat : Int) + 1))
      else if k.val = s.act.pos.toNat then storeRead s ch T
      else (s.framebuf.get ch)[k]
    let t : State := { s with
      cstate := .filling, trigIdx := T, forced := forced, framebuf := buf, pix := s.act.pos + 1, skipcnt := s.act.skip }
    startCaptureNormal T forced s = if s.act.pos.toNat + 1 = FL then publish buf t else t

/-- R153, R154: a code of a filling frame is skipped, or becomes the next pixel of both channels; the last pixel publishes
the frame. -/
def Obligations.FillStepTakesOrSkips : Prop :=
  ∀ (s : State) (i : Nat),
    let buf : PerChannel Frame := .tabulate fun ch => Vector.ofFn fun k : Fin FL =>
      if k.val = s.pix.toNat then storeRead s ch i else (s.framebuf.get ch)[k]
    let t : State := { s with framebuf := buf, pix := s.pix + 1, skipcnt := s.act.skip }
    fillStep i s =
      if s.skipcnt ≠ 0 then { s with skipcnt := s.skipcnt - 1 }
      else if s.pix.toNat + 1 = FL then publish buf t else t

/-- R155: a Normal capture triggered at `T` publishes, exactly `(FL − 1 − p)·(s + 1)` codes later and not before, the frame
whose pixels are the codes at the backfill indices and at `T + j·(s + 1)`. The first clause is a capture within one pass, which
reads one store; the second a capture over any passes, each pixel read from the store as it stands when the pixel is taken. -/
def Obligations.NormalFrameContent : Prop :=
  (∀ (s : State) (T : Nat) (forced : Bool), Inv s → s.cstate = .idle → s.act.mode = .normal →
    (∀ m, m < codesToComplete s.act →
      (codeSteps (T + 1) m (startCapture T forced s, true)).1.cstate = .filling ∧
      (codeSteps (T + 1) m (startCapture T forced s, true)).1.out = s.out) ∧
    captureScan T forced s = publish (frameAt s T) { s with
      cstate := .filling, trigIdx := T, forced := forced, framebuf := frameAt s T, pix := 319, skipcnt := s.act.skip }) ∧
  ∀ (s : State) (idx : Nat → Nat) (stores : Nat → PerChannel Memory) (forced fired : Bool),
    Inv s → s.cstate = .idle → s.act.mode = .normal →
    let p : State × Bool := (startCapture (idx 0) forced { s with store := stores 0 }, fired)
    (∀ m, m < codesToComplete s.act →
      (scanAcross idx stores m p).1.cstate = .filling ∧ (scanAcross idx stores m p).1.out = s.out) ∧
    (scanAcross idx stores (codesToComplete s.act) p).1 = publish (frameAcross s idx stores) { s with
      store := stores (codesToComplete s.act), cstate := .filling, trigIdx := idx 0, forced := forced
      framebuf := frameAcross s idx stores, pix := 319, skipcnt := s.act.skip }

/-- R171, R173-R176: the Average-mode capture step by step, under either weighting. The start of an occurrence adds the
backfill codes, halving after each addition where A_HALVE says so, and the trigger sample, both channels at the same indices,
into the accumulators, zeroed first in a new cycle; a code is skipped, or added to the next column and never halved; the last
column completes the occurrence, which re-arms, or publishes the floor mean and clears the accumulators. No sum wraps. -/
def Obligations.BackfillWeighting : Prop :=
  (∀ (a : BitVec 32) (b : Code), a.toNat ≤ 65534 * 4095 →
    (backfillAccumulate false a b).toNat = a.toNat + b.toNat ∧
    (backfillAccumulate true a b).toNat = (a.toNat + b.toNat) / 2 ∧
    (accumulate a b).toNat = a.toNat + b.toNat) ∧
  (∀ (s : State) (T : Nat) (forced : Bool),
    let base : PerChannel (Vector (BitVec 32) FL) :=
      if s.avgcnt = 0 then ⟨Vector.replicate FL 0, Vector.replicate FL 0⟩ else s.acc
    let acc : PerChannel (Vector (BitVec 32) FL) := .tabulate fun ch => Vector.ofFn fun k : Fin FL =>
      if k.val < s.act.pos.toNat then
        let b := storeRead s ch ((T : Int) - s.act.pos.toNat + k.val * ((s.act.skip.toNat : Int) + 1))
        if s.act.halve = true then BitVec.ofNat 32 (((base.get ch)[k].toNat + b.toNat) / 2)
        else BitVec.ofNat 32 ((base.get ch)[k].toNat + b.toNat)
      else if k.val = s.act.pos.toNat then BitVec.ofNat 32 ((base.get ch)[k].toNat + (storeRead s ch T).toNat)
      else (base.get ch)[k]
    let t : State := { s with
      cstate := .accumulating, trigIdx := T, forced := (s.avgcnt != 0 && s.forced) || forced, acc := acc
      pix := s.act.pos + 1, skipcnt := s.act.skip }
    startCaptureAverage T forced s = if s.act.pos.toNat + 1 = FL then occurrenceComplete t else t) ∧
  (∀ (s : State) (i : Nat),
    let acc : PerChannel (Vector (BitVec 32) FL) := .tabulate fun ch => Vector.ofFn fun k : Fin FL =>
      if k.val = s.pix.toNat then BitVec.ofNat 32 ((s.acc.get ch)[k].toNat + (storeRead s ch i).toNat)
      else (s.acc.get ch)[k]
    let t : State := { s with acc := acc, pix := s.pix + 1, skipcnt := s.act.skip }
    accumulateStep i s =
      if s.skipcnt ≠ 0 then { s with skipcnt := s.skipcnt - 1 }
      else if s.pix.toNat + 1 = FL then occurrenceComplete t else t) ∧
  ∀ s : State, s.avgcnt < s.act.numavg →
    occurrenceComplete s =
      if s.avgcnt.toNat + 1 < s.act.numavg.toNat then { s with cstate := .idle, avgcnt := s.avgcnt + 1 }
      else publish
        (.tabulate fun ch => Vector.ofFn fun k : Fin FL =>
          BitVec.ofNat 12 ((s.acc.get ch)[k].toNat / s.act.numavg.toNat))
        { s with cstate := .averaging, acc := ⟨Vector.replicate FL 0, Vector.replicate FL 0⟩, avgcnt := 0 }

/-- R171-R176: with equal weighting one trigger occurrence adds the frame of its trigger to the accumulators, zeroed first in
a new cycle; it ends armed, or, as the cycle's last, publishes the floor mean and leaves the accumulators zero. Stated for an
occurrence that reads one store. -/
def Obligations.OccurrenceAddsItsFrame : Prop :=
  ∀ (s : State) (T : Nat) (forced : Bool), Inv s → s.cstate = .idle → s.act.mode = .average → s.act.halve = false →
    let base : PerChannel (Vector (BitVec 32) FL) :=
      if s.avgcnt = 0 then ⟨Vector.replicate FL 0, Vector.replicate FL 0⟩ else s.acc
    let sum : PerChannel (Vector (BitVec 32) FL) := .tabulate fun ch => Vector.ofFn fun k : Fin FL =>
      BitVec.ofNat 32 ((base.get ch)[k].toNat + (storeRead s ch (pixelIndex s.act T k.val)).toNat)
    let u : State := { s with
      trigIdx := T, forced := (s.avgcnt != 0 && s.forced) || forced, pix := 319, skipcnt := s.act.skip }
    captureScan T forced s =
      if s.avgcnt.toNat + 1 < s.act.numavg.toNat then { u with cstate := .idle, acc := sum, avgcnt := s.avgcnt + 1 }
      else publish
        (.tabulate fun ch => Vector.ofFn fun k : Fin FL =>
          BitVec.ofNat 12 ((sum.get ch)[k].toNat / s.act.numavg.toNat))
        { u with cstate := .averaging, acc := ⟨Vector.replicate FL 0, Vector.replicate FL 0⟩, avgcnt := 0 }

/-- R177: with equal weighting the frame of an accumulation cycle is the sample-wise mean, rounded down, of the Normal-mode
frames of its `A_NUMAVG` triggers, each read from the store of its own occurrence. -/
def Obligations.AveragedFrameIsTheFloorMean : Prop :=
  ∀ (s : State) (os : List Occurrence), Inv s → s.cstate = .idle → s.act.mode = .average → s.act.halve = false →
    s.avgcnt = 0 → s.run = true → os.length = s.act.numavg.toNat →
    ∃ r : FrameRecord, (captureCycle os s).frameOut = s.frameOut ++ [r] ∧
      r.mode = .average ∧ r.seq = s.frameseq ∧ r.chen = s.act.chen ∧
      r.forced = os.any (·.forced) ∧ (∀ o, os.getLast? = some o → r.trig = o.index) ∧
      ∀ ch (k : Nat) (h : k < FL), ((r.data.get ch)[k]).toNat = frameSum s ch k os / s.act.numavg.toNat

/-- R159, R178: away from a cycle boundary the latch does nothing, and a code step keeps the active set unless it publishes,
which ends at a boundary. -/
def Obligations.ConfigurationHoldsThroughACycle : Prop :=
  (∀ s : State, atBoundary s = false → latchIfBoundary s = s) ∧
  ∀ (i : Nat) (s : State) (fired : Bool), atBoundary s = false →
    (codeStep i (s, fired)).1.act = s.act ∨
    (atBoundary (codeStep i (s, fired)).1 = true ∧
      (codeStep i (s, fired)).1.act = latchedCfg s.pend s.vtab s.htab)

/-- R28: the active set is written by the latch alone: a step keeps it or leaves the latched pending set and rows. -/
def Obligations.ActiveSetIsKeptOrLatched : Prop :=
  ∀ s t : State, step s = .next t → t.act = s.act ∨ t.act = latchedCfg s.pend s.vtab s.htab

/-- R247: the latch copies every pending register and reads the selected rows, at a boundary only, and writes nothing else. -/
def Obligations.LatchCopiesPendingAndRows : Prop :=
  ∀ s : State,
    latchIfBoundary s = (if s.cstate = .idle ∧ s.avgcnt = 0 then latch s else s) ∧
    latch s = { s with act := (latch s).act } ∧
    (let a := (latch s).act
     let p := s.pend
     a.vscale = p.vscale ∧ a.hscale = p.hscale ∧ a.level = p.level ∧ a.edge = p.edge ∧ a.src = p.src ∧ a.pos = p.pos ∧
     a.mode = p.mode ∧ a.chen = p.chen ∧ a.numavg = p.numavg ∧ a.halve = p.halve ∧ a.frThresh = p.frThresh ∧
     a.frCap = p.frCap ∧ a.frEn = p.frEn ∧ a.yMin = p.yMin ∧ a.yMax = p.yMax) ∧
    (∀ ch row, s.vtab[(s.pend.vscale.get ch).toNat]? = some row →
      (latch s).act.div.get ch = row.div ∧ (latch s).act.mvpp.get ch = row.mvpp ∧
      (latch s).act.mid.get ch = row.mid.get ch) ∧
    ∀ row, s.htab[s.pend.hscale.toNat]? = some row →
      (latch s).act.skip = row.skip ∧ (latch s).act.sppn = row.sppn ∧ (latch s).act.sppd = row.sppd

/-- R157, with R194-R196 and R220: with RUN = 0 a frame is discarded; with RUN = 1 its records are appended, FRAME_OUT then
SEG_OUT (the erases, then the draws) then MEAS_OUT (the frame's measurement of each enabled channel, with that channel's updated
estimate set), the rendered coordinates, the estimate sets, the last-frame state and the sequence number are written, a disabled
channel's coordinates and set staying as they were; either way the engine is Idle and the latch runs. -/
def Obligations.PublishDeliversOrDiscards : Prop :=
  ∀ (s : State) (frame : PerChannel Frame),
    let upd : Channel → FreqUpdate := fun ch =>
      freqSetUpdate (s.fset.get ch) (s.fcnt.get ch) (freqEstimate s.act (frame.get ch))
    let draws : Channel → List SegRecord := fun ch =>
      if s.act.chen.get ch = true then drawTrace s.act ch (frame.get ch) else []
    let meas : Channel → List MeasRecord := fun ch =>
      if s.act.chen.get ch = true then [measRecord s.act ch (frame.get ch) s.frameseq (upd ch)] else []
    publish frame s = latchIfBoundary (
      if s.run = false then { s with cstate := .idle }
      else { s with
        cstate := .idle
        out := s.out ++ [.frame ⟨s.frameseq, s.act.mode, s.act.chen, s.forced, s.trigIdx, frame⟩] ++
          (eraseTrace s .ch1 ++ eraseTrace s .ch2 ++ draws .ch1 ++ draws .ch2).map .seg ++
          (meas .ch1 ++ meas .ch2).map .meas
        ry := .tabulate fun ch =>
          if s.act.chen.get ch = true then
            Vector.ofFn fun k : Fin FL => clampY s.act (mapY s.act ch (frame.get ch)[k])
          else s.ry.get ch
        ryValid := s.act.chen
        fset := .tabulate fun ch => if s.act.chen.get ch = true then (upd ch).set else s.fset.get ch
        fcnt := .tabulate fun ch => if s.act.chen.get ch = true then (upd ch).cnt else s.fcnt.get ch
        lfValid := true
        lfData := frame
        lfChen := s.act.chen
        frameseq := s.frameseq + 1 })

/-- R39, R90: FRAMESEQ counts the frames delivered, modulo 2^32, and every frame record carries the count before it; it holds
at reset and every step keeps it. -/
def Obligations.FrameSeqCountsTheFrames : Prop :=
  (∀ p : Params, SequenceNumbered (State.resetWith p)) ∧
  ∀ s t : State, SequenceNumbered s → step s = .next t → SequenceNumbered t

/-- R250: the run/stop control does not touch decode, store, trigger, capture or accumulation: two states that differ in RUN
and in what a delivered frame writes differ in no more after a POLL. -/
def Obligations.RunDoesNotTouchCapture : Prop :=
  ∀ s t : State, SameCapture s t → SameCapture (poll s) (poll t)

/-- R44: the output streams are empty at reset and only appended to, and only a POLL appends. -/
def Obligations.OutputsAreAppendOnly : Prop :=
  (∀ p : Params, (State.resetWith p).frameOut = [] ∧ (State.resetWith p).segOut = [] ∧ (State.resetWith p).measOut = []) ∧
  ∀ s t : State, step s = .next t →
    (∃ f g m, t.frameOut = s.frameOut ++ f ∧ t.segOut = s.segOut ++ g ∧ t.measOut = s.measOut ++ m) ∧
    (∀ e rest, s.inputs = e :: rest → e ≠ .poll → t.out = s.out)

/-! ## Viewport -/

/-- R190-R192: MAP_Y, the class of a coordinate (BELOW tested first) and its clamp, which is `clamp` whenever the band is not
empty. -/
def Obligations.CoordinatesAreClassifiedAndClamped : Prop :=
  ∀ (a : ActiveCfg) (y : Int),
    (∀ ch (c : Code), mapY a ch c = (a.mid.get ch).toInt - ((c.toNat / (a.div.get ch).toNat : Nat) : Int)) ∧
    classify a y = (if y < a.yMin.toInt then .below else if a.yMax.toInt < y then .above else .inRange) ∧
    (clampY a y).toInt = (if y < a.yMin.toInt then a.yMin.toInt else if a.yMax.toInt < y then a.yMax.toInt else y) ∧
    (a.yMin.toInt ≤ a.yMax.toInt → (clampY a y).toInt = clampInt y a.yMin.toInt a.yMax.toInt)

/-- R191, R193, R198: the class numbers IN 0, BELOW 1, ABOVE 2, the outcome numbers made of them, and that each of the nine is
reached by two codes of {2048, 4095, 0} under the configuration R198 names. -/
def Obligations.NineOutcomesAreReached : Prop :=
  (ClampClass.inRange.code = 0 ∧ ClampClass.below.code = 1 ∧ ClampClass.above.code = 2) ∧
  (∀ (a : ActiveCfg) (p q : Int),
    (outcome a p q).toNat = 3 * (classify a p).code + (classify a q).code ∧ (outcome a p q).toNat ≤ 8) ∧
  ∀ (a : ActiveCfg) (ch : Channel), a.mid.get ch = 247 → a.div.get ch = 16 → a.yMin = 0 → a.yMax = 239 →
    mapY a ch 2048 = 119 ∧ mapY a ch 4095 = -8 ∧ mapY a ch 0 = 247 ∧
    classify a 119 = .inRange ∧ classify a (-8) = .below ∧ classify a 247 = .above ∧
    ∀ o < 9, ∃ p ∈ ([2048, 4095, 0] : List Code), ∃ q ∈ ([2048, 4095, 0] : List Code),
      (outcome a (mapY a ch p) (mapY a ch q)).toNat = o

/-- R195-R197: one trace is 318 segments; the one of column `c` joins the clamped coordinates of columns `c − 1` and `c`. -/
def Obligations.ATraceIs318Segments : Prop :=
  ∀ (a : ActiveCfg) (ch : Channel) (f : Frame),
    (drawTrace a ch f).length = 318 ∧
    ∀ (c : Nat) (h : c + 1 < FL), (drawTrace a ch f)[c]? =
      some ⟨.draw, ch, c + 1, clampY a (mapY a ch f[c]), clampY a (mapY a ch f[c + 1]),
        outcome a (mapY a ch f[c]) (mapY a ch f[c + 1])⟩

/-- R194, R196: after a frame has been mapped, the next erase removes exactly the segments the frame drew, for a channel that
was enabled, and nothing for a channel that was not. -/
def Obligations.EraseRemovesWhatWasDrawn : Prop :=
  ∀ (s : State) (frame : PerChannel Frame) (ch : Channel),
    ((viewportMap frame s).ryValid.get ch = s.act.chen.get ch) ∧
    eraseTrace (viewportMap frame s) ch =
      if s.act.chen.get ch = true then
        (drawTrace s.act ch (frame.get ch)).map fun r => { r with kind := .erase, outcome := 15 }
      else []

/-! ## Measurement -/

/-- R210, R211: a record's amplitude is the minimum, the maximum and their difference over the frame, and its voltages are
those codes relative to 2048 times mV-per-pixel over the divider. -/
def Obligations.AmplitudeOfARecord : Prop :=
  ∀ (a : ActiveCfg) (ch : Channel) (f : Frame) (seq : BitVec 32) (u : FreqUpdate),
    let r := measRecord a ch f seq u
    (∃ (k : Nat) (h : k < FL), f[k].toNat = r.min) ∧ (∀ (k : Nat) (h : k < FL), r.min ≤ f[k].toNat) ∧
    (∃ (k : Nat) (h : k < FL), f[k].toNat = r.max) ∧ (∀ (k : Nat) (h : k < FL), f[k].toNat ≤ r.max) ∧
    r.p2p + r.min = r.max ∧ r.p2p ≤ 4095 ∧
    r.minMv = ((r.min : ℚ) - 2048) * (a.mvpp.get ch).toNat / (a.div.get ch).toNat ∧
    r.maxMv = ((r.max : ℚ) - 2048) * (a.mvpp.get ch).toNat / (a.div.get ch).toNat ∧
    r.p2pMv = (r.p2p : ℚ) * (a.mvpp.get ch).toNat / (a.div.get ch).toNat

/-- R212, R213: the crossings are the indices at which the frame passes the code of its 4th sample, half-open, in the
direction of the trigger edge, ascending; a constant frame has none. -/
def Obligations.CrossingsAreHalfOpen : Prop :=
  (∀ (f : Frame) (k : Nat) (h : k + 1 < FL),
    (k + 1 ∈ crossings .rising f ↔ f[k].toNat < f[3].toNat ∧ f[3].toNat ≤ f[k + 1].toNat) ∧
    (k + 1 ∈ crossings .falling f ↔ f[3].toNat < f[k].toNat ∧ f[k + 1].toNat ≤ f[3].toNat)) ∧
  (∀ (e : Edge) (f : Frame), (crossings e f).Pairwise (· < ·) ∧ (crossings e f).length ≤ 318 ∧
    ∀ k ∈ crossings e f, 1 ≤ k ∧ k < FL) ∧
  ∀ (e : Edge) (c : Code), crossings e (Vector.replicate FL c) = []

/-- R214: the bins hold the differences of successive crossings from bin 0 on and 0 after them; there are at most 317, so none
is dropped, and each is at least 1. -/
def Obligations.IntervalsFitTheBins : Prop :=
  ∀ (e : Edge) (f : Frame),
    let xs := crossings e f
    (intervalBins xs).length = TIME_AVG ∧ (intervals xs).length ≤ 317 ∧ (intervals xs).length = xs.length - 1 ∧
    (∀ (j x y : Nat), xs[j]? = some x → xs[j + 1]? = some y → (intervalBins xs)[j]? = some (y - x) ∧ 1 ≤ y - x) ∧
    ∀ j, xs.length - 1 ≤ j → j < TIME_AVG → (intervalBins xs)[j]? = some 0

/-- R215, R216: what is kept is the nonzero bins within half and one and a half of their mean, both bounds included. -/
def Obligations.OutlierBandIsClosed : Prop :=
  ∀ (bins : List Nat),
    (firstMean bins = none ↔ ∀ b ∈ bins, b = 0) ∧
    ∀ mean1 : ℚ, firstMean bins = some mean1 →
      mean1 = ((bins.filter (· ≠ 0)).sum : ℚ) / ((bins.filter (· ≠ 0)).length : ℚ) ∧
      outlierReject bins =
        bins.filter fun b : Nat => decide (b ≠ 0) && decide (1 / 2 * mean1 ≤ (b : ℚ)) && decide ((b : ℚ) ≤ 3 / 2 * mean1)

/-- R215, R217-R219: with a legal seconds-per-pixel constant an estimate is positive and is `m2·SPPD / (S2·SPPN)` of the kept
intervals; there is none exactly when no interval is kept. -/
def Obligations.EstimateIsTheReciprocalMean : Prop :=
  ∀ (a : ActiveCfg) (f : Frame), a.sppn ≠ 0 → a.sppd ≠ 0 →
    let keep := outlierReject (intervalBins (crossings a.edge f))
    (freqEstimate a f = none ↔ keep = []) ∧
    ∀ est, freqEstimate a f = some est →
      0 < est ∧ est = ((keep.length : ℚ) * a.sppd.toNat) / ((keep.sum : ℚ) * a.sppn.toNat)

/-- R221: an estimate fills the next entry, 0 for none; the tenth reports the mean of the nonzero entries, if there is one,
and clears the set; no other call reports. -/
def Obligations.EstimateSetReportsEveryTenth : Prop :=
  ∀ (set : Vector ℚ MEASURE_AVG) (cnt : BitVec 4) (est : Option ℚ),
    (∀ h : cnt.toNat < 9, freqSetUpdate set cnt est =
      ⟨set.set cnt.toNat (est.getD 0) (by show cnt.toNat < 10; omega), cnt + 1, false, 0⟩) ∧
    (cnt = 9 →
      let nz := ((set.toList.take 9) ++ [est.getD 0]).filter (· ≠ 0)
      freqSetUpdate set cnt est =
        ⟨Vector.replicate MEASURE_AVG 0, 0, decide (nz ≠ []), if nz = [] then 0 else nz.sum / (nz.length : ℚ)⟩)

/-! ## Consumer, producer, read port -/

/-- R240: a POLL processes slot 0 and then slot 1, each if its flag is set, and clears the flag; an idle POLL changes nothing;
after any POLL both flags are clear and the mailbox data are as they were. -/
def Obligations.PollConsumesBothSlots : Prop :=
  ∀ s : State,
    ((s.mbox.get .ping).flag = false → (s.mbox.get .pong).flag = false → poll s = s) ∧
    ((s.mbox.get .ping).flag = true → (s.mbox.get .pong).flag = false →
      poll s = { processPass (s.mbox.get .ping).data s with
        mbox := ⟨⟨(s.mbox.get .ping).data, false⟩, s.mbox.get .pong⟩ }) ∧
    ((s.mbox.get .ping).flag = false → (s.mbox.get .pong).flag = true →
      poll s = { processPass (s.mbox.get .pong).data s with
        mbox := ⟨s.mbox.get .ping, ⟨(s.mbox.get .pong).data, false⟩⟩ }) ∧
    ((s.mbox.get .ping).flag = true → (s.mbox.get .pong).flag = true →
      poll s = { processPass (s.mbox.get .pong).data { processPass (s.mbox.get .ping).data s with
          mbox := ⟨⟨(s.mbox.get .ping).data, false⟩, s.mbox.get .pong⟩ } with
        mbox := ⟨⟨(s.mbox.get .ping).data, false⟩, ⟨(s.mbox.get .pong).data, false⟩⟩ }) ∧
    ∀ k, (poll s).mbox.get k = ⟨(s.mbox.get k).data, false⟩

/-- R241, R242: a pass latches at a boundary, stores its whole block, steps its codes in ascending index, accounts the miss and
checks free-run; a code goes to the one action its capture state names. -/
def Obligations.PassRunsInOrder : Prop :=
  (∀ (words : List RawWord) (s : State),
    let p := codeSteps s.wp s.par.n (decodeBlock words (latchIfBoundary s), false)
    processPass words s = forceFire p.2 (s.wp + s.par.n - 1) (missAccount p.2 p.1)) ∧
  (∀ (b n : Nat) (p : State × Bool), codeSteps b 0 p = p ∧ codeSteps b (n + 1) p = codeStep (b + n) (codeSteps b n p)) ∧
  ∀ (i : Nat) (s : State) (fired : Bool),
    (s.cstate = .idle → triggered i s = true → codeStep i (s, fired) = (startCapture i false { s with miss := 0 }, true)) ∧
    (s.cstate = .idle → triggered i s = false → codeStep i (s, fired) = (s, fired)) ∧
    (s.cstate = .filling → codeStep i (s, fired) = (fillStep i s, fired)) ∧
    (s.cstate = .accumulating → codeStep i (s, fired) = (accumulateStep i s, fired))

/-- R22, R47, R65: a POLL writes no pending register, table, RUN or sticky bit, and no code outside the blocks it appends: a
pass over a block of N words leaves every slot outside `WP .. WP + N − 1` as it was. -/
def Obligations.PollWritesOnlyConsumerState : Prop :=
  (∀ s : State, OnlyConsumerWrites s (poll s)) ∧
  ∀ (s : State) (words : List RawWord), words.length = s.par.n →
    ∀ (ch : Channel) (p : Nat), p < s.wp ∨ s.wp + s.par.n ≤ p →
      ((processPass words s).store.get ch).read p = (s.store.get ch).read p

/-- R245, R303: a delivery into an empty slot stores its words and raises the flag; into a full slot it sets OVR and leaves N
words of which nothing is known, with the flag still raised. Nothing else of the spec's state changes. -/
def Obligations.DeliverFillsOrOverruns : Prop :=
  ∀ (s : State) (k : Slot) (words : List RawWord), words.length = s.par.n →
    ((s.mbox.get k).flag = false →
      deliverStep k words s = .next { s with mbox := s.mbox.set k ⟨words, true⟩ }) ∧
    ((s.mbox.get k).flag = true →
      ∃ drawn : List RawWord, drawn.length = s.par.n ∧ deliverStep k words s =
        .next { s with mbox := s.mbox.set k ⟨drawn, true⟩, ovr := true, draws := s.draws + s.par.n })

/-- R45, R46: every field of the register map is where the map puts it, every other bit reads 0, and an address beyond the map
reads 0. `WP` and `TRIG_IDX` are stated below 2^32 only. -/
def Obligations.ReadPortShowsTheMap : Prop :=
  ∀ s : State,
    (∀ a : BitVec 8, readPort s a &&& ~~~(listedBits a) = 0) ∧ (∀ a : BitVec 8, 0x17 ≤ a.toNat → readPort s a = 0) ∧
    ((readPort s 0x00).extractLsb' 0 3 = s.cstate.code ∧ (readPort s 0x00).extractLsb' 3 1 = modeBit s.act.mode ∧
      (readPort s 0x00).getLsbD 4 = s.run ∧ (readPort s 0x00).getLsbD 5 = s.lfValid ∧
      (readPort s 0x00).getLsbD 6 = s.forced ∧ (readPort s 0x00).getLsbD 8 = s.ovr ∧
      (readPort s 0x00).getLsbD 9 = s.cfgerr ∧ (readPort s 0x00).getLsbD 10 = s.cmderr ∧
      (readPort s 0x00).getLsbD 16 = s.mbox.ping.flag ∧ (readPort s 0x00).getLsbD 17 = s.mbox.pong.flag) ∧
    ((s.wp < 2 ^ 32 → (readPort s 0x01).toNat = s.wp) ∧ (s.trigIdx < 2 ^ 32 → (readPort s 0x02).toNat = s.trigIdx) ∧
      (readPort s 0x03).extractLsb' 0 9 = s.pix ∧ (readPort s 0x03).extractLsb' 16 16 = s.skipcnt ∧
      (readPort s 0x04).extractLsb' 0 16 = s.miss ∧ (readPort s 0x04).extractLsb' 16 16 = s.avgcnt ∧
      readPort s 0x05 = s.frameseq) ∧
    ((readPort s 0x06).extractLsb' 0 12 = s.act.level ∧ (readPort s 0x06).extractLsb' 16 9 = s.act.pos ∧
      (readPort s 0x06).extractLsb' 26 1 = channelBit s.act.src ∧ (readPort s 0x06).extractLsb' 27 1 = edgeBit s.act.edge ∧
      (readPort s 0x07).extractLsb' 0 12 = s.pend.level ∧ (readPort s 0x07).extractLsb' 16 9 = s.pend.pos ∧
      (readPort s 0x07).extractLsb' 26 1 = channelBit s.pend.src ∧
      (readPort s 0x07).extractLsb' 27 1 = edgeBit s.pend.edge) ∧
    ((readPort s 0x08).extractLsb' 0 7 = s.act.vscale.ch1 ∧ (readPort s 0x08).extractLsb' 8 7 = s.act.vscale.ch2 ∧
      (readPort s 0x08).extractLsb' 16 7 = s.act.hscale ∧ (readPort s 0x08).getLsbD 24 = s.act.chen.ch1 ∧
      (readPort s 0x08).getLsbD 25 = s.act.chen.ch2 ∧ (readPort s 0x08).extractLsb' 28 1 = modeBit s.act.mode ∧
      (readPort s 0x09).extractLsb' 0 7 = s.pend.vscale.ch1 ∧ (readPort s 0x09).extractLsb' 8 7 = s.pend.vscale.ch2 ∧
      (readPort s 0x09).extractLsb' 16 7 = s.pend.hscale ∧ (readPort s 0x09).getLsbD 24 = s.pend.chen.ch1 ∧
      (readPort s 0x09).getLsbD 25 = s.pend.chen.ch2 ∧ (readPort s 0x09).extractLsb' 28 1 = modeBit s.pend.mode) ∧
    ((readPort s 0x0A).extractLsb' 0 16 = s.act.numavg ∧ (readPort s 0x0A).getLsbD 16 = s.act.halve ∧
      (readPort s 0x0B).extractLsb' 0 16 = s.pend.numavg ∧ (readPort s 0x0B).getLsbD 16 = s.pend.halve ∧
      (readPort s 0x0C).extractLsb' 0 16 = s.act.frThresh ∧ (readPort s 0x0C).extractLsb' 16 16 = s.act.frCap ∧
      (readPort s 0x0D).extractLsb' 0 16 = s.pend.frThresh ∧ (readPort s 0x0D).extractLsb' 16 16 = s.pend.frCap ∧
      (readPort s 0x0E).getLsbD 0 = s.act.frEn ∧ (readPort s 0x0E).getLsbD 1 = s.pend.frEn) ∧
    ((readPort s 0x0F).extractLsb' 0 16 = s.act.yMin ∧ (readPort s 0x0F).extractLsb' 16 16 = s.act.yMax ∧
      (readPort s 0x10).extractLsb' 0 16 = s.pend.yMin ∧ (readPort s 0x10).extractLsb' 16 16 = s.pend.yMax ∧
      (readPort s 0x11).extractLsb' 0 16 = s.act.div.ch1 ∧ (readPort s 0x11).extractLsb' 16 16 = s.act.mvpp.ch1 ∧
      (readPort s 0x12).extractLsb' 0 16 = s.act.div.ch2 ∧ (readPort s 0x12).extractLsb' 16 16 = s.act.mvpp.ch2 ∧
      (readPort s 0x13).extractLsb' 0 16 = s.act.mid.ch1 ∧ (readPort s 0x13).extractLsb' 16 16 = s.act.mid.ch2) ∧
    ((readPort s 0x14).extractLsb' 0 16 = s.act.skip ∧ (readPort s 0x15).extractLsb' 0 16 = s.act.sppn ∧
      (readPort s 0x15).extractLsb' 16 16 = s.act.sppd ∧ (readPort s 0x16).extractLsb' 0 4 = s.fcnt.ch1 ∧
      (readPort s 0x16).extractLsb' 8 4 = s.fcnt.ch2)

/-! ## Reset and invariants -/

/-- R330, R331: reset, for every choice of the parameters; the mailbox data, which the spec leaves unspecified, are not
spoken of. -/
def Obligations.ResetHoldsTheSpecValues : Prop :=
  ∀ p : Params,
    let s := State.resetWith p
    (∀ ch x, storeRead s ch x = 0) ∧ s.wp = 0 ∧ (∀ k, (s.mbox.get k).flag = false) ∧
    (s.pend.vscale = ⟨0, 0⟩ ∧ s.pend.hscale = 0 ∧ s.pend.level = 2048 ∧ s.pend.edge = .rising ∧ s.pend.src = .ch1 ∧
      s.pend.pos = 0 ∧ s.pend.mode = .normal ∧ s.pend.chen = ⟨true, true⟩ ∧ s.pend.numavg = p.numAvgInit ∧
      s.pend.halve = false ∧ s.pend.frThresh = 10 ∧ s.pend.frCap = 20 ∧ s.pend.frEn = true ∧
      s.pend.yMin = p.yMinInit ∧ s.pend.yMax = p.yMaxInit) ∧
    s.vtab = p.vtabInit ∧ s.htab = p.htabInit ∧ latch s = s ∧ s.run = true ∧ s.cstate = .idle ∧ s.trigIdx = 0 ∧
    s.forced = false ∧ s.pix = 0 ∧ s.skipcnt = 0 ∧
    (∀ ch, s.framebuf.get ch = Vector.replicate FL 0 ∧ s.acc.get ch = Vector.replicate FL 0 ∧
      s.lfData.get ch = Vector.replicate FL 0 ∧ s.lfChen.get ch = false ∧ s.ry.get ch = Vector.replicate FL 0 ∧
      s.ryValid.get ch = false ∧ s.fset.get ch = Vector.replicate MEASURE_AVG 0 ∧ s.fcnt.get ch = 0) ∧
    s.avgcnt = 0 ∧ s.miss = 0 ∧ s.lfValid = false ∧ s.frameseq = 0 ∧ s.ovr = false ∧ s.cfgerr = false ∧
    s.cmderr = false ∧ s.frameOut = [] ∧ s.segOut = [] ∧ s.measOut = []

/-- R9, R48: a core built with legal parameters starts in a legal state. -/
def Obligations.LegalParametersStartLegal : Prop :=
  ∀ p : Params, p.legal = true → Inv (State.resetWith p)

/-- R48 (with R9, R22-R41): every step keeps the invariant of the machine, whose `SKIPCNT ≤ A_SKIP` is stated for every state
but a capture-cycle boundary; and a step keeps that line at a boundary too, unless it leaves a lower A_SKIP, which only a latch
can (log entry 9). -/
def Obligations.StepKeepsInv : Prop :=
  ∀ s t : State, Inv s → step s = .next t →
    Inv t ∧ (s.skipcnt ≤ s.act.skip → s.act.skip ≤ t.act.skip → t.skipcnt ≤ t.act.skip)

/-- R34, R173: an accumulator entry never exceeds 4095 for each occurrence summed in it, which is below 2^28: it holds at reset
and every step keeps it. -/
def Obligations.AccumulatorsNeverWrap : Prop :=
  (∀ p : Params, AccBounded (State.resetWith p)) ∧
  (∀ s t : State, Inv s → AccBounded s → step s = .next t → AccBounded t) ∧
  ∀ s : State, Inv s → AccBounded s → ∀ ch (k : Nat) (h : k < FL), ((s.acc.get ch)[k]).toNat < 2 ^ 28

/-- R248, R303: a schedule of whole blocks that keeps the throughput obligation runs to its end without setting OVR. -/
def Obligations.ThroughputKeepsOvrClear : Prop :=
  ∀ s : State, wholeBlocks s.par.n s.inputs = true → keepsThroughput (mailFlags s) s.inputs = true → s.ovr = false →
    ∃ t, runSteps s.inputs.length s = .next t ∧ t.ovr = false

/-- R48's `SKIPCNT ≤ A_SKIP` between all steps, which does not follow from the rules that write the two: a latch in Idle can
lower A_SKIP while SKIPCNT keeps the value of the last capture (log entry 9). Expected to fail. -/
def Obligations.SkipcntNeverAboveSkip : Prop :=
  ∀ s t : State, Inv s → s.skipcnt ≤ s.act.skip → step s = .next t → t.skipcnt ≤ t.act.skip
end

