-- ==== Sys2Proof/Laws/Memory.lean ====
section
/-! SUPPORT. The laws of one channel's store: a read after a write, and that a write keeps the canonical form and the range
of the slots. -/

namespace Sys2Proof.Machine

@[simp] theorem Memory.read_nil (a : Nat) : Memory.read [] a = Memory.blank := rfl

@[simp] theorem Memory.read_cons (b : Nat) (v : Code) (m : Memory) (a : Nat) :
    Memory.read ((b, v) :: m) a = if a = b then v else Memory.read m a := rfl

@[simp] theorem Memory.wf_nil : Memory.wf [] = true := rfl

@[simp] theorem Memory.wf_cons (b : Nat) (v : Code) (m : Memory) :
    Memory.wf ((b, v) :: m) = true ↔ (∀ c ∈ m, b < c.1) ∧ v ≠ Memory.blank ∧ Memory.wf m = true := by
  simp [Memory.wf, and_assoc]

/-- A slot below every listed slot reads as blank. -/
theorem Memory.read_of_lt {m : Memory} {a : Nat} (h : ∀ c ∈ m, a < c.1) : m.read a = Memory.blank := by
  induction m with
  | nil => rfl
  | cons c m ih =>
    obtain ⟨b, v⟩ := c
    have hb : a < b := h (b, v) (by simp)
    simp only [Memory.read_cons, if_neg (Nat.ne_of_lt hb)]
    exact ih fun c hc => h c (by simp [hc])

/-- A write lists no slot but the written one and those listed before. -/
theorem Memory.mem_write {m : Memory} {a : Nat} {v : Code} {c : StoreCell} (h : c ∈ m.write a v) :
    c = (a, v) ∨ c ∈ m := by
  induction m with
  | nil => by_cases hv : v = Memory.blank <;> simp_all [Memory.write]
  | cons d m ih =>
    obtain ⟨b, w⟩ := d
    unfold Memory.write at h
    by_cases hlt : a < b
    · by_cases hv : v = Memory.blank <;> simp_all
    · by_cases heq : a = b
      · by_cases hv : v = Memory.blank <;> simp_all
        rcases h with h | h <;> simp [h]
      · simp only [if_neg hlt, if_neg heq, List.mem_cons] at h
        rcases h with h | h
        · simp [h]
        · rcases ih h with h | h <;> simp [h]

/-- A write keeps the canonical form. -/
theorem Memory.wf_write {m : Memory} (h : m.wf = true) (a : Nat) (v : Code) : (m.write a v).wf = true := by
  induction m with
  | nil => by_cases hv : v = Memory.blank <;> simp [Memory.write, hv]
  | cons d m ih =>
    obtain ⟨b, w⟩ := d
    obtain ⟨hb, hw, hm⟩ := (Memory.wf_cons b w m).1 h
    unfold Memory.write
    by_cases hlt : a < b
    · by_cases hv : v = Memory.blank
      · simpa [hlt, hv] using h
      · simp only [if_pos hlt, if_neg hv, Memory.wf_cons, List.mem_cons]
        refine ⟨?_, hv, hb, hw, hm⟩
        rintro c (rfl | hc)
        · exact hlt
        · exact hlt.trans (hb c hc)
    · by_cases heq : a = b
      · by_cases hv : v = Memory.blank
        · simpa [heq, hv] using hm
        · subst heq
          simpa [hv] using ⟨fun x y hxy => hb (x, y) hxy, hm⟩
      · simp only [if_neg hlt, if_neg heq, Memory.wf_cons]
        refine ⟨fun c hc => ?_, hw, ih hm⟩
        rcases Memory.mem_write hc with rfl | hc
        · show b < a; omega
        · exact hb c hc

/-- A write below the capacity keeps every slot below it. -/
theorem Memory.below_write {m : Memory} {cap a : Nat} (h : m.below cap = true) (ha : a < cap) (v : Code) :
    (m.write a v).below cap = true := by
  simp only [Memory.below, List.all_eq_true, decide_eq_true_eq] at *
  intro c hc
  rcases Memory.mem_write hc with rfl | hc
  · exact ha
  · exact h c hc

/-- A read of another slot is not changed by a write. -/
theorem Memory.read_write_other (m : Memory) {a p : Nat} (v : Code) (h : p ≠ a) : (m.write a v).read p = m.read p := by
  induction m with
  | nil => by_cases hv : v = Memory.blank <;> simp [Memory.write, hv, h]
  | cons d m ih =>
    obtain ⟨b, w⟩ := d
    unfold Memory.write
    by_cases hlt : a < b
    · by_cases hv : v = Memory.blank <;> simp [hlt, hv, h]
    · by_cases heq : a = b
      · subst heq
        by_cases hv : v = Memory.blank <;> simp [hv, h]
      · simp [hlt, heq, ih]

/-- A read of the written slot gives the written code. -/
theorem Memory.read_write_same {m : Memory} (h : m.wf = true) (a : Nat) (v : Code) : (m.write a v).read a = v := by
  induction m with
  | nil => by_cases hv : v = Memory.blank <;> simp [Memory.write, hv]
  | cons d m ih =>
    obtain ⟨b, w⟩ := d
    obtain ⟨hb, hw, hm⟩ := (Memory.wf_cons b w m).1 h
    unfold Memory.write
    by_cases hlt : a < b
    · by_cases hv : v = Memory.blank
      · have : Memory.read m a = Memory.blank := Memory.read_of_lt fun c hc => hlt.trans (hb c hc)
        simp [hlt, hv, Nat.ne_of_lt hlt, this]
      · simp [hlt, hv]
    · by_cases heq : a = b
      · subst heq
        by_cases hv : v = Memory.blank
        · simpa [hv] using Memory.read_of_lt hb
        · simp [hv]
      · simp [hlt, heq, ih hm]

/-- Two canonical stores that read alike are equal data. -/
theorem Memory.ext_read {m m' : Memory} (h : m.wf = true) (h' : m'.wf = true) (hr : ∀ a, m.read a = m'.read a) :
    m = m' := by
  induction m generalizing m' with
  | nil =>
    cases m' with
    | nil => rfl
    | cons d m' =>
      obtain ⟨b, w⟩ := d
      have := hr b
      simp_all
  | cons d m ih =>
    obtain ⟨b, w⟩ := d
    obtain ⟨hb, hw, hm⟩ := (Memory.wf_cons b w m).1 h
    cases m' with
    | nil => have := hr b; simp_all
    | cons d' m' =>
      obtain ⟨b', w'⟩ := d'
      obtain ⟨hb', hw', hm'⟩ := (Memory.wf_cons b' w' m').1 h'
      have hbb : b = b' := by
        rcases Nat.lt_trichotomy b b' with hlt | heq | hgt
        · have h1 := hr b
          simp only [Memory.read_cons, if_neg (Nat.ne_of_lt hlt), if_true,
            Memory.read_of_lt fun c hc => hlt.trans (hb' c hc)] at h1
          exact absurd h1 hw
        · exact heq
        · have h1 := hr b'
          simp only [Memory.read_cons, if_neg (Nat.ne_of_lt hgt), if_true,
            Memory.read_of_lt fun c hc => hgt.trans (hb c hc)] at h1
          exact absurd h1.symm hw'
      subst hbb
      have hww : w = w' := by have := hr b; simpa using this
      subst hww
      have : m = m' := ih hm hm' fun a => by
        by_cases ha : a = b
        · subst ha; rw [Memory.read_of_lt hb, Memory.read_of_lt hb']
        · have := hr a; simpa [ha] using this
      rw [this]

end Sys2Proof.Machine
end

