-- ==== Sys2Proof/Laws/State.lean ====
section
/-! SUPPORT. One lemma per field per update of State, each true by unfolding once, so that no later proof unfolds a record
update. -/

namespace Sys2Proof.Machine

/-! ## setOvr -/

@[simp] theorem setOvr_par (s : State) : (setOvr s).par = s.par := rfl
@[simp] theorem setOvr_store (s : State) : (setOvr s).store = s.store := rfl
@[simp] theorem setOvr_wp (s : State) : (setOvr s).wp = s.wp := rfl
@[simp] theorem setOvr_mbox (s : State) : (setOvr s).mbox = s.mbox := rfl
@[simp] theorem setOvr_pend (s : State) : (setOvr s).pend = s.pend := rfl
@[simp] theorem setOvr_vtab (s : State) : (setOvr s).vtab = s.vtab := rfl
@[simp] theorem setOvr_htab (s : State) : (setOvr s).htab = s.htab := rfl
@[simp] theorem setOvr_act (s : State) : (setOvr s).act = s.act := rfl
@[simp] theorem setOvr_run (s : State) : (setOvr s).run = s.run := rfl
@[simp] theorem setOvr_cstate (s : State) : (setOvr s).cstate = s.cstate := rfl
@[simp] theorem setOvr_trigIdx (s : State) : (setOvr s).trigIdx = s.trigIdx := rfl
@[simp] theorem setOvr_forced (s : State) : (setOvr s).forced = s.forced := rfl
@[simp] theorem setOvr_pix (s : State) : (setOvr s).pix = s.pix := rfl
@[simp] theorem setOvr_skipcnt (s : State) : (setOvr s).skipcnt = s.skipcnt := rfl
@[simp] theorem setOvr_framebuf (s : State) : (setOvr s).framebuf = s.framebuf := rfl
@[simp] theorem setOvr_acc (s : State) : (setOvr s).acc = s.acc := rfl
@[simp] theorem setOvr_avgcnt (s : State) : (setOvr s).avgcnt = s.avgcnt := rfl
@[simp] theorem setOvr_miss (s : State) : (setOvr s).miss = s.miss := rfl
@[simp] theorem setOvr_lfValid (s : State) : (setOvr s).lfValid = s.lfValid := rfl
@[simp] theorem setOvr_lfData (s : State) : (setOvr s).lfData = s.lfData := rfl
@[simp] theorem setOvr_lfChen (s : State) : (setOvr s).lfChen = s.lfChen := rfl
@[simp] theorem setOvr_frameseq (s : State) : (setOvr s).frameseq = s.frameseq := rfl
@[simp] theorem setOvr_ry (s : State) : (setOvr s).ry = s.ry := rfl
@[simp] theorem setOvr_ryValid (s : State) : (setOvr s).ryValid = s.ryValid := rfl
@[simp] theorem setOvr_fset (s : State) : (setOvr s).fset = s.fset := rfl
@[simp] theorem setOvr_fcnt (s : State) : (setOvr s).fcnt = s.fcnt := rfl
@[simp] theorem setOvr_ovr (s : State) : (setOvr s).ovr = true := rfl
@[simp] theorem setOvr_cfgerr (s : State) : (setOvr s).cfgerr = s.cfgerr := rfl
@[simp] theorem setOvr_cmderr (s : State) : (setOvr s).cmderr = s.cmderr := rfl
@[simp] theorem setOvr_out (s : State) : (setOvr s).out = s.out := rfl
@[simp] theorem setOvr_readOut (s : State) : (setOvr s).readOut = s.readOut := rfl
@[simp] theorem setOvr_draws (s : State) : (setOvr s).draws = s.draws := rfl
@[simp] theorem setOvr_inputs (s : State) : (setOvr s).inputs = s.inputs := rfl

/-! ## setCfgerr -/

@[simp] theorem setCfgerr_par (s : State) : (setCfgerr s).par = s.par := rfl
@[simp] theorem setCfgerr_store (s : State) : (setCfgerr s).store = s.store := rfl
@[simp] theorem setCfgerr_wp (s : State) : (setCfgerr s).wp = s.wp := rfl
@[simp] theorem setCfgerr_mbox (s : State) : (setCfgerr s).mbox = s.mbox := rfl
@[simp] theorem setCfgerr_pend (s : State) : (setCfgerr s).pend = s.pend := rfl
@[simp] theorem setCfgerr_vtab (s : State) : (setCfgerr s).vtab = s.vtab := rfl
@[simp] theorem setCfgerr_htab (s : State) : (setCfgerr s).htab = s.htab := rfl
@[simp] theorem setCfgerr_act (s : State) : (setCfgerr s).act = s.act := rfl
@[simp] theorem setCfgerr_run (s : State) : (setCfgerr s).run = s.run := rfl
@[simp] theorem setCfgerr_cstate (s : State) : (setCfgerr s).cstate = s.cstate := rfl
@[simp] theorem setCfgerr_trigIdx (s : State) : (setCfgerr s).trigIdx = s.trigIdx := rfl
@[simp] theorem setCfgerr_forced (s : State) : (setCfgerr s).forced = s.forced := rfl
@[simp] theorem setCfgerr_pix (s : State) : (setCfgerr s).pix = s.pix := rfl
@[simp] theorem setCfgerr_skipcnt (s : State) : (setCfgerr s).skipcnt = s.skipcnt := rfl
@[simp] theorem setCfgerr_framebuf (s : State) : (setCfgerr s).framebuf = s.framebuf := rfl
@[simp] theorem setCfgerr_acc (s : State) : (setCfgerr s).acc = s.acc := rfl
@[simp] theorem setCfgerr_avgcnt (s : State) : (setCfgerr s).avgcnt = s.avgcnt := rfl
@[simp] theorem setCfgerr_miss (s : State) : (setCfgerr s).miss = s.miss := rfl
@[simp] theorem setCfgerr_lfValid (s : State) : (setCfgerr s).lfValid = s.lfValid := rfl
@[simp] theorem setCfgerr_lfData (s : State) : (setCfgerr s).lfData = s.lfData := rfl
@[simp] theorem setCfgerr_lfChen (s : State) : (setCfgerr s).lfChen = s.lfChen := rfl
@[simp] theorem setCfgerr_frameseq (s : State) : (setCfgerr s).frameseq = s.frameseq := rfl
@[simp] theorem setCfgerr_ry (s : State) : (setCfgerr s).ry = s.ry := rfl
@[simp] theorem setCfgerr_ryValid (s : State) : (setCfgerr s).ryValid = s.ryValid := rfl
@[simp] theorem setCfgerr_fset (s : State) : (setCfgerr s).fset = s.fset := rfl
@[simp] theorem setCfgerr_fcnt (s : State) : (setCfgerr s).fcnt = s.fcnt := rfl
@[simp] theorem setCfgerr_ovr (s : State) : (setCfgerr s).ovr = s.ovr := rfl
@[simp] theorem setCfgerr_cfgerr (s : State) : (setCfgerr s).cfgerr = true := rfl
@[simp] theorem setCfgerr_cmderr (s : State) : (setCfgerr s).cmderr = s.cmderr := rfl
@[simp] theorem setCfgerr_out (s : State) : (setCfgerr s).out = s.out := rfl
@[simp] theorem setCfgerr_readOut (s : State) : (setCfgerr s).readOut = s.readOut := rfl
@[simp] theorem setCfgerr_draws (s : State) : (setCfgerr s).draws = s.draws := rfl
@[simp] theorem setCfgerr_inputs (s : State) : (setCfgerr s).inputs = s.inputs := rfl

/-! ## setCmderr -/

@[simp] theorem setCmderr_par (s : State) : (setCmderr s).par = s.par := rfl
@[simp] theorem setCmderr_store (s : State) : (setCmderr s).store = s.store := rfl
@[simp] theorem setCmderr_wp (s : State) : (setCmderr s).wp = s.wp := rfl
@[simp] theorem setCmderr_mbox (s : State) : (setCmderr s).mbox = s.mbox := rfl
@[simp] theorem setCmderr_pend (s : State) : (setCmderr s).pend = s.pend := rfl
@[simp] theorem setCmderr_vtab (s : State) : (setCmderr s).vtab = s.vtab := rfl
@[simp] theorem setCmderr_htab (s : State) : (setCmderr s).htab = s.htab := rfl
@[simp] theorem setCmderr_act (s : State) : (setCmderr s).act = s.act := rfl
@[simp] theorem setCmderr_run (s : State) : (setCmderr s).run = s.run := rfl
@[simp] theorem setCmderr_cstate (s : State) : (setCmderr s).cstate = s.cstate := rfl
@[simp] theorem setCmderr_trigIdx (s : State) : (setCmderr s).trigIdx = s.trigIdx := rfl
@[simp] theorem setCmderr_forced (s : State) : (setCmderr s).forced = s.forced := rfl
@[simp] theorem setCmderr_pix (s : State) : (setCmderr s).pix = s.pix := rfl
@[simp] theorem setCmderr_skipcnt (s : State) : (setCmderr s).skipcnt = s.skipcnt := rfl
@[simp] theorem setCmderr_framebuf (s : State) : (setCmderr s).framebuf = s.framebuf := rfl
@[simp] theorem setCmderr_acc (s : State) : (setCmderr s).acc = s.acc := rfl
@[simp] theorem setCmderr_avgcnt (s : State) : (setCmderr s).avgcnt = s.avgcnt := rfl
@[simp] theorem setCmderr_miss (s : State) : (setCmderr s).miss = s.miss := rfl
@[simp] theorem setCmderr_lfValid (s : State) : (setCmderr s).lfValid = s.lfValid := rfl
@[simp] theorem setCmderr_lfData (s : State) : (setCmderr s).lfData = s.lfData := rfl
@[simp] theorem setCmderr_lfChen (s : State) : (setCmderr s).lfChen = s.lfChen := rfl
@[simp] theorem setCmderr_frameseq (s : State) : (setCmderr s).frameseq = s.frameseq := rfl
@[simp] theorem setCmderr_ry (s : State) : (setCmderr s).ry = s.ry := rfl
@[simp] theorem setCmderr_ryValid (s : State) : (setCmderr s).ryValid = s.ryValid := rfl
@[simp] theorem setCmderr_fset (s : State) : (setCmderr s).fset = s.fset := rfl
@[simp] theorem setCmderr_fcnt (s : State) : (setCmderr s).fcnt = s.fcnt := rfl
@[simp] theorem setCmderr_ovr (s : State) : (setCmderr s).ovr = s.ovr := rfl
@[simp] theorem setCmderr_cfgerr (s : State) : (setCmderr s).cfgerr = s.cfgerr := rfl
@[simp] theorem setCmderr_cmderr (s : State) : (setCmderr s).cmderr = true := rfl
@[simp] theorem setCmderr_out (s : State) : (setCmderr s).out = s.out := rfl
@[simp] theorem setCmderr_readOut (s : State) : (setCmderr s).readOut = s.readOut := rfl
@[simp] theorem setCmderr_draws (s : State) : (setCmderr s).draws = s.draws := rfl
@[simp] theorem setCmderr_inputs (s : State) : (setCmderr s).inputs = s.inputs := rfl

/-! ## clearSticky -/

@[simp] theorem clearSticky_par (mask : BitVec 3) (s : State) : (clearSticky mask s).par = s.par := rfl
@[simp] theorem clearSticky_store (mask : BitVec 3) (s : State) : (clearSticky mask s).store = s.store := rfl
@[simp] theorem clearSticky_wp (mask : BitVec 3) (s : State) : (clearSticky mask s).wp = s.wp := rfl
@[simp] theorem clearSticky_mbox (mask : BitVec 3) (s : State) : (clearSticky mask s).mbox = s.mbox := rfl
@[simp] theorem clearSticky_pend (mask : BitVec 3) (s : State) : (clearSticky mask s).pend = s.pend := rfl
@[simp] theorem clearSticky_vtab (mask : BitVec 3) (s : State) : (clearSticky mask s).vtab = s.vtab := rfl
@[simp] theorem clearSticky_htab (mask : BitVec 3) (s : State) : (clearSticky mask s).htab = s.htab := rfl
@[simp] theorem clearSticky_act (mask : BitVec 3) (s : State) : (clearSticky mask s).act = s.act := rfl
@[simp] theorem clearSticky_run (mask : BitVec 3) (s : State) : (clearSticky mask s).run = s.run := rfl
@[simp] theorem clearSticky_cstate (mask : BitVec 3) (s : State) : (clearSticky mask s).cstate = s.cstate := rfl
@[simp] theorem clearSticky_trigIdx (mask : BitVec 3) (s : State) : (clearSticky mask s).trigIdx = s.trigIdx := rfl
@[simp] theorem clearSticky_forced (mask : BitVec 3) (s : State) : (clearSticky mask s).forced = s.forced := rfl
@[simp] theorem clearSticky_pix (mask : BitVec 3) (s : State) : (clearSticky mask s).pix = s.pix := rfl
@[simp] theorem clearSticky_skipcnt (mask : BitVec 3) (s : State) : (clearSticky mask s).skipcnt = s.skipcnt := rfl
@[simp] theorem clearSticky_framebuf (mask : BitVec 3) (s : State) : (clearSticky mask s).framebuf = s.framebuf := rfl
@[simp] theorem clearSticky_acc (mask : BitVec 3) (s : State) : (clearSticky mask s).acc = s.acc := rfl
@[simp] theorem clearSticky_avgcnt (mask : BitVec 3) (s : State) : (clearSticky mask s).avgcnt = s.avgcnt := rfl
@[simp] theorem clearSticky_miss (mask : BitVec 3) (s : State) : (clearSticky mask s).miss = s.miss := rfl
@[simp] theorem clearSticky_lfValid (mask : BitVec 3) (s : State) : (clearSticky mask s).lfValid = s.lfValid := rfl
@[simp] theorem clearSticky_lfData (mask : BitVec 3) (s : State) : (clearSticky mask s).lfData = s.lfData := rfl
@[simp] theorem clearSticky_lfChen (mask : BitVec 3) (s : State) : (clearSticky mask s).lfChen = s.lfChen := rfl
@[simp] theorem clearSticky_frameseq (mask : BitVec 3) (s : State) : (clearSticky mask s).frameseq = s.frameseq := rfl
@[simp] theorem clearSticky_ry (mask : BitVec 3) (s : State) : (clearSticky mask s).ry = s.ry := rfl
@[simp] theorem clearSticky_ryValid (mask : BitVec 3) (s : State) : (clearSticky mask s).ryValid = s.ryValid := rfl
@[simp] theorem clearSticky_fset (mask : BitVec 3) (s : State) : (clearSticky mask s).fset = s.fset := rfl
@[simp] theorem clearSticky_fcnt (mask : BitVec 3) (s : State) : (clearSticky mask s).fcnt = s.fcnt := rfl
@[simp] theorem clearSticky_ovr (mask : BitVec 3) (s : State) : (clearSticky mask s).ovr = (s.ovr && !mask.getLsbD 0) := rfl
@[simp] theorem clearSticky_cfgerr (mask : BitVec 3) (s : State) : (clearSticky mask s).cfgerr = (s.cfgerr && !mask.getLsbD 1) := rfl
@[simp] theorem clearSticky_cmderr (mask : BitVec 3) (s : State) : (clearSticky mask s).cmderr = (s.cmderr && !mask.getLsbD 2) := rfl
@[simp] theorem clearSticky_out (mask : BitVec 3) (s : State) : (clearSticky mask s).out = s.out := rfl
@[simp] theorem clearSticky_readOut (mask : BitVec 3) (s : State) : (clearSticky mask s).readOut = s.readOut := rfl
@[simp] theorem clearSticky_draws (mask : BitVec 3) (s : State) : (clearSticky mask s).draws = s.draws := rfl
@[simp] theorem clearSticky_inputs (mask : BitVec 3) (s : State) : (clearSticky mask s).inputs = s.inputs := rfl

/-! ## latch -/

@[simp] theorem latch_par (s : State) : (latch s).par = s.par := rfl
@[simp] theorem latch_store (s : State) : (latch s).store = s.store := rfl
@[simp] theorem latch_wp (s : State) : (latch s).wp = s.wp := rfl
@[simp] theorem latch_mbox (s : State) : (latch s).mbox = s.mbox := rfl
@[simp] theorem latch_pend (s : State) : (latch s).pend = s.pend := rfl
@[simp] theorem latch_vtab (s : State) : (latch s).vtab = s.vtab := rfl
@[simp] theorem latch_htab (s : State) : (latch s).htab = s.htab := rfl
@[simp] theorem latch_act (s : State) : (latch s).act = latchedCfg s.pend s.vtab s.htab := rfl
@[simp] theorem latch_run (s : State) : (latch s).run = s.run := rfl
@[simp] theorem latch_cstate (s : State) : (latch s).cstate = s.cstate := rfl
@[simp] theorem latch_trigIdx (s : State) : (latch s).trigIdx = s.trigIdx := rfl
@[simp] theorem latch_forced (s : State) : (latch s).forced = s.forced := rfl
@[simp] theorem latch_pix (s : State) : (latch s).pix = s.pix := rfl
@[simp] theorem latch_skipcnt (s : State) : (latch s).skipcnt = s.skipcnt := rfl
@[simp] theorem latch_framebuf (s : State) : (latch s).framebuf = s.framebuf := rfl
@[simp] theorem latch_acc (s : State) : (latch s).acc = s.acc := rfl
@[simp] theorem latch_avgcnt (s : State) : (latch s).avgcnt = s.avgcnt := rfl
@[simp] theorem latch_miss (s : State) : (latch s).miss = s.miss := rfl
@[simp] theorem latch_lfValid (s : State) : (latch s).lfValid = s.lfValid := rfl
@[simp] theorem latch_lfData (s : State) : (latch s).lfData = s.lfData := rfl
@[simp] theorem latch_lfChen (s : State) : (latch s).lfChen = s.lfChen := rfl
@[simp] theorem latch_frameseq (s : State) : (latch s).frameseq = s.frameseq := rfl
@[simp] theorem latch_ry (s : State) : (latch s).ry = s.ry := rfl
@[simp] theorem latch_ryValid (s : State) : (latch s).ryValid = s.ryValid := rfl
@[simp] theorem latch_fset (s : State) : (latch s).fset = s.fset := rfl
@[simp] theorem latch_fcnt (s : State) : (latch s).fcnt = s.fcnt := rfl
@[simp] theorem latch_ovr (s : State) : (latch s).ovr = s.ovr := rfl
@[simp] theorem latch_cfgerr (s : State) : (latch s).cfgerr = s.cfgerr := rfl
@[simp] theorem latch_cmderr (s : State) : (latch s).cmderr = s.cmderr := rfl
@[simp] theorem latch_out (s : State) : (latch s).out = s.out := rfl
@[simp] theorem latch_readOut (s : State) : (latch s).readOut = s.readOut := rfl
@[simp] theorem latch_draws (s : State) : (latch s).draws = s.draws := rfl
@[simp] theorem latch_inputs (s : State) : (latch s).inputs = s.inputs := rfl

/-! ## modifyVrow -/

@[simp] theorem modifyVrow_par (idx : BitVec 7) (f : VRow → VRow) (s : State) : (modifyVrow idx f s).par = s.par := rfl
@[simp] theorem modifyVrow_store (idx : BitVec 7) (f : VRow → VRow) (s : State) : (modifyVrow idx f s).store = s.store := rfl
@[simp] theorem modifyVrow_wp (idx : BitVec 7) (f : VRow → VRow) (s : State) : (modifyVrow idx f s).wp = s.wp := rfl
@[simp] theorem modifyVrow_mbox (idx : BitVec 7) (f : VRow → VRow) (s : State) : (modifyVrow idx f s).mbox = s.mbox := rfl
@[simp] theorem modifyVrow_pend (idx : BitVec 7) (f : VRow → VRow) (s : State) : (modifyVrow idx f s).pend = s.pend := rfl
@[simp] theorem modifyVrow_vtab (idx : BitVec 7) (f : VRow → VRow) (s : State) : (modifyVrow idx f s).vtab = s.vtab.modify idx.toNat f := rfl
@[simp] theorem modifyVrow_htab (idx : BitVec 7) (f : VRow → VRow) (s : State) : (modifyVrow idx f s).htab = s.htab := rfl
@[simp] theorem modifyVrow_act (idx : BitVec 7) (f : VRow → VRow) (s : State) : (modifyVrow idx f s).act = s.act := rfl
@[simp] theorem modifyVrow_run (idx : BitVec 7) (f : VRow → VRow) (s : State) : (modifyVrow idx f s).run = s.run := rfl
@[simp] theorem modifyVrow_cstate (idx : BitVec 7) (f : VRow → VRow) (s : State) : (modifyVrow idx f s).cstate = s.cstate := rfl
@[simp] theorem modifyVrow_trigIdx (idx : BitVec 7) (f : VRow → VRow) (s : State) : (modifyVrow idx f s).trigIdx = s.trigIdx := rfl
@[simp] theorem modifyVrow_forced (idx : BitVec 7) (f : VRow → VRow) (s : State) : (modifyVrow idx f s).forced = s.forced := rfl
@[simp] theorem modifyVrow_pix (idx : BitVec 7) (f : VRow → VRow) (s : State) : (modifyVrow idx f s).pix = s.pix := rfl
@[simp] theorem modifyVrow_skipcnt (idx : BitVec 7) (f : VRow → VRow) (s : State) : (modifyVrow idx f s).skipcnt = s.skipcnt := rfl
@[simp] theorem modifyVrow_framebuf (idx : BitVec 7) (f : VRow → VRow) (s : State) : (modifyVrow idx f s).framebuf = s.framebuf := rfl
@[simp] theorem modifyVrow_acc (idx : BitVec 7) (f : VRow → VRow) (s : State) : (modifyVrow idx f s).acc = s.acc := rfl
@[simp] theorem modifyVrow_avgcnt (idx : BitVec 7) (f : VRow → VRow) (s : State) : (modifyVrow idx f s).avgcnt = s.avgcnt := rfl
@[simp] theorem modifyVrow_miss (idx : BitVec 7) (f : VRow → VRow) (s : State) : (modifyVrow idx f s).miss = s.miss := rfl
@[simp] theorem modifyVrow_lfValid (idx : BitVec 7) (f : VRow → VRow) (s : State) : (modifyVrow idx f s).lfValid = s.lfValid := rfl
@[simp] theorem modifyVrow_lfData (idx : BitVec 7) (f : VRow → VRow) (s : State) : (modifyVrow idx f s).lfData = s.lfData := rfl
@[simp] theorem modifyVrow_lfChen (idx : BitVec 7) (f : VRow → VRow) (s : State) : (modifyVrow idx f s).lfChen = s.lfChen := rfl
@[simp] theorem modifyVrow_frameseq (idx : BitVec 7) (f : VRow → VRow) (s : State) : (modifyVrow idx f s).frameseq = s.frameseq := rfl
@[simp] theorem modifyVrow_ry (idx : BitVec 7) (f : VRow → VRow) (s : State) : (modifyVrow idx f s).ry = s.ry := rfl
@[simp] theorem modifyVrow_ryValid (idx : BitVec 7) (f : VRow → VRow) (s : State) : (modifyVrow idx f s).ryValid = s.ryValid := rfl
@[simp] theorem modifyVrow_fset (idx : BitVec 7) (f : VRow → VRow) (s : State) : (modifyVrow idx f s).fset = s.fset := rfl
@[simp] theorem modifyVrow_fcnt (idx : BitVec 7) (f : VRow → VRow) (s : State) : (modifyVrow idx f s).fcnt = s.fcnt := rfl
@[simp] theorem modifyVrow_ovr (idx : BitVec 7) (f : VRow → VRow) (s : State) : (modifyVrow idx f s).ovr = s.ovr := rfl
@[simp] theorem modifyVrow_cfgerr (idx : BitVec 7) (f : VRow → VRow) (s : State) : (modifyVrow idx f s).cfgerr = s.cfgerr := rfl
@[simp] theorem modifyVrow_cmderr (idx : BitVec 7) (f : VRow → VRow) (s : State) : (modifyVrow idx f s).cmderr = s.cmderr := rfl
@[simp] theorem modifyVrow_out (idx : BitVec 7) (f : VRow → VRow) (s : State) : (modifyVrow idx f s).out = s.out := rfl
@[simp] theorem modifyVrow_readOut (idx : BitVec 7) (f : VRow → VRow) (s : State) : (modifyVrow idx f s).readOut = s.readOut := rfl
@[simp] theorem modifyVrow_draws (idx : BitVec 7) (f : VRow → VRow) (s : State) : (modifyVrow idx f s).draws = s.draws := rfl
@[simp] theorem modifyVrow_inputs (idx : BitVec 7) (f : VRow → VRow) (s : State) : (modifyVrow idx f s).inputs = s.inputs := rfl

/-! ## modifyHrow -/

@[simp] theorem modifyHrow_par (idx : BitVec 7) (f : HRow → HRow) (s : State) : (modifyHrow idx f s).par = s.par := rfl
@[simp] theorem modifyHrow_store (idx : BitVec 7) (f : HRow → HRow) (s : State) : (modifyHrow idx f s).store = s.store := rfl
@[simp] theorem modifyHrow_wp (idx : BitVec 7) (f : HRow → HRow) (s : State) : (modifyHrow idx f s).wp = s.wp := rfl
@[simp] theorem modifyHrow_mbox (idx : BitVec 7) (f : HRow → HRow) (s : State) : (modifyHrow idx f s).mbox = s.mbox := rfl
@[simp] theorem modifyHrow_pend (idx : BitVec 7) (f : HRow → HRow) (s : State) : (modifyHrow idx f s).pend = s.pend := rfl
@[simp] theorem modifyHrow_vtab (idx : BitVec 7) (f : HRow → HRow) (s : State) : (modifyHrow idx f s).vtab = s.vtab := rfl
@[simp] theorem modifyHrow_htab (idx : BitVec 7) (f : HRow → HRow) (s : State) : (modifyHrow idx f s).htab = s.htab.modify idx.toNat f := rfl
@[simp] theorem modifyHrow_act (idx : BitVec 7) (f : HRow → HRow) (s : State) : (modifyHrow idx f s).act = s.act := rfl
@[simp] theorem modifyHrow_run (idx : BitVec 7) (f : HRow → HRow) (s : State) : (modifyHrow idx f s).run = s.run := rfl
@[simp] theorem modifyHrow_cstate (idx : BitVec 7) (f : HRow → HRow) (s : State) : (modifyHrow idx f s).cstate = s.cstate := rfl
@[simp] theorem modifyHrow_trigIdx (idx : BitVec 7) (f : HRow → HRow) (s : State) : (modifyHrow idx f s).trigIdx = s.trigIdx := rfl
@[simp] theorem modifyHrow_forced (idx : BitVec 7) (f : HRow → HRow) (s : State) : (modifyHrow idx f s).forced = s.forced := rfl
@[simp] theorem modifyHrow_pix (idx : BitVec 7) (f : HRow → HRow) (s : State) : (modifyHrow idx f s).pix = s.pix := rfl
@[simp] theorem modifyHrow_skipcnt (idx : BitVec 7) (f : HRow → HRow) (s : State) : (modifyHrow idx f s).skipcnt = s.skipcnt := rfl
@[simp] theorem modifyHrow_framebuf (idx : BitVec 7) (f : HRow → HRow) (s : State) : (modifyHrow idx f s).framebuf = s.framebuf := rfl
@[simp] theorem modifyHrow_acc (idx : BitVec 7) (f : HRow → HRow) (s : State) : (modifyHrow idx f s).acc = s.acc := rfl
@[simp] theorem modifyHrow_avgcnt (idx : BitVec 7) (f : HRow → HRow) (s : State) : (modifyHrow idx f s).avgcnt = s.avgcnt := rfl
@[simp] theorem modifyHrow_miss (idx : BitVec 7) (f : HRow → HRow) (s : State) : (modifyHrow idx f s).miss = s.miss := rfl
@[simp] theorem modifyHrow_lfValid (idx : BitVec 7) (f : HRow → HRow) (s : State) : (modifyHrow idx f s).lfValid = s.lfValid := rfl
@[simp] theorem modifyHrow_lfData (idx : BitVec 7) (f : HRow → HRow) (s : State) : (modifyHrow idx f s).lfData = s.lfData := rfl
@[simp] theorem modifyHrow_lfChen (idx : BitVec 7) (f : HRow → HRow) (s : State) : (modifyHrow idx f s).lfChen = s.lfChen := rfl
@[simp] theorem modifyHrow_frameseq (idx : BitVec 7) (f : HRow → HRow) (s : State) : (modifyHrow idx f s).frameseq = s.frameseq := rfl
@[simp] theorem modifyHrow_ry (idx : BitVec 7) (f : HRow → HRow) (s : State) : (modifyHrow idx f s).ry = s.ry := rfl
@[simp] theorem modifyHrow_ryValid (idx : BitVec 7) (f : HRow → HRow) (s : State) : (modifyHrow idx f s).ryValid = s.ryValid := rfl
@[simp] theorem modifyHrow_fset (idx : BitVec 7) (f : HRow → HRow) (s : State) : (modifyHrow idx f s).fset = s.fset := rfl
@[simp] theorem modifyHrow_fcnt (idx : BitVec 7) (f : HRow → HRow) (s : State) : (modifyHrow idx f s).fcnt = s.fcnt := rfl
@[simp] theorem modifyHrow_ovr (idx : BitVec 7) (f : HRow → HRow) (s : State) : (modifyHrow idx f s).ovr = s.ovr := rfl
@[simp] theorem modifyHrow_cfgerr (idx : BitVec 7) (f : HRow → HRow) (s : State) : (modifyHrow idx f s).cfgerr = s.cfgerr := rfl
@[simp] theorem modifyHrow_cmderr (idx : BitVec 7) (f : HRow → HRow) (s : State) : (modifyHrow idx f s).cmderr = s.cmderr := rfl
@[simp] theorem modifyHrow_out (idx : BitVec 7) (f : HRow → HRow) (s : State) : (modifyHrow idx f s).out = s.out := rfl
@[simp] theorem modifyHrow_readOut (idx : BitVec 7) (f : HRow → HRow) (s : State) : (modifyHrow idx f s).readOut = s.readOut := rfl
@[simp] theorem modifyHrow_draws (idx : BitVec 7) (f : HRow → HRow) (s : State) : (modifyHrow idx f s).draws = s.draws := rfl
@[simp] theorem modifyHrow_inputs (idx : BitVec 7) (f : HRow → HRow) (s : State) : (modifyHrow idx f s).inputs = s.inputs := rfl

/-! ## withPending -/

@[simp] theorem withPending_par (f : PendingCfg → PendingCfg) (s : State) : (withPending f s).par = s.par := rfl
@[simp] theorem withPending_store (f : PendingCfg → PendingCfg) (s : State) : (withPending f s).store = s.store := rfl
@[simp] theorem withPending_wp (f : PendingCfg → PendingCfg) (s : State) : (withPending f s).wp = s.wp := rfl
@[simp] theorem withPending_mbox (f : PendingCfg → PendingCfg) (s : State) : (withPending f s).mbox = s.mbox := rfl
@[simp] theorem withPending_pend (f : PendingCfg → PendingCfg) (s : State) : (withPending f s).pend = f s.pend := rfl
@[simp] theorem withPending_vtab (f : PendingCfg → PendingCfg) (s : State) : (withPending f s).vtab = s.vtab := rfl
@[simp] theorem withPending_htab (f : PendingCfg → PendingCfg) (s : State) : (withPending f s).htab = s.htab := rfl
@[simp] theorem withPending_act (f : PendingCfg → PendingCfg) (s : State) : (withPending f s).act = s.act := rfl
@[simp] theorem withPending_run (f : PendingCfg → PendingCfg) (s : State) : (withPending f s).run = s.run := rfl
@[simp] theorem withPending_cstate (f : PendingCfg → PendingCfg) (s : State) : (withPending f s).cstate = s.cstate := rfl
@[simp] theorem withPending_trigIdx (f : PendingCfg → PendingCfg) (s : State) : (withPending f s).trigIdx = s.trigIdx := rfl
@[simp] theorem withPending_forced (f : PendingCfg → PendingCfg) (s : State) : (withPending f s).forced = s.forced := rfl
@[simp] theorem withPending_pix (f : PendingCfg → PendingCfg) (s : State) : (withPending f s).pix = s.pix := rfl
@[simp] theorem withPending_skipcnt (f : PendingCfg → PendingCfg) (s : State) : (withPending f s).skipcnt = s.skipcnt := rfl
@[simp] theorem withPending_framebuf (f : PendingCfg → PendingCfg) (s : State) : (withPending f s).framebuf = s.framebuf := rfl
@[simp] theorem withPending_acc (f : PendingCfg → PendingCfg) (s : State) : (withPending f s).acc = s.acc := rfl
@[simp] theorem withPending_avgcnt (f : PendingCfg → PendingCfg) (s : State) : (withPending f s).avgcnt = s.avgcnt := rfl
@[simp] theorem withPending_miss (f : PendingCfg → PendingCfg) (s : State) : (withPending f s).miss = s.miss := rfl
@[simp] theorem withPending_lfValid (f : PendingCfg → PendingCfg) (s : State) : (withPending f s).lfValid = s.lfValid := rfl
@[simp] theorem withPending_lfData (f : PendingCfg → PendingCfg) (s : State) : (withPending f s).lfData = s.lfData := rfl
@[simp] theorem withPending_lfChen (f : PendingCfg → PendingCfg) (s : State) : (withPending f s).lfChen = s.lfChen := rfl
@[simp] theorem withPending_frameseq (f : PendingCfg → PendingCfg) (s : State) : (withPending f s).frameseq = s.frameseq := rfl
@[simp] theorem withPending_ry (f : PendingCfg → PendingCfg) (s : State) : (withPending f s).ry = s.ry := rfl
@[simp] theorem withPending_ryValid (f : PendingCfg → PendingCfg) (s : State) : (withPending f s).ryValid = s.ryValid := rfl
@[simp] theorem withPending_fset (f : PendingCfg → PendingCfg) (s : State) : (withPending f s).fset = s.fset := rfl
@[simp] theorem withPending_fcnt (f : PendingCfg → PendingCfg) (s : State) : (withPending f s).fcnt = s.fcnt := rfl
@[simp] theorem withPending_ovr (f : PendingCfg → PendingCfg) (s : State) : (withPending f s).ovr = s.ovr := rfl
@[simp] theorem withPending_cfgerr (f : PendingCfg → PendingCfg) (s : State) : (withPending f s).cfgerr = s.cfgerr := rfl
@[simp] theorem withPending_cmderr (f : PendingCfg → PendingCfg) (s : State) : (withPending f s).cmderr = s.cmderr := rfl
@[simp] theorem withPending_out (f : PendingCfg → PendingCfg) (s : State) : (withPending f s).out = s.out := rfl
@[simp] theorem withPending_readOut (f : PendingCfg → PendingCfg) (s : State) : (withPending f s).readOut = s.readOut := rfl
@[simp] theorem withPending_draws (f : PendingCfg → PendingCfg) (s : State) : (withPending f s).draws = s.draws := rfl
@[simp] theorem withPending_inputs (f : PendingCfg → PendingCfg) (s : State) : (withPending f s).inputs = s.inputs := rfl

/-! ## emitFrame -/

@[simp] theorem emitFrame_par (frame : PerChannel Frame) (s : State) : (emitFrame frame s).par = s.par := rfl
@[simp] theorem emitFrame_store (frame : PerChannel Frame) (s : State) : (emitFrame frame s).store = s.store := rfl
@[simp] theorem emitFrame_wp (frame : PerChannel Frame) (s : State) : (emitFrame frame s).wp = s.wp := rfl
@[simp] theorem emitFrame_mbox (frame : PerChannel Frame) (s : State) : (emitFrame frame s).mbox = s.mbox := rfl
@[simp] theorem emitFrame_pend (frame : PerChannel Frame) (s : State) : (emitFrame frame s).pend = s.pend := rfl
@[simp] theorem emitFrame_vtab (frame : PerChannel Frame) (s : State) : (emitFrame frame s).vtab = s.vtab := rfl
@[simp] theorem emitFrame_htab (frame : PerChannel Frame) (s : State) : (emitFrame frame s).htab = s.htab := rfl
@[simp] theorem emitFrame_act (frame : PerChannel Frame) (s : State) : (emitFrame frame s).act = s.act := rfl
@[simp] theorem emitFrame_run (frame : PerChannel Frame) (s : State) : (emitFrame frame s).run = s.run := rfl
@[simp] theorem emitFrame_cstate (frame : PerChannel Frame) (s : State) : (emitFrame frame s).cstate = s.cstate := rfl
@[simp] theorem emitFrame_trigIdx (frame : PerChannel Frame) (s : State) : (emitFrame frame s).trigIdx = s.trigIdx := rfl
@[simp] theorem emitFrame_forced (frame : PerChannel Frame) (s : State) : (emitFrame frame s).forced = s.forced := rfl
@[simp] theorem emitFrame_pix (frame : PerChannel Frame) (s : State) : (emitFrame frame s).pix = s.pix := rfl
@[simp] theorem emitFrame_skipcnt (frame : PerChannel Frame) (s : State) : (emitFrame frame s).skipcnt = s.skipcnt := rfl
@[simp] theorem emitFrame_framebuf (frame : PerChannel Frame) (s : State) : (emitFrame frame s).framebuf = s.framebuf := rfl
@[simp] theorem emitFrame_acc (frame : PerChannel Frame) (s : State) : (emitFrame frame s).acc = s.acc := rfl
@[simp] theorem emitFrame_avgcnt (frame : PerChannel Frame) (s : State) : (emitFrame frame s).avgcnt = s.avgcnt := rfl
@[simp] theorem emitFrame_miss (frame : PerChannel Frame) (s : State) : (emitFrame frame s).miss = s.miss := rfl
@[simp] theorem emitFrame_lfValid (frame : PerChannel Frame) (s : State) : (emitFrame frame s).lfValid = s.lfValid := rfl
@[simp] theorem emitFrame_lfData (frame : PerChannel Frame) (s : State) : (emitFrame frame s).lfData = s.lfData := rfl
@[simp] theorem emitFrame_lfChen (frame : PerChannel Frame) (s : State) : (emitFrame frame s).lfChen = s.lfChen := rfl
@[simp] theorem emitFrame_frameseq (frame : PerChannel Frame) (s : State) : (emitFrame frame s).frameseq = s.frameseq := rfl
@[simp] theorem emitFrame_ry (frame : PerChannel Frame) (s : State) : (emitFrame frame s).ry = s.ry := rfl
@[simp] theorem emitFrame_ryValid (frame : PerChannel Frame) (s : State) : (emitFrame frame s).ryValid = s.ryValid := rfl
@[simp] theorem emitFrame_fset (frame : PerChannel Frame) (s : State) : (emitFrame frame s).fset = s.fset := rfl
@[simp] theorem emitFrame_fcnt (frame : PerChannel Frame) (s : State) : (emitFrame frame s).fcnt = s.fcnt := rfl
@[simp] theorem emitFrame_ovr (frame : PerChannel Frame) (s : State) : (emitFrame frame s).ovr = s.ovr := rfl
@[simp] theorem emitFrame_cfgerr (frame : PerChannel Frame) (s : State) : (emitFrame frame s).cfgerr = s.cfgerr := rfl
@[simp] theorem emitFrame_cmderr (frame : PerChannel Frame) (s : State) : (emitFrame frame s).cmderr = s.cmderr := rfl
@[simp] theorem emitFrame_out (frame : PerChannel Frame) (s : State) : (emitFrame frame s).out = s.out ++ [.frame (frameRecord s frame)] := rfl
@[simp] theorem emitFrame_readOut (frame : PerChannel Frame) (s : State) : (emitFrame frame s).readOut = s.readOut := rfl
@[simp] theorem emitFrame_draws (frame : PerChannel Frame) (s : State) : (emitFrame frame s).draws = s.draws := rfl
@[simp] theorem emitFrame_inputs (frame : PerChannel Frame) (s : State) : (emitFrame frame s).inputs = s.inputs := rfl

/-! ## recordFrame -/

@[simp] theorem recordFrame_par (frame : PerChannel Frame) (s : State) : (recordFrame frame s).par = s.par := rfl
@[simp] theorem recordFrame_store (frame : PerChannel Frame) (s : State) : (recordFrame frame s).store = s.store := rfl
@[simp] theorem recordFrame_wp (frame : PerChannel Frame) (s : State) : (recordFrame frame s).wp = s.wp := rfl
@[simp] theorem recordFrame_mbox (frame : PerChannel Frame) (s : State) : (recordFrame frame s).mbox = s.mbox := rfl
@[simp] theorem recordFrame_pend (frame : PerChannel Frame) (s : State) : (recordFrame frame s).pend = s.pend := rfl
@[simp] theorem recordFrame_vtab (frame : PerChannel Frame) (s : State) : (recordFrame frame s).vtab = s.vtab := rfl
@[simp] theorem recordFrame_htab (frame : PerChannel Frame) (s : State) : (recordFrame frame s).htab = s.htab := rfl
@[simp] theorem recordFrame_act (frame : PerChannel Frame) (s : State) : (recordFrame frame s).act = s.act := rfl
@[simp] theorem recordFrame_run (frame : PerChannel Frame) (s : State) : (recordFrame frame s).run = s.run := rfl
@[simp] theorem recordFrame_cstate (frame : PerChannel Frame) (s : State) : (recordFrame frame s).cstate = s.cstate := rfl
@[simp] theorem recordFrame_trigIdx (frame : PerChannel Frame) (s : State) : (recordFrame frame s).trigIdx = s.trigIdx := rfl
@[simp] theorem recordFrame_forced (frame : PerChannel Frame) (s : State) : (recordFrame frame s).forced = s.forced := rfl
@[simp] theorem recordFrame_pix (frame : PerChannel Frame) (s : State) : (recordFrame frame s).pix = s.pix := rfl
@[simp] theorem recordFrame_skipcnt (frame : PerChannel Frame) (s : State) : (recordFrame frame s).skipcnt = s.skipcnt := rfl
@[simp] theorem recordFrame_framebuf (frame : PerChannel Frame) (s : State) : (recordFrame frame s).framebuf = s.framebuf := rfl
@[simp] theorem recordFrame_acc (frame : PerChannel Frame) (s : State) : (recordFrame frame s).acc = s.acc := rfl
@[simp] theorem recordFrame_avgcnt (frame : PerChannel Frame) (s : State) : (recordFrame frame s).avgcnt = s.avgcnt := rfl
@[simp] theorem recordFrame_miss (frame : PerChannel Frame) (s : State) : (recordFrame frame s).miss = s.miss := rfl
@[simp] theorem recordFrame_lfValid (frame : PerChannel Frame) (s : State) : (recordFrame frame s).lfValid = true := rfl
@[simp] theorem recordFrame_lfData (frame : PerChannel Frame) (s : State) : (recordFrame frame s).lfData = frame := rfl
@[simp] theorem recordFrame_lfChen (frame : PerChannel Frame) (s : State) : (recordFrame frame s).lfChen = s.act.chen := rfl
@[simp] theorem recordFrame_frameseq (frame : PerChannel Frame) (s : State) : (recordFrame frame s).frameseq = s.frameseq + 1 := rfl
@[simp] theorem recordFrame_ry (frame : PerChannel Frame) (s : State) : (recordFrame frame s).ry = s.ry := rfl
@[simp] theorem recordFrame_ryValid (frame : PerChannel Frame) (s : State) : (recordFrame frame s).ryValid = s.ryValid := rfl
@[simp] theorem recordFrame_fset (frame : PerChannel Frame) (s : State) : (recordFrame frame s).fset = s.fset := rfl
@[simp] theorem recordFrame_fcnt (frame : PerChannel Frame) (s : State) : (recordFrame frame s).fcnt = s.fcnt := rfl
@[simp] theorem recordFrame_ovr (frame : PerChannel Frame) (s : State) : (recordFrame frame s).ovr = s.ovr := rfl
@[simp] theorem recordFrame_cfgerr (frame : PerChannel Frame) (s : State) : (recordFrame frame s).cfgerr = s.cfgerr := rfl
@[simp] theorem recordFrame_cmderr (frame : PerChannel Frame) (s : State) : (recordFrame frame s).cmderr = s.cmderr := rfl
@[simp] theorem recordFrame_out (frame : PerChannel Frame) (s : State) : (recordFrame frame s).out = s.out := rfl
@[simp] theorem recordFrame_readOut (frame : PerChannel Frame) (s : State) : (recordFrame frame s).readOut = s.readOut := rfl
@[simp] theorem recordFrame_draws (frame : PerChannel Frame) (s : State) : (recordFrame frame s).draws = s.draws := rfl
@[simp] theorem recordFrame_inputs (frame : PerChannel Frame) (s : State) : (recordFrame frame s).inputs = s.inputs := rfl

/-! ## erasePhase -/

@[simp] theorem erasePhase_par (s : State) : (erasePhase s).par = s.par := rfl
@[simp] theorem erasePhase_store (s : State) : (erasePhase s).store = s.store := rfl
@[simp] theorem erasePhase_wp (s : State) : (erasePhase s).wp = s.wp := rfl
@[simp] theorem erasePhase_mbox (s : State) : (erasePhase s).mbox = s.mbox := rfl
@[simp] theorem erasePhase_pend (s : State) : (erasePhase s).pend = s.pend := rfl
@[simp] theorem erasePhase_vtab (s : State) : (erasePhase s).vtab = s.vtab := rfl
@[simp] theorem erasePhase_htab (s : State) : (erasePhase s).htab = s.htab := rfl
@[simp] theorem erasePhase_act (s : State) : (erasePhase s).act = s.act := rfl
@[simp] theorem erasePhase_run (s : State) : (erasePhase s).run = s.run := rfl
@[simp] theorem erasePhase_cstate (s : State) : (erasePhase s).cstate = s.cstate := rfl
@[simp] theorem erasePhase_trigIdx (s : State) : (erasePhase s).trigIdx = s.trigIdx := rfl
@[simp] theorem erasePhase_forced (s : State) : (erasePhase s).forced = s.forced := rfl
@[simp] theorem erasePhase_pix (s : State) : (erasePhase s).pix = s.pix := rfl
@[simp] theorem erasePhase_skipcnt (s : State) : (erasePhase s).skipcnt = s.skipcnt := rfl
@[simp] theorem erasePhase_framebuf (s : State) : (erasePhase s).framebuf = s.framebuf := rfl
@[simp] theorem erasePhase_acc (s : State) : (erasePhase s).acc = s.acc := rfl
@[simp] theorem erasePhase_avgcnt (s : State) : (erasePhase s).avgcnt = s.avgcnt := rfl
@[simp] theorem erasePhase_miss (s : State) : (erasePhase s).miss = s.miss := rfl
@[simp] theorem erasePhase_lfValid (s : State) : (erasePhase s).lfValid = s.lfValid := rfl
@[simp] theorem erasePhase_lfData (s : State) : (erasePhase s).lfData = s.lfData := rfl
@[simp] theorem erasePhase_lfChen (s : State) : (erasePhase s).lfChen = s.lfChen := rfl
@[simp] theorem erasePhase_frameseq (s : State) : (erasePhase s).frameseq = s.frameseq := rfl
@[simp] theorem erasePhase_ry (s : State) : (erasePhase s).ry = s.ry := rfl
@[simp] theorem erasePhase_ryValid (s : State) : (erasePhase s).ryValid = s.ryValid := rfl
@[simp] theorem erasePhase_fset (s : State) : (erasePhase s).fset = s.fset := rfl
@[simp] theorem erasePhase_fcnt (s : State) : (erasePhase s).fcnt = s.fcnt := rfl
@[simp] theorem erasePhase_ovr (s : State) : (erasePhase s).ovr = s.ovr := rfl
@[simp] theorem erasePhase_cfgerr (s : State) : (erasePhase s).cfgerr = s.cfgerr := rfl
@[simp] theorem erasePhase_cmderr (s : State) : (erasePhase s).cmderr = s.cmderr := rfl
@[simp] theorem erasePhase_out (s : State) : (erasePhase s).out = s.out ++ (eraseTrace s .ch1 ++ eraseTrace s .ch2).map .seg := rfl
@[simp] theorem erasePhase_readOut (s : State) : (erasePhase s).readOut = s.readOut := rfl
@[simp] theorem erasePhase_draws (s : State) : (erasePhase s).draws = s.draws := rfl
@[simp] theorem erasePhase_inputs (s : State) : (erasePhase s).inputs = s.inputs := rfl

/-! ## withCState -/

@[simp] theorem withCState_par (c : CState) (s : State) : (withCState c s).par = s.par := rfl
@[simp] theorem withCState_store (c : CState) (s : State) : (withCState c s).store = s.store := rfl
@[simp] theorem withCState_wp (c : CState) (s : State) : (withCState c s).wp = s.wp := rfl
@[simp] theorem withCState_mbox (c : CState) (s : State) : (withCState c s).mbox = s.mbox := rfl
@[simp] theorem withCState_pend (c : CState) (s : State) : (withCState c s).pend = s.pend := rfl
@[simp] theorem withCState_vtab (c : CState) (s : State) : (withCState c s).vtab = s.vtab := rfl
@[simp] theorem withCState_htab (c : CState) (s : State) : (withCState c s).htab = s.htab := rfl
@[simp] theorem withCState_act (c : CState) (s : State) : (withCState c s).act = s.act := rfl
@[simp] theorem withCState_run (c : CState) (s : State) : (withCState c s).run = s.run := rfl
@[simp] theorem withCState_cstate (c : CState) (s : State) : (withCState c s).cstate = c := rfl
@[simp] theorem withCState_trigIdx (c : CState) (s : State) : (withCState c s).trigIdx = s.trigIdx := rfl
@[simp] theorem withCState_forced (c : CState) (s : State) : (withCState c s).forced = s.forced := rfl
@[simp] theorem withCState_pix (c : CState) (s : State) : (withCState c s).pix = s.pix := rfl
@[simp] theorem withCState_skipcnt (c : CState) (s : State) : (withCState c s).skipcnt = s.skipcnt := rfl
@[simp] theorem withCState_framebuf (c : CState) (s : State) : (withCState c s).framebuf = s.framebuf := rfl
@[simp] theorem withCState_acc (c : CState) (s : State) : (withCState c s).acc = s.acc := rfl
@[simp] theorem withCState_avgcnt (c : CState) (s : State) : (withCState c s).avgcnt = s.avgcnt := rfl
@[simp] theorem withCState_miss (c : CState) (s : State) : (withCState c s).miss = s.miss := rfl
@[simp] theorem withCState_lfValid (c : CState) (s : State) : (withCState c s).lfValid = s.lfValid := rfl
@[simp] theorem withCState_lfData (c : CState) (s : State) : (withCState c s).lfData = s.lfData := rfl
@[simp] theorem withCState_lfChen (c : CState) (s : State) : (withCState c s).lfChen = s.lfChen := rfl
@[simp] theorem withCState_frameseq (c : CState) (s : State) : (withCState c s).frameseq = s.frameseq := rfl
@[simp] theorem withCState_ry (c : CState) (s : State) : (withCState c s).ry = s.ry := rfl
@[simp] theorem withCState_ryValid (c : CState) (s : State) : (withCState c s).ryValid = s.ryValid := rfl
@[simp] theorem withCState_fset (c : CState) (s : State) : (withCState c s).fset = s.fset := rfl
@[simp] theorem withCState_fcnt (c : CState) (s : State) : (withCState c s).fcnt = s.fcnt := rfl
@[simp] theorem withCState_ovr (c : CState) (s : State) : (withCState c s).ovr = s.ovr := rfl
@[simp] theorem withCState_cfgerr (c : CState) (s : State) : (withCState c s).cfgerr = s.cfgerr := rfl
@[simp] theorem withCState_cmderr (c : CState) (s : State) : (withCState c s).cmderr = s.cmderr := rfl
@[simp] theorem withCState_out (c : CState) (s : State) : (withCState c s).out = s.out := rfl
@[simp] theorem withCState_readOut (c : CState) (s : State) : (withCState c s).readOut = s.readOut := rfl
@[simp] theorem withCState_draws (c : CState) (s : State) : (withCState c s).draws = s.draws := rfl
@[simp] theorem withCState_inputs (c : CState) (s : State) : (withCState c s).inputs = s.inputs := rfl

/-! ## normalStarted -/

@[simp] theorem normalStarted_par (T : Nat) (forced : Bool) (s : State) : (normalStarted T forced s).par = s.par := rfl
@[simp] theorem normalStarted_store (T : Nat) (forced : Bool) (s : State) : (normalStarted T forced s).store = s.store := rfl
@[simp] theorem normalStarted_wp (T : Nat) (forced : Bool) (s : State) : (normalStarted T forced s).wp = s.wp := rfl
@[simp] theorem normalStarted_mbox (T : Nat) (forced : Bool) (s : State) : (normalStarted T forced s).mbox = s.mbox := rfl
@[simp] theorem normalStarted_pend (T : Nat) (forced : Bool) (s : State) : (normalStarted T forced s).pend = s.pend := rfl
@[simp] theorem normalStarted_vtab (T : Nat) (forced : Bool) (s : State) : (normalStarted T forced s).vtab = s.vtab := rfl
@[simp] theorem normalStarted_htab (T : Nat) (forced : Bool) (s : State) : (normalStarted T forced s).htab = s.htab := rfl
@[simp] theorem normalStarted_act (T : Nat) (forced : Bool) (s : State) : (normalStarted T forced s).act = s.act := rfl
@[simp] theorem normalStarted_run (T : Nat) (forced : Bool) (s : State) : (normalStarted T forced s).run = s.run := rfl
@[simp] theorem normalStarted_cstate (T : Nat) (forced : Bool) (s : State) : (normalStarted T forced s).cstate = .filling := rfl
@[simp] theorem normalStarted_trigIdx (T : Nat) (forced : Bool) (s : State) : (normalStarted T forced s).trigIdx = T := rfl
@[simp] theorem normalStarted_forced (T : Nat) (forced : Bool) (s : State) : (normalStarted T forced s).forced = forced := rfl
@[simp] theorem normalStarted_pix (T : Nat) (forced : Bool) (s : State) : (normalStarted T forced s).pix = s.act.pos + 1 := rfl
@[simp] theorem normalStarted_skipcnt (T : Nat) (forced : Bool) (s : State) : (normalStarted T forced s).skipcnt = s.act.skip := rfl
@[simp] theorem normalStarted_framebuf (T : Nat) (forced : Bool) (s : State) : (normalStarted T forced s).framebuf = .tabulate (backfilled s T) := rfl
@[simp] theorem normalStarted_acc (T : Nat) (forced : Bool) (s : State) : (normalStarted T forced s).acc = s.acc := rfl
@[simp] theorem normalStarted_avgcnt (T : Nat) (forced : Bool) (s : State) : (normalStarted T forced s).avgcnt = s.avgcnt := rfl
@[simp] theorem normalStarted_miss (T : Nat) (forced : Bool) (s : State) : (normalStarted T forced s).miss = s.miss := rfl
@[simp] theorem normalStarted_lfValid (T : Nat) (forced : Bool) (s : State) : (normalStarted T forced s).lfValid = s.lfValid := rfl
@[simp] theorem normalStarted_lfData (T : Nat) (forced : Bool) (s : State) : (normalStarted T forced s).lfData = s.lfData := rfl
@[simp] theorem normalStarted_lfChen (T : Nat) (forced : Bool) (s : State) : (normalStarted T forced s).lfChen = s.lfChen := rfl
@[simp] theorem normalStarted_frameseq (T : Nat) (forced : Bool) (s : State) : (normalStarted T forced s).frameseq = s.frameseq := rfl
@[simp] theorem normalStarted_ry (T : Nat) (forced : Bool) (s : State) : (normalStarted T forced s).ry = s.ry := rfl
@[simp] theorem normalStarted_ryValid (T : Nat) (forced : Bool) (s : State) : (normalStarted T forced s).ryValid = s.ryValid := rfl
@[simp] theorem normalStarted_fset (T : Nat) (forced : Bool) (s : State) : (normalStarted T forced s).fset = s.fset := rfl
@[simp] theorem normalStarted_fcnt (T : Nat) (forced : Bool) (s : State) : (normalStarted T forced s).fcnt = s.fcnt := rfl
@[simp] theorem normalStarted_ovr (T : Nat) (forced : Bool) (s : State) : (normalStarted T forced s).ovr = s.ovr := rfl
@[simp] theorem normalStarted_cfgerr (T : Nat) (forced : Bool) (s : State) : (normalStarted T forced s).cfgerr = s.cfgerr := rfl
@[simp] theorem normalStarted_cmderr (T : Nat) (forced : Bool) (s : State) : (normalStarted T forced s).cmderr = s.cmderr := rfl
@[simp] theorem normalStarted_out (T : Nat) (forced : Bool) (s : State) : (normalStarted T forced s).out = s.out := rfl
@[simp] theorem normalStarted_readOut (T : Nat) (forced : Bool) (s : State) : (normalStarted T forced s).readOut = s.readOut := rfl
@[simp] theorem normalStarted_draws (T : Nat) (forced : Bool) (s : State) : (normalStarted T forced s).draws = s.draws := rfl
@[simp] theorem normalStarted_inputs (T : Nat) (forced : Bool) (s : State) : (normalStarted T forced s).inputs = s.inputs := rfl

/-! ## codeSkipped -/

@[simp] theorem codeSkipped_par (s : State) : (codeSkipped s).par = s.par := rfl
@[simp] theorem codeSkipped_store (s : State) : (codeSkipped s).store = s.store := rfl
@[simp] theorem codeSkipped_wp (s : State) : (codeSkipped s).wp = s.wp := rfl
@[simp] theorem codeSkipped_mbox (s : State) : (codeSkipped s).mbox = s.mbox := rfl
@[simp] theorem codeSkipped_pend (s : State) : (codeSkipped s).pend = s.pend := rfl
@[simp] theorem codeSkipped_vtab (s : State) : (codeSkipped s).vtab = s.vtab := rfl
@[simp] theorem codeSkipped_htab (s : State) : (codeSkipped s).htab = s.htab := rfl
@[simp] theorem codeSkipped_act (s : State) : (codeSkipped s).act = s.act := rfl
@[simp] theorem codeSkipped_run (s : State) : (codeSkipped s).run = s.run := rfl
@[simp] theorem codeSkipped_cstate (s : State) : (codeSkipped s).cstate = s.cstate := rfl
@[simp] theorem codeSkipped_trigIdx (s : State) : (codeSkipped s).trigIdx = s.trigIdx := rfl
@[simp] theorem codeSkipped_forced (s : State) : (codeSkipped s).forced = s.forced := rfl
@[simp] theorem codeSkipped_pix (s : State) : (codeSkipped s).pix = s.pix := rfl
@[simp] theorem codeSkipped_skipcnt (s : State) : (codeSkipped s).skipcnt = s.skipcnt - 1 := rfl
@[simp] theorem codeSkipped_framebuf (s : State) : (codeSkipped s).framebuf = s.framebuf := rfl
@[simp] theorem codeSkipped_acc (s : State) : (codeSkipped s).acc = s.acc := rfl
@[simp] theorem codeSkipped_avgcnt (s : State) : (codeSkipped s).avgcnt = s.avgcnt := rfl
@[simp] theorem codeSkipped_miss (s : State) : (codeSkipped s).miss = s.miss := rfl
@[simp] theorem codeSkipped_lfValid (s : State) : (codeSkipped s).lfValid = s.lfValid := rfl
@[simp] theorem codeSkipped_lfData (s : State) : (codeSkipped s).lfData = s.lfData := rfl
@[simp] theorem codeSkipped_lfChen (s : State) : (codeSkipped s).lfChen = s.lfChen := rfl
@[simp] theorem codeSkipped_frameseq (s : State) : (codeSkipped s).frameseq = s.frameseq := rfl
@[simp] theorem codeSkipped_ry (s : State) : (codeSkipped s).ry = s.ry := rfl
@[simp] theorem codeSkipped_ryValid (s : State) : (codeSkipped s).ryValid = s.ryValid := rfl
@[simp] theorem codeSkipped_fset (s : State) : (codeSkipped s).fset = s.fset := rfl
@[simp] theorem codeSkipped_fcnt (s : State) : (codeSkipped s).fcnt = s.fcnt := rfl
@[simp] theorem codeSkipped_ovr (s : State) : (codeSkipped s).ovr = s.ovr := rfl
@[simp] theorem codeSkipped_cfgerr (s : State) : (codeSkipped s).cfgerr = s.cfgerr := rfl
@[simp] theorem codeSkipped_cmderr (s : State) : (codeSkipped s).cmderr = s.cmderr := rfl
@[simp] theorem codeSkipped_out (s : State) : (codeSkipped s).out = s.out := rfl
@[simp] theorem codeSkipped_readOut (s : State) : (codeSkipped s).readOut = s.readOut := rfl
@[simp] theorem codeSkipped_draws (s : State) : (codeSkipped s).draws = s.draws := rfl
@[simp] theorem codeSkipped_inputs (s : State) : (codeSkipped s).inputs = s.inputs := rfl

/-! ## pixelFilled -/

@[simp] theorem pixelFilled_par (i : Nat) (s : State) : (pixelFilled i s).par = s.par := rfl
@[simp] theorem pixelFilled_store (i : Nat) (s : State) : (pixelFilled i s).store = s.store := rfl
@[simp] theorem pixelFilled_wp (i : Nat) (s : State) : (pixelFilled i s).wp = s.wp := rfl
@[simp] theorem pixelFilled_mbox (i : Nat) (s : State) : (pixelFilled i s).mbox = s.mbox := rfl
@[simp] theorem pixelFilled_pend (i : Nat) (s : State) : (pixelFilled i s).pend = s.pend := rfl
@[simp] theorem pixelFilled_vtab (i : Nat) (s : State) : (pixelFilled i s).vtab = s.vtab := rfl
@[simp] theorem pixelFilled_htab (i : Nat) (s : State) : (pixelFilled i s).htab = s.htab := rfl
@[simp] theorem pixelFilled_act (i : Nat) (s : State) : (pixelFilled i s).act = s.act := rfl
@[simp] theorem pixelFilled_run (i : Nat) (s : State) : (pixelFilled i s).run = s.run := rfl
@[simp] theorem pixelFilled_cstate (i : Nat) (s : State) : (pixelFilled i s).cstate = s.cstate := rfl
@[simp] theorem pixelFilled_trigIdx (i : Nat) (s : State) : (pixelFilled i s).trigIdx = s.trigIdx := rfl
@[simp] theorem pixelFilled_forced (i : Nat) (s : State) : (pixelFilled i s).forced = s.forced := rfl
@[simp] theorem pixelFilled_pix (i : Nat) (s : State) : (pixelFilled i s).pix = s.pix + 1 := rfl
@[simp] theorem pixelFilled_skipcnt (i : Nat) (s : State) : (pixelFilled i s).skipcnt = s.act.skip := rfl
@[simp] theorem pixelFilled_framebuf (i : Nat) (s : State) : (pixelFilled i s).framebuf = .tabulate fun ch => (s.framebuf.get ch).setIfInBounds s.pix.toNat (storeRead s ch i) := rfl
@[simp] theorem pixelFilled_acc (i : Nat) (s : State) : (pixelFilled i s).acc = s.acc := rfl
@[simp] theorem pixelFilled_avgcnt (i : Nat) (s : State) : (pixelFilled i s).avgcnt = s.avgcnt := rfl
@[simp] theorem pixelFilled_miss (i : Nat) (s : State) : (pixelFilled i s).miss = s.miss := rfl
@[simp] theorem pixelFilled_lfValid (i : Nat) (s : State) : (pixelFilled i s).lfValid = s.lfValid := rfl
@[simp] theorem pixelFilled_lfData (i : Nat) (s : State) : (pixelFilled i s).lfData = s.lfData := rfl
@[simp] theorem pixelFilled_lfChen (i : Nat) (s : State) : (pixelFilled i s).lfChen = s.lfChen := rfl
@[simp] theorem pixelFilled_frameseq (i : Nat) (s : State) : (pixelFilled i s).frameseq = s.frameseq := rfl
@[simp] theorem pixelFilled_ry (i : Nat) (s : State) : (pixelFilled i s).ry = s.ry := rfl
@[simp] theorem pixelFilled_ryValid (i : Nat) (s : State) : (pixelFilled i s).ryValid = s.ryValid := rfl
@[simp] theorem pixelFilled_fset (i : Nat) (s : State) : (pixelFilled i s).fset = s.fset := rfl
@[simp] theorem pixelFilled_fcnt (i : Nat) (s : State) : (pixelFilled i s).fcnt = s.fcnt := rfl
@[simp] theorem pixelFilled_ovr (i : Nat) (s : State) : (pixelFilled i s).ovr = s.ovr := rfl
@[simp] theorem pixelFilled_cfgerr (i : Nat) (s : State) : (pixelFilled i s).cfgerr = s.cfgerr := rfl
@[simp] theorem pixelFilled_cmderr (i : Nat) (s : State) : (pixelFilled i s).cmderr = s.cmderr := rfl
@[simp] theorem pixelFilled_out (i : Nat) (s : State) : (pixelFilled i s).out = s.out := rfl
@[simp] theorem pixelFilled_readOut (i : Nat) (s : State) : (pixelFilled i s).readOut = s.readOut := rfl
@[simp] theorem pixelFilled_draws (i : Nat) (s : State) : (pixelFilled i s).draws = s.draws := rfl
@[simp] theorem pixelFilled_inputs (i : Nat) (s : State) : (pixelFilled i s).inputs = s.inputs := rfl

/-! ## cycleClosed -/

@[simp] theorem cycleClosed_par (s : State) : (cycleClosed s).par = s.par := rfl
@[simp] theorem cycleClosed_store (s : State) : (cycleClosed s).store = s.store := rfl
@[simp] theorem cycleClosed_wp (s : State) : (cycleClosed s).wp = s.wp := rfl
@[simp] theorem cycleClosed_mbox (s : State) : (cycleClosed s).mbox = s.mbox := rfl
@[simp] theorem cycleClosed_pend (s : State) : (cycleClosed s).pend = s.pend := rfl
@[simp] theorem cycleClosed_vtab (s : State) : (cycleClosed s).vtab = s.vtab := rfl
@[simp] theorem cycleClosed_htab (s : State) : (cycleClosed s).htab = s.htab := rfl
@[simp] theorem cycleClosed_act (s : State) : (cycleClosed s).act = s.act := rfl
@[simp] theorem cycleClosed_run (s : State) : (cycleClosed s).run = s.run := rfl
@[simp] theorem cycleClosed_cstate (s : State) : (cycleClosed s).cstate = .averaging := rfl
@[simp] theorem cycleClosed_trigIdx (s : State) : (cycleClosed s).trigIdx = s.trigIdx := rfl
@[simp] theorem cycleClosed_forced (s : State) : (cycleClosed s).forced = s.forced := rfl
@[simp] theorem cycleClosed_pix (s : State) : (cycleClosed s).pix = s.pix := rfl
@[simp] theorem cycleClosed_skipcnt (s : State) : (cycleClosed s).skipcnt = s.skipcnt := rfl
@[simp] theorem cycleClosed_framebuf (s : State) : (cycleClosed s).framebuf = s.framebuf := rfl
@[simp] theorem cycleClosed_acc (s : State) : (cycleClosed s).acc = ⟨Vector.replicate FL 0, Vector.replicate FL 0⟩ := rfl
@[simp] theorem cycleClosed_avgcnt (s : State) : (cycleClosed s).avgcnt = 0 := rfl
@[simp] theorem cycleClosed_miss (s : State) : (cycleClosed s).miss = s.miss := rfl
@[simp] theorem cycleClosed_lfValid (s : State) : (cycleClosed s).lfValid = s.lfValid := rfl
@[simp] theorem cycleClosed_lfData (s : State) : (cycleClosed s).lfData = s.lfData := rfl
@[simp] theorem cycleClosed_lfChen (s : State) : (cycleClosed s).lfChen = s.lfChen := rfl
@[simp] theorem cycleClosed_frameseq (s : State) : (cycleClosed s).frameseq = s.frameseq := rfl
@[simp] theorem cycleClosed_ry (s : State) : (cycleClosed s).ry = s.ry := rfl
@[simp] theorem cycleClosed_ryValid (s : State) : (cycleClosed s).ryValid = s.ryValid := rfl
@[simp] theorem cycleClosed_fset (s : State) : (cycleClosed s).fset = s.fset := rfl
@[simp] theorem cycleClosed_fcnt (s : State) : (cycleClosed s).fcnt = s.fcnt := rfl
@[simp] theorem cycleClosed_ovr (s : State) : (cycleClosed s).ovr = s.ovr := rfl
@[simp] theorem cycleClosed_cfgerr (s : State) : (cycleClosed s).cfgerr = s.cfgerr := rfl
@[simp] theorem cycleClosed_cmderr (s : State) : (cycleClosed s).cmderr = s.cmderr := rfl
@[simp] theorem cycleClosed_out (s : State) : (cycleClosed s).out = s.out := rfl
@[simp] theorem cycleClosed_readOut (s : State) : (cycleClosed s).readOut = s.readOut := rfl
@[simp] theorem cycleClosed_draws (s : State) : (cycleClosed s).draws = s.draws := rfl
@[simp] theorem cycleClosed_inputs (s : State) : (cycleClosed s).inputs = s.inputs := rfl

/-! ## occurrenceCounted -/

@[simp] theorem occurrenceCounted_par (s : State) : (occurrenceCounted s).par = s.par := rfl
@[simp] theorem occurrenceCounted_store (s : State) : (occurrenceCounted s).store = s.store := rfl
@[simp] theorem occurrenceCounted_wp (s : State) : (occurrenceCounted s).wp = s.wp := rfl
@[simp] theorem occurrenceCounted_mbox (s : State) : (occurrenceCounted s).mbox = s.mbox := rfl
@[simp] theorem occurrenceCounted_pend (s : State) : (occurrenceCounted s).pend = s.pend := rfl
@[simp] theorem occurrenceCounted_vtab (s : State) : (occurrenceCounted s).vtab = s.vtab := rfl
@[simp] theorem occurrenceCounted_htab (s : State) : (occurrenceCounted s).htab = s.htab := rfl
@[simp] theorem occurrenceCounted_act (s : State) : (occurrenceCounted s).act = s.act := rfl
@[simp] theorem occurrenceCounted_run (s : State) : (occurrenceCounted s).run = s.run := rfl
@[simp] theorem occurrenceCounted_cstate (s : State) : (occurrenceCounted s).cstate = s.cstate := rfl
@[simp] theorem occurrenceCounted_trigIdx (s : State) : (occurrenceCounted s).trigIdx = s.trigIdx := rfl
@[simp] theorem occurrenceCounted_forced (s : State) : (occurrenceCounted s).forced = s.forced := rfl
@[simp] theorem occurrenceCounted_pix (s : State) : (occurrenceCounted s).pix = s.pix := rfl
@[simp] theorem occurrenceCounted_skipcnt (s : State) : (occurrenceCounted s).skipcnt = s.skipcnt := rfl
@[simp] theorem occurrenceCounted_framebuf (s : State) : (occurrenceCounted s).framebuf = s.framebuf := rfl
@[simp] theorem occurrenceCounted_acc (s : State) : (occurrenceCounted s).acc = s.acc := rfl
@[simp] theorem occurrenceCounted_avgcnt (s : State) : (occurrenceCounted s).avgcnt = s.avgcnt + 1 := rfl
@[simp] theorem occurrenceCounted_miss (s : State) : (occurrenceCounted s).miss = s.miss := rfl
@[simp] theorem occurrenceCounted_lfValid (s : State) : (occurrenceCounted s).lfValid = s.lfValid := rfl
@[simp] theorem occurrenceCounted_lfData (s : State) : (occurrenceCounted s).lfData = s.lfData := rfl
@[simp] theorem occurrenceCounted_lfChen (s : State) : (occurrenceCounted s).lfChen = s.lfChen := rfl
@[simp] theorem occurrenceCounted_frameseq (s : State) : (occurrenceCounted s).frameseq = s.frameseq := rfl
@[simp] theorem occurrenceCounted_ry (s : State) : (occurrenceCounted s).ry = s.ry := rfl
@[simp] theorem occurrenceCounted_ryValid (s : State) : (occurrenceCounted s).ryValid = s.ryValid := rfl
@[simp] theorem occurrenceCounted_fset (s : State) : (occurrenceCounted s).fset = s.fset := rfl
@[simp] theorem occurrenceCounted_fcnt (s : State) : (occurrenceCounted s).fcnt = s.fcnt := rfl
@[simp] theorem occurrenceCounted_ovr (s : State) : (occurrenceCounted s).ovr = s.ovr := rfl
@[simp] theorem occurrenceCounted_cfgerr (s : State) : (occurrenceCounted s).cfgerr = s.cfgerr := rfl
@[simp] theorem occurrenceCounted_cmderr (s : State) : (occurrenceCounted s).cmderr = s.cmderr := rfl
@[simp] theorem occurrenceCounted_out (s : State) : (occurrenceCounted s).out = s.out := rfl
@[simp] theorem occurrenceCounted_readOut (s : State) : (occurrenceCounted s).readOut = s.readOut := rfl
@[simp] theorem occurrenceCounted_draws (s : State) : (occurrenceCounted s).draws = s.draws := rfl
@[simp] theorem occurrenceCounted_inputs (s : State) : (occurrenceCounted s).inputs = s.inputs := rfl

/-! ## occurrenceStarted -/

@[simp] theorem occurrenceStarted_par (T : Nat) (forced : Bool) (s : State) : (occurrenceStarted T forced s).par = s.par := rfl
@[simp] theorem occurrenceStarted_store (T : Nat) (forced : Bool) (s : State) : (occurrenceStarted T forced s).store = s.store := rfl
@[simp] theorem occurrenceStarted_wp (T : Nat) (forced : Bool) (s : State) : (occurrenceStarted T forced s).wp = s.wp := rfl
@[simp] theorem occurrenceStarted_mbox (T : Nat) (forced : Bool) (s : State) : (occurrenceStarted T forced s).mbox = s.mbox := rfl
@[simp] theorem occurrenceStarted_pend (T : Nat) (forced : Bool) (s : State) : (occurrenceStarted T forced s).pend = s.pend := rfl
@[simp] theorem occurrenceStarted_vtab (T : Nat) (forced : Bool) (s : State) : (occurrenceStarted T forced s).vtab = s.vtab := rfl
@[simp] theorem occurrenceStarted_htab (T : Nat) (forced : Bool) (s : State) : (occurrenceStarted T forced s).htab = s.htab := rfl
@[simp] theorem occurrenceStarted_act (T : Nat) (forced : Bool) (s : State) : (occurrenceStarted T forced s).act = s.act := rfl
@[simp] theorem occurrenceStarted_run (T : Nat) (forced : Bool) (s : State) : (occurrenceStarted T forced s).run = s.run := rfl
@[simp] theorem occurrenceStarted_cstate (T : Nat) (forced : Bool) (s : State) : (occurrenceStarted T forced s).cstate = .accumulating := rfl
@[simp] theorem occurrenceStarted_trigIdx (T : Nat) (forced : Bool) (s : State) : (occurrenceStarted T forced s).trigIdx = T := rfl
@[simp] theorem occurrenceStarted_forced (T : Nat) (forced : Bool) (s : State) : (occurrenceStarted T forced s).forced = ((if s.avgcnt = 0 then false else s.forced) || forced) := rfl
@[simp] theorem occurrenceStarted_pix (T : Nat) (forced : Bool) (s : State) : (occurrenceStarted T forced s).pix = s.act.pos + 1 := rfl
@[simp] theorem occurrenceStarted_skipcnt (T : Nat) (forced : Bool) (s : State) : (occurrenceStarted T forced s).skipcnt = s.act.skip := rfl
@[simp] theorem occurrenceStarted_framebuf (T : Nat) (forced : Bool) (s : State) : (occurrenceStarted T forced s).framebuf = s.framebuf := rfl
@[simp] theorem occurrenceStarted_acc (T : Nat) (forced : Bool) (s : State) : (occurrenceStarted T forced s).acc = .tabulate (backfillAccumulated s T) := rfl
@[simp] theorem occurrenceStarted_avgcnt (T : Nat) (forced : Bool) (s : State) : (occurrenceStarted T forced s).avgcnt = s.avgcnt := rfl
@[simp] theorem occurrenceStarted_miss (T : Nat) (forced : Bool) (s : State) : (occurrenceStarted T forced s).miss = s.miss := rfl
@[simp] theorem occurrenceStarted_lfValid (T : Nat) (forced : Bool) (s : State) : (occurrenceStarted T forced s).lfValid = s.lfValid := rfl
@[simp] theorem occurrenceStarted_lfData (T : Nat) (forced : Bool) (s : State) : (occurrenceStarted T forced s).lfData = s.lfData := rfl
@[simp] theorem occurrenceStarted_lfChen (T : Nat) (forced : Bool) (s : State) : (occurrenceStarted T forced s).lfChen = s.lfChen := rfl
@[simp] theorem occurrenceStarted_frameseq (T : Nat) (forced : Bool) (s : State) : (occurrenceStarted T forced s).frameseq = s.frameseq := rfl
@[simp] theorem occurrenceStarted_ry (T : Nat) (forced : Bool) (s : State) : (occurrenceStarted T forced s).ry = s.ry := rfl
@[simp] theorem occurrenceStarted_ryValid (T : Nat) (forced : Bool) (s : State) : (occurrenceStarted T forced s).ryValid = s.ryValid := rfl
@[simp] theorem occurrenceStarted_fset (T : Nat) (forced : Bool) (s : State) : (occurrenceStarted T forced s).fset = s.fset := rfl
@[simp] theorem occurrenceStarted_fcnt (T : Nat) (forced : Bool) (s : State) : (occurrenceStarted T forced s).fcnt = s.fcnt := rfl
@[simp] theorem occurrenceStarted_ovr (T : Nat) (forced : Bool) (s : State) : (occurrenceStarted T forced s).ovr = s.ovr := rfl
@[simp] theorem occurrenceStarted_cfgerr (T : Nat) (forced : Bool) (s : State) : (occurrenceStarted T forced s).cfgerr = s.cfgerr := rfl
@[simp] theorem occurrenceStarted_cmderr (T : Nat) (forced : Bool) (s : State) : (occurrenceStarted T forced s).cmderr = s.cmderr := rfl
@[simp] theorem occurrenceStarted_out (T : Nat) (forced : Bool) (s : State) : (occurrenceStarted T forced s).out = s.out := rfl
@[simp] theorem occurrenceStarted_readOut (T : Nat) (forced : Bool) (s : State) : (occurrenceStarted T forced s).readOut = s.readOut := rfl
@[simp] theorem occurrenceStarted_draws (T : Nat) (forced : Bool) (s : State) : (occurrenceStarted T forced s).draws = s.draws := rfl
@[simp] theorem occurrenceStarted_inputs (T : Nat) (forced : Bool) (s : State) : (occurrenceStarted T forced s).inputs = s.inputs := rfl

/-! ## pixelAccumulated -/

@[simp] theorem pixelAccumulated_par (i : Nat) (s : State) : (pixelAccumulated i s).par = s.par := rfl
@[simp] theorem pixelAccumulated_store (i : Nat) (s : State) : (pixelAccumulated i s).store = s.store := rfl
@[simp] theorem pixelAccumulated_wp (i : Nat) (s : State) : (pixelAccumulated i s).wp = s.wp := rfl
@[simp] theorem pixelAccumulated_mbox (i : Nat) (s : State) : (pixelAccumulated i s).mbox = s.mbox := rfl
@[simp] theorem pixelAccumulated_pend (i : Nat) (s : State) : (pixelAccumulated i s).pend = s.pend := rfl
@[simp] theorem pixelAccumulated_vtab (i : Nat) (s : State) : (pixelAccumulated i s).vtab = s.vtab := rfl
@[simp] theorem pixelAccumulated_htab (i : Nat) (s : State) : (pixelAccumulated i s).htab = s.htab := rfl
@[simp] theorem pixelAccumulated_act (i : Nat) (s : State) : (pixelAccumulated i s).act = s.act := rfl
@[simp] theorem pixelAccumulated_run (i : Nat) (s : State) : (pixelAccumulated i s).run = s.run := rfl
@[simp] theorem pixelAccumulated_cstate (i : Nat) (s : State) : (pixelAccumulated i s).cstate = s.cstate := rfl
@[simp] theorem pixelAccumulated_trigIdx (i : Nat) (s : State) : (pixelAccumulated i s).trigIdx = s.trigIdx := rfl
@[simp] theorem pixelAccumulated_forced (i : Nat) (s : State) : (pixelAccumulated i s).forced = s.forced := rfl
@[simp] theorem pixelAccumulated_pix (i : Nat) (s : State) : (pixelAccumulated i s).pix = s.pix + 1 := rfl
@[simp] theorem pixelAccumulated_skipcnt (i : Nat) (s : State) : (pixelAccumulated i s).skipcnt = s.act.skip := rfl
@[simp] theorem pixelAccumulated_framebuf (i : Nat) (s : State) : (pixelAccumulated i s).framebuf = s.framebuf := rfl
@[simp] theorem pixelAccumulated_acc (i : Nat) (s : State) : (pixelAccumulated i s).acc = .tabulate fun ch => accumulateAt (s.acc.get ch) s.pix.toNat (storeRead s ch i) := rfl
@[simp] theorem pixelAccumulated_avgcnt (i : Nat) (s : State) : (pixelAccumulated i s).avgcnt = s.avgcnt := rfl
@[simp] theorem pixelAccumulated_miss (i : Nat) (s : State) : (pixelAccumulated i s).miss = s.miss := rfl
@[simp] theorem pixelAccumulated_lfValid (i : Nat) (s : State) : (pixelAccumulated i s).lfValid = s.lfValid := rfl
@[simp] theorem pixelAccumulated_lfData (i : Nat) (s : State) : (pixelAccumulated i s).lfData = s.lfData := rfl
@[simp] theorem pixelAccumulated_lfChen (i : Nat) (s : State) : (pixelAccumulated i s).lfChen = s.lfChen := rfl
@[simp] theorem pixelAccumulated_frameseq (i : Nat) (s : State) : (pixelAccumulated i s).frameseq = s.frameseq := rfl
@[simp] theorem pixelAccumulated_ry (i : Nat) (s : State) : (pixelAccumulated i s).ry = s.ry := rfl
@[simp] theorem pixelAccumulated_ryValid (i : Nat) (s : State) : (pixelAccumulated i s).ryValid = s.ryValid := rfl
@[simp] theorem pixelAccumulated_fset (i : Nat) (s : State) : (pixelAccumulated i s).fset = s.fset := rfl
@[simp] theorem pixelAccumulated_fcnt (i : Nat) (s : State) : (pixelAccumulated i s).fcnt = s.fcnt := rfl
@[simp] theorem pixelAccumulated_ovr (i : Nat) (s : State) : (pixelAccumulated i s).ovr = s.ovr := rfl
@[simp] theorem pixelAccumulated_cfgerr (i : Nat) (s : State) : (pixelAccumulated i s).cfgerr = s.cfgerr := rfl
@[simp] theorem pixelAccumulated_cmderr (i : Nat) (s : State) : (pixelAccumulated i s).cmderr = s.cmderr := rfl
@[simp] theorem pixelAccumulated_out (i : Nat) (s : State) : (pixelAccumulated i s).out = s.out := rfl
@[simp] theorem pixelAccumulated_readOut (i : Nat) (s : State) : (pixelAccumulated i s).readOut = s.readOut := rfl
@[simp] theorem pixelAccumulated_draws (i : Nat) (s : State) : (pixelAccumulated i s).draws = s.draws := rfl
@[simp] theorem pixelAccumulated_inputs (i : Nat) (s : State) : (pixelAccumulated i s).inputs = s.inputs := rfl

/-! ## withMiss -/

@[simp] theorem withMiss_par (m : BitVec 16) (s : State) : (withMiss m s).par = s.par := rfl
@[simp] theorem withMiss_store (m : BitVec 16) (s : State) : (withMiss m s).store = s.store := rfl
@[simp] theorem withMiss_wp (m : BitVec 16) (s : State) : (withMiss m s).wp = s.wp := rfl
@[simp] theorem withMiss_mbox (m : BitVec 16) (s : State) : (withMiss m s).mbox = s.mbox := rfl
@[simp] theorem withMiss_pend (m : BitVec 16) (s : State) : (withMiss m s).pend = s.pend := rfl
@[simp] theorem withMiss_vtab (m : BitVec 16) (s : State) : (withMiss m s).vtab = s.vtab := rfl
@[simp] theorem withMiss_htab (m : BitVec 16) (s : State) : (withMiss m s).htab = s.htab := rfl
@[simp] theorem withMiss_act (m : BitVec 16) (s : State) : (withMiss m s).act = s.act := rfl
@[simp] theorem withMiss_run (m : BitVec 16) (s : State) : (withMiss m s).run = s.run := rfl
@[simp] theorem withMiss_cstate (m : BitVec 16) (s : State) : (withMiss m s).cstate = s.cstate := rfl
@[simp] theorem withMiss_trigIdx (m : BitVec 16) (s : State) : (withMiss m s).trigIdx = s.trigIdx := rfl
@[simp] theorem withMiss_forced (m : BitVec 16) (s : State) : (withMiss m s).forced = s.forced := rfl
@[simp] theorem withMiss_pix (m : BitVec 16) (s : State) : (withMiss m s).pix = s.pix := rfl
@[simp] theorem withMiss_skipcnt (m : BitVec 16) (s : State) : (withMiss m s).skipcnt = s.skipcnt := rfl
@[simp] theorem withMiss_framebuf (m : BitVec 16) (s : State) : (withMiss m s).framebuf = s.framebuf := rfl
@[simp] theorem withMiss_acc (m : BitVec 16) (s : State) : (withMiss m s).acc = s.acc := rfl
@[simp] theorem withMiss_avgcnt (m : BitVec 16) (s : State) : (withMiss m s).avgcnt = s.avgcnt := rfl
@[simp] theorem withMiss_miss (m : BitVec 16) (s : State) : (withMiss m s).miss = m := rfl
@[simp] theorem withMiss_lfValid (m : BitVec 16) (s : State) : (withMiss m s).lfValid = s.lfValid := rfl
@[simp] theorem withMiss_lfData (m : BitVec 16) (s : State) : (withMiss m s).lfData = s.lfData := rfl
@[simp] theorem withMiss_lfChen (m : BitVec 16) (s : State) : (withMiss m s).lfChen = s.lfChen := rfl
@[simp] theorem withMiss_frameseq (m : BitVec 16) (s : State) : (withMiss m s).frameseq = s.frameseq := rfl
@[simp] theorem withMiss_ry (m : BitVec 16) (s : State) : (withMiss m s).ry = s.ry := rfl
@[simp] theorem withMiss_ryValid (m : BitVec 16) (s : State) : (withMiss m s).ryValid = s.ryValid := rfl
@[simp] theorem withMiss_fset (m : BitVec 16) (s : State) : (withMiss m s).fset = s.fset := rfl
@[simp] theorem withMiss_fcnt (m : BitVec 16) (s : State) : (withMiss m s).fcnt = s.fcnt := rfl
@[simp] theorem withMiss_ovr (m : BitVec 16) (s : State) : (withMiss m s).ovr = s.ovr := rfl
@[simp] theorem withMiss_cfgerr (m : BitVec 16) (s : State) : (withMiss m s).cfgerr = s.cfgerr := rfl
@[simp] theorem withMiss_cmderr (m : BitVec 16) (s : State) : (withMiss m s).cmderr = s.cmderr := rfl
@[simp] theorem withMiss_out (m : BitVec 16) (s : State) : (withMiss m s).out = s.out := rfl
@[simp] theorem withMiss_readOut (m : BitVec 16) (s : State) : (withMiss m s).readOut = s.readOut := rfl
@[simp] theorem withMiss_draws (m : BitVec 16) (s : State) : (withMiss m s).draws = s.draws := rfl
@[simp] theorem withMiss_inputs (m : BitVec 16) (s : State) : (withMiss m s).inputs = s.inputs := rfl

/-! ## decodeBlock -/

@[simp] theorem decodeBlock_par (words : List RawWord) (s : State) : (decodeBlock words s).par = s.par := rfl
@[simp] theorem decodeBlock_store (words : List RawWord) (s : State) : (decodeBlock words s).store = storeBlock s.wp words s.store := rfl
@[simp] theorem decodeBlock_wp (words : List RawWord) (s : State) : (decodeBlock words s).wp = (s.wp + s.par.n) % s.par.cap := rfl
@[simp] theorem decodeBlock_mbox (words : List RawWord) (s : State) : (decodeBlock words s).mbox = s.mbox := rfl
@[simp] theorem decodeBlock_pend (words : List RawWord) (s : State) : (decodeBlock words s).pend = s.pend := rfl
@[simp] theorem decodeBlock_vtab (words : List RawWord) (s : State) : (decodeBlock words s).vtab = s.vtab := rfl
@[simp] theorem decodeBlock_htab (words : List RawWord) (s : State) : (decodeBlock words s).htab = s.htab := rfl
@[simp] theorem decodeBlock_act (words : List RawWord) (s : State) : (decodeBlock words s).act = s.act := rfl
@[simp] theorem decodeBlock_run (words : List RawWord) (s : State) : (decodeBlock words s).run = s.run := rfl
@[simp] theorem decodeBlock_cstate (words : List RawWord) (s : State) : (decodeBlock words s).cstate = s.cstate := rfl
@[simp] theorem decodeBlock_trigIdx (words : List RawWord) (s : State) : (decodeBlock words s).trigIdx = s.trigIdx := rfl
@[simp] theorem decodeBlock_forced (words : List RawWord) (s : State) : (decodeBlock words s).forced = s.forced := rfl
@[simp] theorem decodeBlock_pix (words : List RawWord) (s : State) : (decodeBlock words s).pix = s.pix := rfl
@[simp] theorem decodeBlock_skipcnt (words : List RawWord) (s : State) : (decodeBlock words s).skipcnt = s.skipcnt := rfl
@[simp] theorem decodeBlock_framebuf (words : List RawWord) (s : State) : (decodeBlock words s).framebuf = s.framebuf := rfl
@[simp] theorem decodeBlock_acc (words : List RawWord) (s : State) : (decodeBlock words s).acc = s.acc := rfl
@[simp] theorem decodeBlock_avgcnt (words : List RawWord) (s : State) : (decodeBlock words s).avgcnt = s.avgcnt := rfl
@[simp] theorem decodeBlock_miss (words : List RawWord) (s : State) : (decodeBlock words s).miss = s.miss := rfl
@[simp] theorem decodeBlock_lfValid (words : List RawWord) (s : State) : (decodeBlock words s).lfValid = s.lfValid := rfl
@[simp] theorem decodeBlock_lfData (words : List RawWord) (s : State) : (decodeBlock words s).lfData = s.lfData := rfl
@[simp] theorem decodeBlock_lfChen (words : List RawWord) (s : State) : (decodeBlock words s).lfChen = s.lfChen := rfl
@[simp] theorem decodeBlock_frameseq (words : List RawWord) (s : State) : (decodeBlock words s).frameseq = s.frameseq := rfl
@[simp] theorem decodeBlock_ry (words : List RawWord) (s : State) : (decodeBlock words s).ry = s.ry := rfl
@[simp] theorem decodeBlock_ryValid (words : List RawWord) (s : State) : (decodeBlock words s).ryValid = s.ryValid := rfl
@[simp] theorem decodeBlock_fset (words : List RawWord) (s : State) : (decodeBlock words s).fset = s.fset := rfl
@[simp] theorem decodeBlock_fcnt (words : List RawWord) (s : State) : (decodeBlock words s).fcnt = s.fcnt := rfl
@[simp] theorem decodeBlock_ovr (words : List RawWord) (s : State) : (decodeBlock words s).ovr = s.ovr := rfl
@[simp] theorem decodeBlock_cfgerr (words : List RawWord) (s : State) : (decodeBlock words s).cfgerr = s.cfgerr := rfl
@[simp] theorem decodeBlock_cmderr (words : List RawWord) (s : State) : (decodeBlock words s).cmderr = s.cmderr := rfl
@[simp] theorem decodeBlock_out (words : List RawWord) (s : State) : (decodeBlock words s).out = s.out := rfl
@[simp] theorem decodeBlock_readOut (words : List RawWord) (s : State) : (decodeBlock words s).readOut = s.readOut := rfl
@[simp] theorem decodeBlock_draws (words : List RawWord) (s : State) : (decodeBlock words s).draws = s.draws := rfl
@[simp] theorem decodeBlock_inputs (words : List RawWord) (s : State) : (decodeBlock words s).inputs = s.inputs := rfl

/-! ## consumed -/

@[simp] theorem consumed_par (k : Slot) (s : State) : (consumed k s).par = s.par := rfl
@[simp] theorem consumed_store (k : Slot) (s : State) : (consumed k s).store = s.store := rfl
@[simp] theorem consumed_wp (k : Slot) (s : State) : (consumed k s).wp = s.wp := rfl
@[simp] theorem consumed_mbox (k : Slot) (s : State) : (consumed k s).mbox = s.mbox.set k { s.mbox.get k with flag := false } := rfl
@[simp] theorem consumed_pend (k : Slot) (s : State) : (consumed k s).pend = s.pend := rfl
@[simp] theorem consumed_vtab (k : Slot) (s : State) : (consumed k s).vtab = s.vtab := rfl
@[simp] theorem consumed_htab (k : Slot) (s : State) : (consumed k s).htab = s.htab := rfl
@[simp] theorem consumed_act (k : Slot) (s : State) : (consumed k s).act = s.act := rfl
@[simp] theorem consumed_run (k : Slot) (s : State) : (consumed k s).run = s.run := rfl
@[simp] theorem consumed_cstate (k : Slot) (s : State) : (consumed k s).cstate = s.cstate := rfl
@[simp] theorem consumed_trigIdx (k : Slot) (s : State) : (consumed k s).trigIdx = s.trigIdx := rfl
@[simp] theorem consumed_forced (k : Slot) (s : State) : (consumed k s).forced = s.forced := rfl
@[simp] theorem consumed_pix (k : Slot) (s : State) : (consumed k s).pix = s.pix := rfl
@[simp] theorem consumed_skipcnt (k : Slot) (s : State) : (consumed k s).skipcnt = s.skipcnt := rfl
@[simp] theorem consumed_framebuf (k : Slot) (s : State) : (consumed k s).framebuf = s.framebuf := rfl
@[simp] theorem consumed_acc (k : Slot) (s : State) : (consumed k s).acc = s.acc := rfl
@[simp] theorem consumed_avgcnt (k : Slot) (s : State) : (consumed k s).avgcnt = s.avgcnt := rfl
@[simp] theorem consumed_miss (k : Slot) (s : State) : (consumed k s).miss = s.miss := rfl
@[simp] theorem consumed_lfValid (k : Slot) (s : State) : (consumed k s).lfValid = s.lfValid := rfl
@[simp] theorem consumed_lfData (k : Slot) (s : State) : (consumed k s).lfData = s.lfData := rfl
@[simp] theorem consumed_lfChen (k : Slot) (s : State) : (consumed k s).lfChen = s.lfChen := rfl
@[simp] theorem consumed_frameseq (k : Slot) (s : State) : (consumed k s).frameseq = s.frameseq := rfl
@[simp] theorem consumed_ry (k : Slot) (s : State) : (consumed k s).ry = s.ry := rfl
@[simp] theorem consumed_ryValid (k : Slot) (s : State) : (consumed k s).ryValid = s.ryValid := rfl
@[simp] theorem consumed_fset (k : Slot) (s : State) : (consumed k s).fset = s.fset := rfl
@[simp] theorem consumed_fcnt (k : Slot) (s : State) : (consumed k s).fcnt = s.fcnt := rfl
@[simp] theorem consumed_ovr (k : Slot) (s : State) : (consumed k s).ovr = s.ovr := rfl
@[simp] theorem consumed_cfgerr (k : Slot) (s : State) : (consumed k s).cfgerr = s.cfgerr := rfl
@[simp] theorem consumed_cmderr (k : Slot) (s : State) : (consumed k s).cmderr = s.cmderr := rfl
@[simp] theorem consumed_out (k : Slot) (s : State) : (consumed k s).out = s.out := rfl
@[simp] theorem consumed_readOut (k : Slot) (s : State) : (consumed k s).readOut = s.readOut := rfl
@[simp] theorem consumed_draws (k : Slot) (s : State) : (consumed k s).draws = s.draws := rfl
@[simp] theorem consumed_inputs (k : Slot) (s : State) : (consumed k s).inputs = s.inputs := rfl

/-! ## fillSlot -/

@[simp] theorem fillSlot_par (k : Slot) (words : List RawWord) (s : State) : (fillSlot k words s).par = s.par := rfl
@[simp] theorem fillSlot_store (k : Slot) (words : List RawWord) (s : State) : (fillSlot k words s).store = s.store := rfl
@[simp] theorem fillSlot_wp (k : Slot) (words : List RawWord) (s : State) : (fillSlot k words s).wp = s.wp := rfl
@[simp] theorem fillSlot_mbox (k : Slot) (words : List RawWord) (s : State) : (fillSlot k words s).mbox = s.mbox.set k ⟨words, true⟩ := rfl
@[simp] theorem fillSlot_pend (k : Slot) (words : List RawWord) (s : State) : (fillSlot k words s).pend = s.pend := rfl
@[simp] theorem fillSlot_vtab (k : Slot) (words : List RawWord) (s : State) : (fillSlot k words s).vtab = s.vtab := rfl
@[simp] theorem fillSlot_htab (k : Slot) (words : List RawWord) (s : State) : (fillSlot k words s).htab = s.htab := rfl
@[simp] theorem fillSlot_act (k : Slot) (words : List RawWord) (s : State) : (fillSlot k words s).act = s.act := rfl
@[simp] theorem fillSlot_run (k : Slot) (words : List RawWord) (s : State) : (fillSlot k words s).run = s.run := rfl
@[simp] theorem fillSlot_cstate (k : Slot) (words : List RawWord) (s : State) : (fillSlot k words s).cstate = s.cstate := rfl
@[simp] theorem fillSlot_trigIdx (k : Slot) (words : List RawWord) (s : State) : (fillSlot k words s).trigIdx = s.trigIdx := rfl
@[simp] theorem fillSlot_forced (k : Slot) (words : List RawWord) (s : State) : (fillSlot k words s).forced = s.forced := rfl
@[simp] theorem fillSlot_pix (k : Slot) (words : List RawWord) (s : State) : (fillSlot k words s).pix = s.pix := rfl
@[simp] theorem fillSlot_skipcnt (k : Slot) (words : List RawWord) (s : State) : (fillSlot k words s).skipcnt = s.skipcnt := rfl
@[simp] theorem fillSlot_framebuf (k : Slot) (words : List RawWord) (s : State) : (fillSlot k words s).framebuf = s.framebuf := rfl
@[simp] theorem fillSlot_acc (k : Slot) (words : List RawWord) (s : State) : (fillSlot k words s).acc = s.acc := rfl
@[simp] theorem fillSlot_avgcnt (k : Slot) (words : List RawWord) (s : State) : (fillSlot k words s).avgcnt = s.avgcnt := rfl
@[simp] theorem fillSlot_miss (k : Slot) (words : List RawWord) (s : State) : (fillSlot k words s).miss = s.miss := rfl
@[simp] theorem fillSlot_lfValid (k : Slot) (words : List RawWord) (s : State) : (fillSlot k words s).lfValid = s.lfValid := rfl
@[simp] theorem fillSlot_lfData (k : Slot) (words : List RawWord) (s : State) : (fillSlot k words s).lfData = s.lfData := rfl
@[simp] theorem fillSlot_lfChen (k : Slot) (words : List RawWord) (s : State) : (fillSlot k words s).lfChen = s.lfChen := rfl
@[simp] theorem fillSlot_frameseq (k : Slot) (words : List RawWord) (s : State) : (fillSlot k words s).frameseq = s.frameseq := rfl
@[simp] theorem fillSlot_ry (k : Slot) (words : List RawWord) (s : State) : (fillSlot k words s).ry = s.ry := rfl
@[simp] theorem fillSlot_ryValid (k : Slot) (words : List RawWord) (s : State) : (fillSlot k words s).ryValid = s.ryValid := rfl
@[simp] theorem fillSlot_fset (k : Slot) (words : List RawWord) (s : State) : (fillSlot k words s).fset = s.fset := rfl
@[simp] theorem fillSlot_fcnt (k : Slot) (words : List RawWord) (s : State) : (fillSlot k words s).fcnt = s.fcnt := rfl
@[simp] theorem fillSlot_ovr (k : Slot) (words : List RawWord) (s : State) : (fillSlot k words s).ovr = s.ovr := rfl
@[simp] theorem fillSlot_cfgerr (k : Slot) (words : List RawWord) (s : State) : (fillSlot k words s).cfgerr = s.cfgerr := rfl
@[simp] theorem fillSlot_cmderr (k : Slot) (words : List RawWord) (s : State) : (fillSlot k words s).cmderr = s.cmderr := rfl
@[simp] theorem fillSlot_out (k : Slot) (words : List RawWord) (s : State) : (fillSlot k words s).out = s.out := rfl
@[simp] theorem fillSlot_readOut (k : Slot) (words : List RawWord) (s : State) : (fillSlot k words s).readOut = s.readOut := rfl
@[simp] theorem fillSlot_draws (k : Slot) (words : List RawWord) (s : State) : (fillSlot k words s).draws = s.draws := rfl
@[simp] theorem fillSlot_inputs (k : Slot) (words : List RawWord) (s : State) : (fillSlot k words s).inputs = s.inputs := rfl

/-! ## overrun -/

@[simp] theorem overrun_par (k : Slot) (s : State) : (overrun k s).par = s.par := rfl
@[simp] theorem overrun_store (k : Slot) (s : State) : (overrun k s).store = s.store := rfl
@[simp] theorem overrun_wp (k : Slot) (s : State) : (overrun k s).wp = s.wp := rfl
@[simp] theorem overrun_mbox (k : Slot) (s : State) : (overrun k s).mbox = s.mbox.set k ⟨drawnWords s.draws s.par.n, true⟩ := rfl
@[simp] theorem overrun_pend (k : Slot) (s : State) : (overrun k s).pend = s.pend := rfl
@[simp] theorem overrun_vtab (k : Slot) (s : State) : (overrun k s).vtab = s.vtab := rfl
@[simp] theorem overrun_htab (k : Slot) (s : State) : (overrun k s).htab = s.htab := rfl
@[simp] theorem overrun_act (k : Slot) (s : State) : (overrun k s).act = s.act := rfl
@[simp] theorem overrun_run (k : Slot) (s : State) : (overrun k s).run = s.run := rfl
@[simp] theorem overrun_cstate (k : Slot) (s : State) : (overrun k s).cstate = s.cstate := rfl
@[simp] theorem overrun_trigIdx (k : Slot) (s : State) : (overrun k s).trigIdx = s.trigIdx := rfl
@[simp] theorem overrun_forced (k : Slot) (s : State) : (overrun k s).forced = s.forced := rfl
@[simp] theorem overrun_pix (k : Slot) (s : State) : (overrun k s).pix = s.pix := rfl
@[simp] theorem overrun_skipcnt (k : Slot) (s : State) : (overrun k s).skipcnt = s.skipcnt := rfl
@[simp] theorem overrun_framebuf (k : Slot) (s : State) : (overrun k s).framebuf = s.framebuf := rfl
@[simp] theorem overrun_acc (k : Slot) (s : State) : (overrun k s).acc = s.acc := rfl
@[simp] theorem overrun_avgcnt (k : Slot) (s : State) : (overrun k s).avgcnt = s.avgcnt := rfl
@[simp] theorem overrun_miss (k : Slot) (s : State) : (overrun k s).miss = s.miss := rfl
@[simp] theorem overrun_lfValid (k : Slot) (s : State) : (overrun k s).lfValid = s.lfValid := rfl
@[simp] theorem overrun_lfData (k : Slot) (s : State) : (overrun k s).lfData = s.lfData := rfl
@[simp] theorem overrun_lfChen (k : Slot) (s : State) : (overrun k s).lfChen = s.lfChen := rfl
@[simp] theorem overrun_frameseq (k : Slot) (s : State) : (overrun k s).frameseq = s.frameseq := rfl
@[simp] theorem overrun_ry (k : Slot) (s : State) : (overrun k s).ry = s.ry := rfl
@[simp] theorem overrun_ryValid (k : Slot) (s : State) : (overrun k s).ryValid = s.ryValid := rfl
@[simp] theorem overrun_fset (k : Slot) (s : State) : (overrun k s).fset = s.fset := rfl
@[simp] theorem overrun_fcnt (k : Slot) (s : State) : (overrun k s).fcnt = s.fcnt := rfl
@[simp] theorem overrun_ovr (k : Slot) (s : State) : (overrun k s).ovr = true := rfl
@[simp] theorem overrun_cfgerr (k : Slot) (s : State) : (overrun k s).cfgerr = s.cfgerr := rfl
@[simp] theorem overrun_cmderr (k : Slot) (s : State) : (overrun k s).cmderr = s.cmderr := rfl
@[simp] theorem overrun_out (k : Slot) (s : State) : (overrun k s).out = s.out := rfl
@[simp] theorem overrun_readOut (k : Slot) (s : State) : (overrun k s).readOut = s.readOut := rfl
@[simp] theorem overrun_draws (k : Slot) (s : State) : (overrun k s).draws = s.draws + s.par.n := rfl
@[simp] theorem overrun_inputs (k : Slot) (s : State) : (overrun k s).inputs = s.inputs := rfl

/-! ## readStep -/

@[simp] theorem readStep_par (addr : BitVec 8) (s : State) : (readStep addr s).par = s.par := rfl
@[simp] theorem readStep_store (addr : BitVec 8) (s : State) : (readStep addr s).store = s.store := rfl
@[simp] theorem readStep_wp (addr : BitVec 8) (s : State) : (readStep addr s).wp = s.wp := rfl
@[simp] theorem readStep_mbox (addr : BitVec 8) (s : State) : (readStep addr s).mbox = s.mbox := rfl
@[simp] theorem readStep_pend (addr : BitVec 8) (s : State) : (readStep addr s).pend = s.pend := rfl
@[simp] theorem readStep_vtab (addr : BitVec 8) (s : State) : (readStep addr s).vtab = s.vtab := rfl
@[simp] theorem readStep_htab (addr : BitVec 8) (s : State) : (readStep addr s).htab = s.htab := rfl
@[simp] theorem readStep_act (addr : BitVec 8) (s : State) : (readStep addr s).act = s.act := rfl
@[simp] theorem readStep_run (addr : BitVec 8) (s : State) : (readStep addr s).run = s.run := rfl
@[simp] theorem readStep_cstate (addr : BitVec 8) (s : State) : (readStep addr s).cstate = s.cstate := rfl
@[simp] theorem readStep_trigIdx (addr : BitVec 8) (s : State) : (readStep addr s).trigIdx = s.trigIdx := rfl
@[simp] theorem readStep_forced (addr : BitVec 8) (s : State) : (readStep addr s).forced = s.forced := rfl
@[simp] theorem readStep_pix (addr : BitVec 8) (s : State) : (readStep addr s).pix = s.pix := rfl
@[simp] theorem readStep_skipcnt (addr : BitVec 8) (s : State) : (readStep addr s).skipcnt = s.skipcnt := rfl
@[simp] theorem readStep_framebuf (addr : BitVec 8) (s : State) : (readStep addr s).framebuf = s.framebuf := rfl
@[simp] theorem readStep_acc (addr : BitVec 8) (s : State) : (readStep addr s).acc = s.acc := rfl
@[simp] theorem readStep_avgcnt (addr : BitVec 8) (s : State) : (readStep addr s).avgcnt = s.avgcnt := rfl
@[simp] theorem readStep_miss (addr : BitVec 8) (s : State) : (readStep addr s).miss = s.miss := rfl
@[simp] theorem readStep_lfValid (addr : BitVec 8) (s : State) : (readStep addr s).lfValid = s.lfValid := rfl
@[simp] theorem readStep_lfData (addr : BitVec 8) (s : State) : (readStep addr s).lfData = s.lfData := rfl
@[simp] theorem readStep_lfChen (addr : BitVec 8) (s : State) : (readStep addr s).lfChen = s.lfChen := rfl
@[simp] theorem readStep_frameseq (addr : BitVec 8) (s : State) : (readStep addr s).frameseq = s.frameseq := rfl
@[simp] theorem readStep_ry (addr : BitVec 8) (s : State) : (readStep addr s).ry = s.ry := rfl
@[simp] theorem readStep_ryValid (addr : BitVec 8) (s : State) : (readStep addr s).ryValid = s.ryValid := rfl
@[simp] theorem readStep_fset (addr : BitVec 8) (s : State) : (readStep addr s).fset = s.fset := rfl
@[simp] theorem readStep_fcnt (addr : BitVec 8) (s : State) : (readStep addr s).fcnt = s.fcnt := rfl
@[simp] theorem readStep_ovr (addr : BitVec 8) (s : State) : (readStep addr s).ovr = s.ovr := rfl
@[simp] theorem readStep_cfgerr (addr : BitVec 8) (s : State) : (readStep addr s).cfgerr = s.cfgerr := rfl
@[simp] theorem readStep_cmderr (addr : BitVec 8) (s : State) : (readStep addr s).cmderr = s.cmderr := rfl
@[simp] theorem readStep_out (addr : BitVec 8) (s : State) : (readStep addr s).out = s.out := rfl
@[simp] theorem readStep_readOut (addr : BitVec 8) (s : State) : (readStep addr s).readOut = s.readOut ++ [(addr, readPort s addr)] := rfl
@[simp] theorem readStep_draws (addr : BitVec 8) (s : State) : (readStep addr s).draws = s.draws := rfl
@[simp] theorem readStep_inputs (addr : BitVec 8) (s : State) : (readStep addr s).inputs = s.inputs := rfl

/-! ## withCommand -/

@[simp] theorem withCommand_par (w : CmdWord) (s : State) : (withCommand w s).par = s.par := rfl
@[simp] theorem withCommand_store (w : CmdWord) (s : State) : (withCommand w s).store = s.store := rfl
@[simp] theorem withCommand_wp (w : CmdWord) (s : State) : (withCommand w s).wp = s.wp := rfl
@[simp] theorem withCommand_mbox (w : CmdWord) (s : State) : (withCommand w s).mbox = s.mbox := rfl
@[simp] theorem withCommand_pend (w : CmdWord) (s : State) : (withCommand w s).pend = s.pend := rfl
@[simp] theorem withCommand_vtab (w : CmdWord) (s : State) : (withCommand w s).vtab = s.vtab := rfl
@[simp] theorem withCommand_htab (w : CmdWord) (s : State) : (withCommand w s).htab = s.htab := rfl
@[simp] theorem withCommand_act (w : CmdWord) (s : State) : (withCommand w s).act = s.act := rfl
@[simp] theorem withCommand_run (w : CmdWord) (s : State) : (withCommand w s).run = s.run := rfl
@[simp] theorem withCommand_cstate (w : CmdWord) (s : State) : (withCommand w s).cstate = s.cstate := rfl
@[simp] theorem withCommand_trigIdx (w : CmdWord) (s : State) : (withCommand w s).trigIdx = s.trigIdx := rfl
@[simp] theorem withCommand_forced (w : CmdWord) (s : State) : (withCommand w s).forced = s.forced := rfl
@[simp] theorem withCommand_pix (w : CmdWord) (s : State) : (withCommand w s).pix = s.pix := rfl
@[simp] theorem withCommand_skipcnt (w : CmdWord) (s : State) : (withCommand w s).skipcnt = s.skipcnt := rfl
@[simp] theorem withCommand_framebuf (w : CmdWord) (s : State) : (withCommand w s).framebuf = s.framebuf := rfl
@[simp] theorem withCommand_acc (w : CmdWord) (s : State) : (withCommand w s).acc = s.acc := rfl
@[simp] theorem withCommand_avgcnt (w : CmdWord) (s : State) : (withCommand w s).avgcnt = s.avgcnt := rfl
@[simp] theorem withCommand_miss (w : CmdWord) (s : State) : (withCommand w s).miss = s.miss := rfl
@[simp] theorem withCommand_lfValid (w : CmdWord) (s : State) : (withCommand w s).lfValid = s.lfValid := rfl
@[simp] theorem withCommand_lfData (w : CmdWord) (s : State) : (withCommand w s).lfData = s.lfData := rfl
@[simp] theorem withCommand_lfChen (w : CmdWord) (s : State) : (withCommand w s).lfChen = s.lfChen := rfl
@[simp] theorem withCommand_frameseq (w : CmdWord) (s : State) : (withCommand w s).frameseq = s.frameseq := rfl
@[simp] theorem withCommand_ry (w : CmdWord) (s : State) : (withCommand w s).ry = s.ry := rfl
@[simp] theorem withCommand_ryValid (w : CmdWord) (s : State) : (withCommand w s).ryValid = s.ryValid := rfl
@[simp] theorem withCommand_fset (w : CmdWord) (s : State) : (withCommand w s).fset = s.fset := rfl
@[simp] theorem withCommand_fcnt (w : CmdWord) (s : State) : (withCommand w s).fcnt = s.fcnt := rfl
@[simp] theorem withCommand_ovr (w : CmdWord) (s : State) : (withCommand w s).ovr = s.ovr := rfl
@[simp] theorem withCommand_cfgerr (w : CmdWord) (s : State) : (withCommand w s).cfgerr = s.cfgerr := rfl
@[simp] theorem withCommand_cmderr (w : CmdWord) (s : State) : (withCommand w s).cmderr = s.cmderr := rfl
@[simp] theorem withCommand_out (w : CmdWord) (s : State) : (withCommand w s).out = s.out := rfl
@[simp] theorem withCommand_readOut (w : CmdWord) (s : State) : (withCommand w s).readOut = s.readOut := rfl
@[simp] theorem withCommand_draws (w : CmdWord) (s : State) : (withCommand w s).draws = s.draws := rfl
@[simp] theorem withCommand_inputs (w : CmdWord) (s : State) : (withCommand w s).inputs = .command w :: s.inputs := rfl

/-! ## latchIfBoundary: only the active set can change -/

@[simp] theorem latchIfBoundary_par (s : State) : (latchIfBoundary s).par = s.par := by unfold latchIfBoundary; split <;> rfl
@[simp] theorem latchIfBoundary_store (s : State) : (latchIfBoundary s).store = s.store := by unfold latchIfBoundary; split <;> rfl
@[simp] theorem latchIfBoundary_wp (s : State) : (latchIfBoundary s).wp = s.wp := by unfold latchIfBoundary; split <;> rfl
@[simp] theorem latchIfBoundary_mbox (s : State) : (latchIfBoundary s).mbox = s.mbox := by unfold latchIfBoundary; split <;> rfl
@[simp] theorem latchIfBoundary_pend (s : State) : (latchIfBoundary s).pend = s.pend := by unfold latchIfBoundary; split <;> rfl
@[simp] theorem latchIfBoundary_vtab (s : State) : (latchIfBoundary s).vtab = s.vtab := by unfold latchIfBoundary; split <;> rfl
@[simp] theorem latchIfBoundary_htab (s : State) : (latchIfBoundary s).htab = s.htab := by unfold latchIfBoundary; split <;> rfl
@[simp] theorem latchIfBoundary_run (s : State) : (latchIfBoundary s).run = s.run := by unfold latchIfBoundary; split <;> rfl
@[simp] theorem latchIfBoundary_cstate (s : State) : (latchIfBoundary s).cstate = s.cstate := by unfold latchIfBoundary; split <;> rfl
@[simp] theorem latchIfBoundary_trigIdx (s : State) : (latchIfBoundary s).trigIdx = s.trigIdx := by unfold latchIfBoundary; split <;> rfl
@[simp] theorem latchIfBoundary_forced (s : State) : (latchIfBoundary s).forced = s.forced := by unfold latchIfBoundary; split <;> rfl
@[simp] theorem latchIfBoundary_pix (s : State) : (latchIfBoundary s).pix = s.pix := by unfold latchIfBoundary; split <;> rfl
@[simp] theorem latchIfBoundary_skipcnt (s : State) : (latchIfBoundary s).skipcnt = s.skipcnt := by unfold latchIfBoundary; split <;> rfl
@[simp] theorem latchIfBoundary_framebuf (s : State) : (latchIfBoundary s).framebuf = s.framebuf := by unfold latchIfBoundary; split <;> rfl
@[simp] theorem latchIfBoundary_acc (s : State) : (latchIfBoundary s).acc = s.acc := by unfold latchIfBoundary; split <;> rfl
@[simp] theorem latchIfBoundary_avgcnt (s : State) : (latchIfBoundary s).avgcnt = s.avgcnt := by unfold latchIfBoundary; split <;> rfl
@[simp] theorem latchIfBoundary_miss (s : State) : (latchIfBoundary s).miss = s.miss := by unfold latchIfBoundary; split <;> rfl
@[simp] theorem latchIfBoundary_lfValid (s : State) : (latchIfBoundary s).lfValid = s.lfValid := by unfold latchIfBoundary; split <;> rfl
@[simp] theorem latchIfBoundary_lfData (s : State) : (latchIfBoundary s).lfData = s.lfData := by unfold latchIfBoundary; split <;> rfl
@[simp] theorem latchIfBoundary_lfChen (s : State) : (latchIfBoundary s).lfChen = s.lfChen := by unfold latchIfBoundary; split <;> rfl
@[simp] theorem latchIfBoundary_frameseq (s : State) : (latchIfBoundary s).frameseq = s.frameseq := by unfold latchIfBoundary; split <;> rfl
@[simp] theorem latchIfBoundary_ry (s : State) : (latchIfBoundary s).ry = s.ry := by unfold latchIfBoundary; split <;> rfl
@[simp] theorem latchIfBoundary_ryValid (s : State) : (latchIfBoundary s).ryValid = s.ryValid := by unfold latchIfBoundary; split <;> rfl
@[simp] theorem latchIfBoundary_fset (s : State) : (latchIfBoundary s).fset = s.fset := by unfold latchIfBoundary; split <;> rfl
@[simp] theorem latchIfBoundary_fcnt (s : State) : (latchIfBoundary s).fcnt = s.fcnt := by unfold latchIfBoundary; split <;> rfl
@[simp] theorem latchIfBoundary_ovr (s : State) : (latchIfBoundary s).ovr = s.ovr := by unfold latchIfBoundary; split <;> rfl
@[simp] theorem latchIfBoundary_cfgerr (s : State) : (latchIfBoundary s).cfgerr = s.cfgerr := by unfold latchIfBoundary; split <;> rfl
@[simp] theorem latchIfBoundary_cmderr (s : State) : (latchIfBoundary s).cmderr = s.cmderr := by unfold latchIfBoundary; split <;> rfl
@[simp] theorem latchIfBoundary_out (s : State) : (latchIfBoundary s).out = s.out := by unfold latchIfBoundary; split <;> rfl
@[simp] theorem latchIfBoundary_readOut (s : State) : (latchIfBoundary s).readOut = s.readOut := by unfold latchIfBoundary; split <;> rfl
@[simp] theorem latchIfBoundary_draws (s : State) : (latchIfBoundary s).draws = s.draws := by unfold latchIfBoundary; split <;> rfl
@[simp] theorem latchIfBoundary_inputs (s : State) : (latchIfBoundary s).inputs = s.inputs := by unfold latchIfBoundary; split <;> rfl

/-! ## drawChannel: what it leaves alone -/

@[simp] theorem drawChannel_par (ch : Channel) (f : Frame) (s : State) : (drawChannel ch f s).par = s.par := by unfold drawChannel; split <;> rfl
@[simp] theorem drawChannel_store (ch : Channel) (f : Frame) (s : State) : (drawChannel ch f s).store = s.store := by unfold drawChannel; split <;> rfl
@[simp] theorem drawChannel_wp (ch : Channel) (f : Frame) (s : State) : (drawChannel ch f s).wp = s.wp := by unfold drawChannel; split <;> rfl
@[simp] theorem drawChannel_mbox (ch : Channel) (f : Frame) (s : State) : (drawChannel ch f s).mbox = s.mbox := by unfold drawChannel; split <;> rfl
@[simp] theorem drawChannel_pend (ch : Channel) (f : Frame) (s : State) : (drawChannel ch f s).pend = s.pend := by unfold drawChannel; split <;> rfl
@[simp] theorem drawChannel_vtab (ch : Channel) (f : Frame) (s : State) : (drawChannel ch f s).vtab = s.vtab := by unfold drawChannel; split <;> rfl
@[simp] theorem drawChannel_htab (ch : Channel) (f : Frame) (s : State) : (drawChannel ch f s).htab = s.htab := by unfold drawChannel; split <;> rfl
@[simp] theorem drawChannel_act (ch : Channel) (f : Frame) (s : State) : (drawChannel ch f s).act = s.act := by unfold drawChannel; split <;> rfl
@[simp] theorem drawChannel_run (ch : Channel) (f : Frame) (s : State) : (drawChannel ch f s).run = s.run := by unfold drawChannel; split <;> rfl
@[simp] theorem drawChannel_cstate (ch : Channel) (f : Frame) (s : State) : (drawChannel ch f s).cstate = s.cstate := by unfold drawChannel; split <;> rfl
@[simp] theorem drawChannel_trigIdx (ch : Channel) (f : Frame) (s : State) : (drawChannel ch f s).trigIdx = s.trigIdx := by unfold drawChannel; split <;> rfl
@[simp] theorem drawChannel_forced (ch : Channel) (f : Frame) (s : State) : (drawChannel ch f s).forced = s.forced := by unfold drawChannel; split <;> rfl
@[simp] theorem drawChannel_pix (ch : Channel) (f : Frame) (s : State) : (drawChannel ch f s).pix = s.pix := by unfold drawChannel; split <;> rfl
@[simp] theorem drawChannel_skipcnt (ch : Channel) (f : Frame) (s : State) : (drawChannel ch f s).skipcnt = s.skipcnt := by unfold drawChannel; split <;> rfl
@[simp] theorem drawChannel_framebuf (ch : Channel) (f : Frame) (s : State) : (drawChannel ch f s).framebuf = s.framebuf := by unfold drawChannel; split <;> rfl
@[simp] theorem drawChannel_acc (ch : Channel) (f : Frame) (s : State) : (drawChannel ch f s).acc = s.acc := by unfold drawChannel; split <;> rfl
@[simp] theorem drawChannel_avgcnt (ch : Channel) (f : Frame) (s : State) : (drawChannel ch f s).avgcnt = s.avgcnt := by unfold drawChannel; split <;> rfl
@[simp] theorem drawChannel_miss (ch : Channel) (f : Frame) (s : State) : (drawChannel ch f s).miss = s.miss := by unfold drawChannel; split <;> rfl
@[simp] theorem drawChannel_lfValid (ch : Channel) (f : Frame) (s : State) : (drawChannel ch f s).lfValid = s.lfValid := by unfold drawChannel; split <;> rfl
@[simp] theorem drawChannel_lfData (ch : Channel) (f : Frame) (s : State) : (drawChannel ch f s).lfData = s.lfData := by unfold drawChannel; split <;> rfl
@[simp] theorem drawChannel_lfChen (ch : Channel) (f : Frame) (s : State) : (drawChannel ch f s).lfChen = s.lfChen := by unfold drawChannel; split <;> rfl
@[simp] theorem drawChannel_frameseq (ch : Channel) (f : Frame) (s : State) : (drawChannel ch f s).frameseq = s.frameseq := by unfold drawChannel; split <;> rfl
@[simp] theorem drawChannel_fset (ch : Channel) (f : Frame) (s : State) : (drawChannel ch f s).fset = s.fset := by unfold drawChannel; split <;> rfl
@[simp] theorem drawChannel_fcnt (ch : Channel) (f : Frame) (s : State) : (drawChannel ch f s).fcnt = s.fcnt := by unfold drawChannel; split <;> rfl
@[simp] theorem drawChannel_ovr (ch : Channel) (f : Frame) (s : State) : (drawChannel ch f s).ovr = s.ovr := by unfold drawChannel; split <;> rfl
@[simp] theorem drawChannel_cfgerr (ch : Channel) (f : Frame) (s : State) : (drawChannel ch f s).cfgerr = s.cfgerr := by unfold drawChannel; split <;> rfl
@[simp] theorem drawChannel_cmderr (ch : Channel) (f : Frame) (s : State) : (drawChannel ch f s).cmderr = s.cmderr := by unfold drawChannel; split <;> rfl
@[simp] theorem drawChannel_readOut (ch : Channel) (f : Frame) (s : State) : (drawChannel ch f s).readOut = s.readOut := by unfold drawChannel; split <;> rfl
@[simp] theorem drawChannel_draws (ch : Channel) (f : Frame) (s : State) : (drawChannel ch f s).draws = s.draws := by unfold drawChannel; split <;> rfl
@[simp] theorem drawChannel_inputs (ch : Channel) (f : Frame) (s : State) : (drawChannel ch f s).inputs = s.inputs := by unfold drawChannel; split <;> rfl

/-! ## measureChannel: what it leaves alone -/

@[simp] theorem measureChannel_par (ch : Channel) (f : Frame) (seq : BitVec 32) (s : State) : (measureChannel ch f seq s).par = s.par := by unfold measureChannel; split <;> rfl
@[simp] theorem measureChannel_store (ch : Channel) (f : Frame) (seq : BitVec 32) (s : State) : (measureChannel ch f seq s).store = s.store := by unfold measureChannel; split <;> rfl
@[simp] theorem measureChannel_wp (ch : Channel) (f : Frame) (seq : BitVec 32) (s : State) : (measureChannel ch f seq s).wp = s.wp := by unfold measureChannel; split <;> rfl
@[simp] theorem measureChannel_mbox (ch : Channel) (f : Frame) (seq : BitVec 32) (s : State) : (measureChannel ch f seq s).mbox = s.mbox := by unfold measureChannel; split <;> rfl
@[simp] theorem measureChannel_pend (ch : Channel) (f : Frame) (seq : BitVec 32) (s : State) : (measureChannel ch f seq s).pend = s.pend := by unfold measureChannel; split <;> rfl
@[simp] theorem measureChannel_vtab (ch : Channel) (f : Frame) (seq : BitVec 32) (s : State) : (measureChannel ch f seq s).vtab = s.vtab := by unfold measureChannel; split <;> rfl
@[simp] theorem measureChannel_htab (ch : Channel) (f : Frame) (seq : BitVec 32) (s : State) : (measureChannel ch f seq s).htab = s.htab := by unfold measureChannel; split <;> rfl
@[simp] theorem measureChannel_act (ch : Channel) (f : Frame) (seq : BitVec 32) (s : State) : (measureChannel ch f seq s).act = s.act := by unfold measureChannel; split <;> rfl
@[simp] theorem measureChannel_run (ch : Channel) (f : Frame) (seq : BitVec 32) (s : State) : (measureChannel ch f seq s).run = s.run := by unfold measureChannel; split <;> rfl
@[simp] theorem measureChannel_cstate (ch : Channel) (f : Frame) (seq : BitVec 32) (s : State) : (measureChannel ch f seq s).cstate = s.cstate := by unfold measureChannel; split <;> rfl
@[simp] theorem measureChannel_trigIdx (ch : Channel) (f : Frame) (seq : BitVec 32) (s : State) : (measureChannel ch f seq s).trigIdx = s.trigIdx := by unfold measureChannel; split <;> rfl
@[simp] theorem measureChannel_forced (ch : Channel) (f : Frame) (seq : BitVec 32) (s : State) : (measureChannel ch f seq s).forced = s.forced := by unfold measureChannel; split <;> rfl
@[simp] theorem measureChannel_pix (ch : Channel) (f : Frame) (seq : BitVec 32) (s : State) : (measureChannel ch f seq s).pix = s.pix := by unfold measureChannel; split <;> rfl
@[simp] theorem measureChannel_skipcnt (ch : Channel) (f : Frame) (seq : BitVec 32) (s : State) : (measureChannel ch f seq s).skipcnt = s.skipcnt := by unfold measureChannel; split <;> rfl
@[simp] theorem measureChannel_framebuf (ch : Channel) (f : Frame) (seq : BitVec 32) (s : State) : (measureChannel ch f seq s).framebuf = s.framebuf := by unfold measureChannel; split <;> rfl
@[simp] theorem measureChannel_acc (ch : Channel) (f : Frame) (seq : BitVec 32) (s : State) : (measureChannel ch f seq s).acc = s.acc := by unfold measureChannel; split <;> rfl
@[simp] theorem measureChannel_avgcnt (ch : Channel) (f : Frame) (seq : BitVec 32) (s : State) : (measureChannel ch f seq s).avgcnt = s.avgcnt := by unfold measureChannel; split <;> rfl
@[simp] theorem measureChannel_miss (ch : Channel) (f : Frame) (seq : BitVec 32) (s : State) : (measureChannel ch f seq s).miss = s.miss := by unfold measureChannel; split <;> rfl
@[simp] theorem measureChannel_lfValid (ch : Channel) (f : Frame) (seq : BitVec 32) (s : State) : (measureChannel ch f seq s).lfValid = s.lfValid := by unfold measureChannel; split <;> rfl
@[simp] theorem measureChannel_lfData (ch : Channel) (f : Frame) (seq : BitVec 32) (s : State) : (measureChannel ch f seq s).lfData = s.lfData := by unfold measureChannel; split <;> rfl
@[simp] theorem measureChannel_lfChen (ch : Channel) (f : Frame) (seq : BitVec 32) (s : State) : (measureChannel ch f seq s).lfChen = s.lfChen := by unfold measureChannel; split <;> rfl
@[simp] theorem measureChannel_frameseq (ch : Channel) (f : Frame) (seq : BitVec 32) (s : State) : (measureChannel ch f seq s).frameseq = s.frameseq := by unfold measureChannel; split <;> rfl
@[simp] theorem measureChannel_ry (ch : Channel) (f : Frame) (seq : BitVec 32) (s : State) : (measureChannel ch f seq s).ry = s.ry := by unfold measureChannel; split <;> rfl
@[simp] theorem measureChannel_ryValid (ch : Channel) (f : Frame) (seq : BitVec 32) (s : State) : (measureChannel ch f seq s).ryValid = s.ryValid := by unfold measureChannel; split <;> rfl
@[simp] theorem measureChannel_ovr (ch : Channel) (f : Frame) (seq : BitVec 32) (s : State) : (measureChannel ch f seq s).ovr = s.ovr := by unfold measureChannel; split <;> rfl
@[simp] theorem measureChannel_cfgerr (ch : Channel) (f : Frame) (seq : BitVec 32) (s : State) : (measureChannel ch f seq s).cfgerr = s.cfgerr := by unfold measureChannel; split <;> rfl
@[simp] theorem measureChannel_cmderr (ch : Channel) (f : Frame) (seq : BitVec 32) (s : State) : (measureChannel ch f seq s).cmderr = s.cmderr := by unfold measureChannel; split <;> rfl
@[simp] theorem measureChannel_readOut (ch : Channel) (f : Frame) (seq : BitVec 32) (s : State) : (measureChannel ch f seq s).readOut = s.readOut := by unfold measureChannel; split <;> rfl
@[simp] theorem measureChannel_draws (ch : Channel) (f : Frame) (seq : BitVec 32) (s : State) : (measureChannel ch f seq s).draws = s.draws := by unfold measureChannel; split <;> rfl
@[simp] theorem measureChannel_inputs (ch : Channel) (f : Frame) (seq : BitVec 32) (s : State) : (measureChannel ch f seq s).inputs = s.inputs := by unfold measureChannel; split <;> rfl

/-! ## calibrateChannel: what it leaves alone -/

@[simp] theorem calibrateChannel_par (ch : Channel) (s : State) : (calibrateChannel ch s).par = s.par := by unfold calibrateChannel; split <;> rfl
@[simp] theorem calibrateChannel_store (ch : Channel) (s : State) : (calibrateChannel ch s).store = s.store := by unfold calibrateChannel; split <;> rfl
@[simp] theorem calibrateChannel_wp (ch : Channel) (s : State) : (calibrateChannel ch s).wp = s.wp := by unfold calibrateChannel; split <;> rfl
@[simp] theorem calibrateChannel_mbox (ch : Channel) (s : State) : (calibrateChannel ch s).mbox = s.mbox := by unfold calibrateChannel; split <;> rfl
@[simp] theorem calibrateChannel_pend (ch : Channel) (s : State) : (calibrateChannel ch s).pend = s.pend := by unfold calibrateChannel; split <;> rfl
@[simp] theorem calibrateChannel_htab (ch : Channel) (s : State) : (calibrateChannel ch s).htab = s.htab := by unfold calibrateChannel; split <;> rfl
@[simp] theorem calibrateChannel_act (ch : Channel) (s : State) : (calibrateChannel ch s).act = s.act := by unfold calibrateChannel; split <;> rfl
@[simp] theorem calibrateChannel_run (ch : Channel) (s : State) : (calibrateChannel ch s).run = s.run := by unfold calibrateChannel; split <;> rfl
@[simp] theorem calibrateChannel_cstate (ch : Channel) (s : State) : (calibrateChannel ch s).cstate = s.cstate := by unfold calibrateChannel; split <;> rfl
@[simp] theorem calibrateChannel_trigIdx (ch : Channel) (s : State) : (calibrateChannel ch s).trigIdx = s.trigIdx := by unfold calibrateChannel; split <;> rfl
@[simp] theorem calibrateChannel_forced (ch : Channel) (s : State) : (calibrateChannel ch s).forced = s.forced := by unfold calibrateChannel; split <;> rfl
@[simp] theorem calibrateChannel_pix (ch : Channel) (s : State) : (calibrateChannel ch s).pix = s.pix := by unfold calibrateChannel; split <;> rfl
@[simp] theorem calibrateChannel_skipcnt (ch : Channel) (s : State) : (calibrateChannel ch s).skipcnt = s.skipcnt := by unfold calibrateChannel; split <;> rfl
@[simp] theorem calibrateChannel_framebuf (ch : Channel) (s : State) : (calibrateChannel ch s).framebuf = s.framebuf := by unfold calibrateChannel; split <;> rfl
@[simp] theorem calibrateChannel_acc (ch : Channel) (s : State) : (calibrateChannel ch s).acc = s.acc := by unfold calibrateChannel; split <;> rfl
@[simp] theorem calibrateChannel_avgcnt (ch : Channel) (s : State) : (calibrateChannel ch s).avgcnt = s.avgcnt := by unfold calibrateChannel; split <;> rfl
@[simp] theorem calibrateChannel_miss (ch : Channel) (s : State) : (calibrateChannel ch s).miss = s.miss := by unfold calibrateChannel; split <;> rfl
@[simp] theorem calibrateChannel_lfValid (ch : Channel) (s : State) : (calibrateChannel ch s).lfValid = s.lfValid := by unfold calibrateChannel; split <;> rfl
@[simp] theorem calibrateChannel_lfData (ch : Channel) (s : State) : (calibrateChannel ch s).lfData = s.lfData := by unfold calibrateChannel; split <;> rfl
@[simp] theorem calibrateChannel_lfChen (ch : Channel) (s : State) : (calibrateChannel ch s).lfChen = s.lfChen := by unfold calibrateChannel; split <;> rfl
@[simp] theorem calibrateChannel_frameseq (ch : Channel) (s : State) : (calibrateChannel ch s).frameseq = s.frameseq := by unfold calibrateChannel; split <;> rfl
@[simp] theorem calibrateChannel_ry (ch : Channel) (s : State) : (calibrateChannel ch s).ry = s.ry := by unfold calibrateChannel; split <;> rfl
@[simp] theorem calibrateChannel_ryValid (ch : Channel) (s : State) : (calibrateChannel ch s).ryValid = s.ryValid := by unfold calibrateChannel; split <;> rfl
@[simp] theorem calibrateChannel_fset (ch : Channel) (s : State) : (calibrateChannel ch s).fset = s.fset := by unfold calibrateChannel; split <;> rfl
@[simp] theorem calibrateChannel_fcnt (ch : Channel) (s : State) : (calibrateChannel ch s).fcnt = s.fcnt := by unfold calibrateChannel; split <;> rfl
@[simp] theorem calibrateChannel_ovr (ch : Channel) (s : State) : (calibrateChannel ch s).ovr = s.ovr := by unfold calibrateChannel; split <;> rfl
@[simp] theorem calibrateChannel_cfgerr (ch : Channel) (s : State) : (calibrateChannel ch s).cfgerr = s.cfgerr := by unfold calibrateChannel; split <;> rfl
@[simp] theorem calibrateChannel_cmderr (ch : Channel) (s : State) : (calibrateChannel ch s).cmderr = s.cmderr := by unfold calibrateChannel; split <;> rfl
@[simp] theorem calibrateChannel_out (ch : Channel) (s : State) : (calibrateChannel ch s).out = s.out := by unfold calibrateChannel; split <;> rfl
@[simp] theorem calibrateChannel_readOut (ch : Channel) (s : State) : (calibrateChannel ch s).readOut = s.readOut := by unfold calibrateChannel; split <;> rfl
@[simp] theorem calibrateChannel_draws (ch : Channel) (s : State) : (calibrateChannel ch s).draws = s.draws := by unfold calibrateChannel; split <;> rfl
@[simp] theorem calibrateChannel_inputs (ch : Channel) (s : State) : (calibrateChannel ch s).inputs = s.inputs := by unfold calibrateChannel; split <;> rfl

end Sys2Proof.Machine
end

