-- ==== Sys2Proof/Laws/Ops.lean ====
section
/-! SUPPORT. What each shared operation can do, said once: values held per channel or per slot, columns, the sample store,
the latch, the table writes, the agents' ports. -/

namespace Sys2Proof

/-! ## Values held per channel and per slot -/

@[simp] theorem PerChannel.get_ch1 {α : Type} (p : PerChannel α) : p.get .ch1 = p.ch1 := rfl
@[simp] theorem PerChannel.get_ch2 {α : Type} (p : PerChannel α) : p.get .ch2 = p.ch2 := rfl

@[simp] theorem PerChannel.get_tabulate {α : Type} (f : Channel → α) (ch : Channel) :
    (PerChannel.tabulate f).get ch = f ch := by cases ch <;> rfl

@[simp] theorem PerChannel.get_set_same {α : Type} (p : PerChannel α) (ch : Channel) (v : α) : (p.set ch v).get ch = v := by
  cases ch <;> rfl

theorem PerChannel.get_set_other {α : Type} (p : PerChannel α) {ch ch' : Channel} (v : α) (h : ch' ≠ ch) :
    (p.set ch v).get ch' = p.get ch' := by
  cases ch <;> cases ch' <;> first | rfl | exact absurd rfl h

/-- Values per channel are equal when they are equal on each channel. -/
theorem PerChannel.ext_get {α : Type} {p q : PerChannel α} (h : ∀ ch, p.get ch = q.get ch) : p = q := by
  obtain ⟨p1, p2⟩ := p
  obtain ⟨q1, q2⟩ := q
  have h1 : p1 = q1 := h .ch1
  have h2 : p2 = q2 := h .ch2
  rw [h1, h2]

@[simp] theorem PerSlot.get_ping {α : Type} (p : PerSlot α) : p.get .ping = p.ping := rfl
@[simp] theorem PerSlot.get_pong {α : Type} (p : PerSlot α) : p.get .pong = p.pong := rfl

@[simp] theorem PerSlot.get_set_same {α : Type} (p : PerSlot α) (k : Slot) (v : α) : (p.set k v).get k = v := by
  cases k <;> rfl

theorem PerSlot.get_set_other {α : Type} (p : PerSlot α) {k k' : Slot} (v : α) (h : k' ≠ k) :
    (p.set k v).get k' = p.get k' := by
  cases k <;> cases k' <;> first | rfl | exact absurd rfl h

/-- Values per slot are equal when they are equal in each slot. -/
theorem PerSlot.ext_get {α : Type} {p q : PerSlot α} (h : ∀ k, p.get k = q.get k) : p = q := by
  obtain ⟨p1, p2⟩ := p
  obtain ⟨q1, q2⟩ := q
  have h1 : p1 = q1 := h .ping
  have h2 : p2 = q2 := h .pong
  rw [h1, h2]

namespace Machine

/-! ## Columns -/

@[simp] theorem toList_mapCols {α β : Type} {n : Nat} (f : α → β) (v : Vector α n) :
    (mapCols f v).toList = v.toList.map f := rfl

@[simp] theorem getElem_mapCols {α β : Type} {n : Nat} (f : α → β) (v : Vector α n) (k : Nat) (h : k < n) :
    (mapCols f v)[k] = f v[k] := by
  have : (mapCols f v)[k] = (v.toList.map f)[k]'(by simpa using h) := rfl
  simp [this]

theorem getElem?_adjacentFrom {α : Type} (l : List α) (c i : Nat) :
    (adjacentFrom c l)[i]? = (l[i]?).bind fun a => (l[i + 1]?).map fun b => (c + i, a, b) := by
  induction l generalizing c i with
  | nil => simp [adjacentFrom]
  | cons a l ih =>
    cases l with
    | nil => cases i <;> simp [adjacentFrom]
    | cons b l =>
      cases i with
      | zero => simp [adjacentFrom]
      | succ i =>
        simp only [adjacentFrom, List.getElem?_cons_succ]
        rw [ih]
        simp [Nat.add_assoc, Nat.add_comm 1]

@[simp] theorem length_adjacentFrom {α : Type} (l : List α) (c : Nat) : (adjacentFrom c l).length = l.length - 1 := by
  induction l generalizing c with
  | nil => rfl
  | cons a l ih =>
    cases l with
    | nil => rfl
    | cons b l => simp [adjacentFrom, ih]

@[simp] theorem length_adjacent {α : Type} (l : List α) : (adjacent l).length = l.length - 1 := length_adjacentFrom l 1

/-- The `i`-th pair of neighbours. -/
theorem getElem?_adjacent {α : Type} (l : List α) (i : Nat) :
    (adjacent l)[i]? = (l[i]?).bind fun a => (l[i + 1]?).map fun b => (i + 1, a, b) := by
  rw [adjacent, getElem?_adjacentFrom]
  simp [Nat.add_comm 1]

theorem map_adjacentFrom {α β : Type} (f : α → β) (l : List α) (c : Nat) :
    adjacentFrom c (l.map f) = (adjacentFrom c l).map fun t => (t.1, f t.2.1, f t.2.2) := by
  induction l generalizing c with
  | nil => rfl
  | cons a l ih =>
    cases l with
    | nil => rfl
    | cons b l => simpa [adjacentFrom] using ih (c + 1)

/-- Neighbours of a mapped list. -/
theorem map_adjacent {α β : Type} (f : α → β) (l : List α) :
    adjacent (l.map f) = (adjacent l).map fun t => (t.1, f t.2.1, f t.2.2) := map_adjacentFrom f l 1

/-! ## Store -/

theorem physicalSlot_lt {cap : Nat} (h : 0 < cap) (x : Int) : physicalSlot cap x < cap := by
  have h1 : 0 ≤ x % (cap : Int) := Int.emod_nonneg x (by omega)
  have h2 : x % (cap : Int) < cap := Int.emod_lt_of_pos x (by omega)
  unfold physicalSlot
  omega

/-- An index in [0, cap) is its own slot. -/
theorem physicalSlot_of_lt {cap p : Nat} (h : p < cap) : physicalSlot cap (p : Int) = p := by
  unfold physicalSlot
  rw [Int.emod_eq_of_lt (by omega) (by omega)]
  simp

@[simp] theorem get_storeWrite (st : PerChannel Memory) (p : Nat) (c : PerChannel Code) (ch : Channel) :
    (storeWrite st p c).get ch = (st.get ch).write p (c.get ch) := by simp [storeWrite]

theorem storeBlock_wf {words : List RawWord} {st : PerChannel Memory} (b : Nat) (h : ∀ ch, (st.get ch).wf = true)
    (ch : Channel) : ((storeBlock b words st).get ch).wf = true := by
  induction words generalizing b st with
  | nil => exact h ch
  | cons w ws ih => exact ih (b + 1) fun ch => by simpa using Memory.wf_write (h ch) b _

theorem storeBlock_below {words : List RawWord} {st : PerChannel Memory} {b cap : Nat}
    (h : ∀ ch, (st.get ch).below cap = true) (hb : b + words.length ≤ cap) (ch : Channel) :
    ((storeBlock b words st).get ch).below cap = true := by
  induction words generalizing b st with
  | nil => exact h ch
  | cons w ws ih =>
    simp only [List.length_cons] at hb
    exact ih (b := b + 1) (fun ch => by simpa using Memory.below_write (h ch) (by omega) _) (by omega)

/-- A slot outside the block is not written. -/
theorem read_storeBlock_other {words : List RawWord} {st : PerChannel Memory} {b p : Nat}
    (h : p < b ∨ b + words.length ≤ p) (ch : Channel) :
    ((storeBlock b words st).get ch).read p = (st.get ch).read p := by
  induction words generalizing b st with
  | nil => rfl
  | cons w ws ih =>
    simp only [List.length_cons] at h
    have hne : p ≠ b := by omega
    simp only [storeBlock]
    rw [ih (by omega), get_storeWrite, Memory.read_write_other _ _ hne]

/-- The slot of the block's `j`-th word holds that word's code. -/
theorem read_storeBlock_mem {words : List RawWord} {st : PerChannel Memory} {b j : Nat}
    (hwf : ∀ ch, (st.get ch).wf = true) (hj : j < words.length) (ch : Channel) :
    ((storeBlock b words st).get ch).read (b + j) = (decodeWord words[j]).get ch := by
  induction words generalizing b j st with
  | nil => simp at hj
  | cons w ws ih =>
    have hwf' : ∀ ch, ((storeWrite st b (decodeWord w)).get ch).wf = true := fun ch => by
      simpa using Memory.wf_write (hwf ch) b _
    cases j with
    | zero =>
      simp only [storeBlock, Nat.add_zero, List.getElem_cons_zero]
      rw [read_storeBlock_other (by omega), get_storeWrite, Memory.read_write_same (hwf ch)]
    | succ j =>
      have := ih (b := b + 1) hwf' (by simpa using hj)
      simpa [storeBlock, Nat.add_assoc, Nat.add_comm 1] using this

/-! ## Latch -/

/-- What the latch leaves: the latched set at a boundary, else the active set as it was. -/
theorem latchIfBoundary_act (s : State) :
    (latchIfBoundary s).act = if atBoundary s then latchedCfg s.pend s.vtab s.htab else s.act := by
  unfold latchIfBoundary; split <;> rfl

theorem atBoundary_iff (s : State) : atBoundary s = true ↔ s.cstate = .idle ∧ s.avgcnt = 0 := by
  simp [atBoundary]

/-- A frame or an accumulation cycle is in progress. -/
theorem atBoundary_eq_false {s : State} (h : s.cstate ≠ .idle ∨ s.avgcnt ≠ 0) : atBoundary s = false := by
  rw [Bool.eq_false_iff, ne_eq, atBoundary_iff]
  exact fun hb => h.elim (· hb.1) (· hb.2)

/-! ## Scale tables -/

/-- A vertical table command is refused with CFGERR alone, or writes its row alone. -/
theorem loadVrow_cases (idx : BitVec 7) (bad : Bool) (f : VRow → VRow) (s : State) :
    ((s.nv ≤ idx.toNat ∨ bad = true) ∧ loadVrow idx bad f s = setCfgerr s) ∨
    (idx.toNat < s.nv ∧ bad = false ∧ loadVrow idx bad f s = modifyVrow idx f s) := by
  unfold loadVrow
  by_cases h : s.nv ≤ idx.toNat
  · simp [h]
  · cases bad <;> simp [h]; omega

/-- A horizontal table command is refused with CFGERR alone, or writes its row alone. -/
theorem loadHrow_cases (idx : BitVec 7) (bad : Bool) (f : HRow → HRow) (s : State) :
    ((s.nh ≤ idx.toNat ∨ bad = true) ∧ loadHrow idx bad f s = setCfgerr s) ∨
    (idx.toNat < s.nh ∧ bad = false ∧ loadHrow idx bad f s = modifyHrow idx f s) := by
  unfold loadHrow
  by_cases h : s.nh ≤ idx.toNat
  · simp [h]
  · cases bad <;> simp [h]; omega

@[simp] theorem nv_modifyVrow (idx : BitVec 7) (f : VRow → VRow) (s : State) : (modifyVrow idx f s).nv = s.nv := by
  simp [State.nv]

@[simp] theorem nh_modifyHrow (idx : BitVec 7) (f : HRow → HRow) (s : State) : (modifyHrow idx f s).nh = s.nh := by
  simp [State.nh]

/-! ## The agents' steps -/

/-- What a delivery can do: it overruns a full slot, fills an empty one, or is no block. -/
theorem deliverStep_cases (k : Slot) (words : List RawWord) (s : State) :
    (words.length ≠ s.par.n ∧ deliverStep k words s = .refused (.blockLength words.length)) ∨
    (words.length = s.par.n ∧ (s.mbox.get k).flag = true ∧ deliverStep k words s = .next (overrun k s)) ∨
    (words.length = s.par.n ∧ (s.mbox.get k).flag = false ∧ deliverStep k words s = .next (fillSlot k words s)) := by
  unfold deliverStep deliver
  by_cases h : words.length = s.par.n
  · cases hf : (s.mbox.get k).flag <;> simp [h]
  · simp [h]

@[simp] theorem length_drawnWords (d n : Nat) : (drawnWords d n).length = n := by simp [drawnWords]

/-- What a step can do: an idle schedule polls, else the agent named next takes its step. -/
theorem step_cases (s : State) :
    (s.inputs = [] ∧ step s = .next (poll s)) ∨
    (∃ k words rest, s.inputs = .deliver k words :: rest ∧ step s = deliverStep k words { s with inputs := rest }) ∨
    (∃ w rest, s.inputs = .command w :: rest ∧ step s = command w { s with inputs := rest }) ∨
    (∃ rest, s.inputs = .poll :: rest ∧ step s = .next (poll { s with inputs := rest })) ∨
    (∃ a rest, s.inputs = .read a :: rest ∧ step s = .next (readStep a { s with inputs := rest })) := by
  unfold step nextStep
  cases h : s.inputs with
  | nil => simp
  | cons e rest => cases e <;> simp [runEvent]

/-- What a command word can do: its command's meaning, or CMDERR alone. -/
theorem command_cases (w : CmdWord) (s : State) :
    (∃ i, decode w = .ok i ∧ command w s = exec i s) ∨
    (∃ e, decode w = .error e ∧ command w s = .next (setCmderr s)) := by
  unfold command
  cases h : decode w with
  | ok i => exact .inl ⟨i, rfl, rfl⟩
  | error e => exact .inr ⟨e, rfl, rfl⟩

/-! ## Counting registers -/

/-- A register below its maximum is incremented without wrapping. -/
theorem toNat_succ {w : Nat} {x : BitVec w} (h : x.toNat + 1 < 2 ^ w) : (x + 1).toNat = x.toNat + 1 := by
  have h1 : (1 : BitVec w).toNat = 1 := by
    rw [show (1 : BitVec w) = BitVec.ofNat w 1 from rfl, BitVec.toNat_ofNat, Nat.mod_eq_of_lt (by omega)]
  rw [BitVec.toNat_add, h1, Nat.mod_eq_of_lt h]

/-- A nonzero register decremented. -/
theorem toNat_pred {w : Nat} {x : BitVec w} (h : x ≠ 0) : (x - 1).toNat = x.toNat - 1 := by
  have h0 : x.toNat ≠ 0 := fun h0 => h (BitVec.eq_of_toNat_eq (by simpa using h0))
  have hx := x.isLt
  have h1 : (1 : BitVec w).toNat = 1 := by
    rw [show (1 : BitVec w) = BitVec.ofNat w 1 from rfl, BitVec.toNat_ofNat, Nat.mod_eq_of_lt (by omega)]
  rw [BitVec.toNat_sub, h1, show 2 ^ w - 1 + x.toNat = x.toNat - 1 + 2 ^ w by omega, Nat.add_mod_right,
    Nat.mod_eq_of_lt (by omega)]

end Machine
end Sys2Proof
end

