-- ==== Sys2Proof/Laws/Capture.lean ====
section
/-! SUPPORT. What publication and the capture steps can do, said once: the part of the state none of them writes
(`outside`), and what PUBLISH leaves in each field. -/

namespace Sys2Proof.Machine

/-! ## Publication -/

@[simp] theorem viewportMap_par (frame : PerChannel Frame) (s : State) : (viewportMap frame s).par = s.par := by simp [viewportMap]
@[simp] theorem viewportMap_store (frame : PerChannel Frame) (s : State) : (viewportMap frame s).store = s.store := by simp [viewportMap]
@[simp] theorem viewportMap_wp (frame : PerChannel Frame) (s : State) : (viewportMap frame s).wp = s.wp := by simp [viewportMap]
@[simp] theorem viewportMap_mbox (frame : PerChannel Frame) (s : State) : (viewportMap frame s).mbox = s.mbox := by simp [viewportMap]
@[simp] theorem viewportMap_pend (frame : PerChannel Frame) (s : State) : (viewportMap frame s).pend = s.pend := by simp [viewportMap]
@[simp] theorem viewportMap_vtab (frame : PerChannel Frame) (s : State) : (viewportMap frame s).vtab = s.vtab := by simp [viewportMap]
@[simp] theorem viewportMap_htab (frame : PerChannel Frame) (s : State) : (viewportMap frame s).htab = s.htab := by simp [viewportMap]
@[simp] theorem viewportMap_act (frame : PerChannel Frame) (s : State) : (viewportMap frame s).act = s.act := by simp [viewportMap]
@[simp] theorem viewportMap_run (frame : PerChannel Frame) (s : State) : (viewportMap frame s).run = s.run := by simp [viewportMap]
@[simp] theorem viewportMap_cstate (frame : PerChannel Frame) (s : State) : (viewportMap frame s).cstate = s.cstate := by simp [viewportMap]
@[simp] theorem viewportMap_trigIdx (frame : PerChannel Frame) (s : State) : (viewportMap frame s).trigIdx = s.trigIdx := by simp [viewportMap]
@[simp] theorem viewportMap_forced (frame : PerChannel Frame) (s : State) : (viewportMap frame s).forced = s.forced := by simp [viewportMap]
@[simp] theorem viewportMap_pix (frame : PerChannel Frame) (s : State) : (viewportMap frame s).pix = s.pix := by simp [viewportMap]
@[simp] theorem viewportMap_skipcnt (frame : PerChannel Frame) (s : State) : (viewportMap frame s).skipcnt = s.skipcnt := by simp [viewportMap]
@[simp] theorem viewportMap_framebuf (frame : PerChannel Frame) (s : State) : (viewportMap frame s).framebuf = s.framebuf := by simp [viewportMap]
@[simp] theorem viewportMap_acc (frame : PerChannel Frame) (s : State) : (viewportMap frame s).acc = s.acc := by simp [viewportMap]
@[simp] theorem viewportMap_avgcnt (frame : PerChannel Frame) (s : State) : (viewportMap frame s).avgcnt = s.avgcnt := by simp [viewportMap]
@[simp] theorem viewportMap_miss (frame : PerChannel Frame) (s : State) : (viewportMap frame s).miss = s.miss := by simp [viewportMap]
@[simp] theorem viewportMap_lfValid (frame : PerChannel Frame) (s : State) : (viewportMap frame s).lfValid = s.lfValid := by simp [viewportMap]
@[simp] theorem viewportMap_lfData (frame : PerChannel Frame) (s : State) : (viewportMap frame s).lfData = s.lfData := by simp [viewportMap]
@[simp] theorem viewportMap_lfChen (frame : PerChannel Frame) (s : State) : (viewportMap frame s).lfChen = s.lfChen := by simp [viewportMap]
@[simp] theorem viewportMap_frameseq (frame : PerChannel Frame) (s : State) : (viewportMap frame s).frameseq = s.frameseq := by simp [viewportMap]
@[simp] theorem viewportMap_fset (frame : PerChannel Frame) (s : State) : (viewportMap frame s).fset = s.fset := by simp [viewportMap]
@[simp] theorem viewportMap_fcnt (frame : PerChannel Frame) (s : State) : (viewportMap frame s).fcnt = s.fcnt := by simp [viewportMap]
@[simp] theorem viewportMap_ovr (frame : PerChannel Frame) (s : State) : (viewportMap frame s).ovr = s.ovr := by simp [viewportMap]
@[simp] theorem viewportMap_cfgerr (frame : PerChannel Frame) (s : State) : (viewportMap frame s).cfgerr = s.cfgerr := by simp [viewportMap]
@[simp] theorem viewportMap_cmderr (frame : PerChannel Frame) (s : State) : (viewportMap frame s).cmderr = s.cmderr := by simp [viewportMap]
@[simp] theorem viewportMap_readOut (frame : PerChannel Frame) (s : State) : (viewportMap frame s).readOut = s.readOut := by simp [viewportMap]
@[simp] theorem viewportMap_draws (frame : PerChannel Frame) (s : State) : (viewportMap frame s).draws = s.draws := by simp [viewportMap]
@[simp] theorem viewportMap_inputs (frame : PerChannel Frame) (s : State) : (viewportMap frame s).inputs = s.inputs := by simp [viewportMap]
@[simp] theorem measure_par (frame : PerChannel Frame) (seq : BitVec 32) (s : State) : (measure frame seq s).par = s.par := by simp [measure]
@[simp] theorem measure_store (frame : PerChannel Frame) (seq : BitVec 32) (s : State) : (measure frame seq s).store = s.store := by simp [measure]
@[simp] theorem measure_wp (frame : PerChannel Frame) (seq : BitVec 32) (s : State) : (measure frame seq s).wp = s.wp := by simp [measure]
@[simp] theorem measure_mbox (frame : PerChannel Frame) (seq : BitVec 32) (s : State) : (measure frame seq s).mbox = s.mbox := by simp [measure]
@[simp] theorem measure_pend (frame : PerChannel Frame) (seq : BitVec 32) (s : State) : (measure frame seq s).pend = s.pend := by simp [measure]
@[simp] theorem measure_vtab (frame : PerChannel Frame) (seq : BitVec 32) (s : State) : (measure frame seq s).vtab = s.vtab := by simp [measure]
@[simp] theorem measure_htab (frame : PerChannel Frame) (seq : BitVec 32) (s : State) : (measure frame seq s).htab = s.htab := by simp [measure]
@[simp] theorem measure_act (frame : PerChannel Frame) (seq : BitVec 32) (s : State) : (measure frame seq s).act = s.act := by simp [measure]
@[simp] theorem measure_run (frame : PerChannel Frame) (seq : BitVec 32) (s : State) : (measure frame seq s).run = s.run := by simp [measure]
@[simp] theorem measure_cstate (frame : PerChannel Frame) (seq : BitVec 32) (s : State) : (measure frame seq s).cstate = s.cstate := by simp [measure]
@[simp] theorem measure_trigIdx (frame : PerChannel Frame) (seq : BitVec 32) (s : State) : (measure frame seq s).trigIdx = s.trigIdx := by simp [measure]
@[simp] theorem measure_forced (frame : PerChannel Frame) (seq : BitVec 32) (s : State) : (measure frame seq s).forced = s.forced := by simp [measure]
@[simp] theorem measure_pix (frame : PerChannel Frame) (seq : BitVec 32) (s : State) : (measure frame seq s).pix = s.pix := by simp [measure]
@[simp] theorem measure_skipcnt (frame : PerChannel Frame) (seq : BitVec 32) (s : State) : (measure frame seq s).skipcnt = s.skipcnt := by simp [measure]
@[simp] theorem measure_framebuf (frame : PerChannel Frame) (seq : BitVec 32) (s : State) : (measure frame seq s).framebuf = s.framebuf := by simp [measure]
@[simp] theorem measure_acc (frame : PerChannel Frame) (seq : BitVec 32) (s : State) : (measure frame seq s).acc = s.acc := by simp [measure]
@[simp] theorem measure_avgcnt (frame : PerChannel Frame) (seq : BitVec 32) (s : State) : (measure frame seq s).avgcnt = s.avgcnt := by simp [measure]
@[simp] theorem measure_miss (frame : PerChannel Frame) (seq : BitVec 32) (s : State) : (measure frame seq s).miss = s.miss := by simp [measure]
@[simp] theorem measure_lfValid (frame : PerChannel Frame) (seq : BitVec 32) (s : State) : (measure frame seq s).lfValid = s.lfValid := by simp [measure]
@[simp] theorem measure_lfData (frame : PerChannel Frame) (seq : BitVec 32) (s : State) : (measure frame seq s).lfData = s.lfData := by simp [measure]
@[simp] theorem measure_lfChen (frame : PerChannel Frame) (seq : BitVec 32) (s : State) : (measure frame seq s).lfChen = s.lfChen := by simp [measure]
@[simp] theorem measure_frameseq (frame : PerChannel Frame) (seq : BitVec 32) (s : State) : (measure frame seq s).frameseq = s.frameseq := by simp [measure]
@[simp] theorem measure_ry (frame : PerChannel Frame) (seq : BitVec 32) (s : State) : (measure frame seq s).ry = s.ry := by simp [measure]
@[simp] theorem measure_ryValid (frame : PerChannel Frame) (seq : BitVec 32) (s : State) : (measure frame seq s).ryValid = s.ryValid := by simp [measure]
@[simp] theorem measure_ovr (frame : PerChannel Frame) (seq : BitVec 32) (s : State) : (measure frame seq s).ovr = s.ovr := by simp [measure]
@[simp] theorem measure_cfgerr (frame : PerChannel Frame) (seq : BitVec 32) (s : State) : (measure frame seq s).cfgerr = s.cfgerr := by simp [measure]
@[simp] theorem measure_cmderr (frame : PerChannel Frame) (seq : BitVec 32) (s : State) : (measure frame seq s).cmderr = s.cmderr := by simp [measure]
@[simp] theorem measure_readOut (frame : PerChannel Frame) (seq : BitVec 32) (s : State) : (measure frame seq s).readOut = s.readOut := by simp [measure]
@[simp] theorem measure_draws (frame : PerChannel Frame) (seq : BitVec 32) (s : State) : (measure frame seq s).draws = s.draws := by simp [measure]
@[simp] theorem measure_inputs (frame : PerChannel Frame) (seq : BitVec 32) (s : State) : (measure frame seq s).inputs = s.inputs := by simp [measure]
@[simp] theorem deliverFrame_par (frame : PerChannel Frame) (s : State) : (deliverFrame frame s).par = s.par := by simp [deliverFrame]
@[simp] theorem deliverFrame_store (frame : PerChannel Frame) (s : State) : (deliverFrame frame s).store = s.store := by simp [deliverFrame]
@[simp] theorem deliverFrame_wp (frame : PerChannel Frame) (s : State) : (deliverFrame frame s).wp = s.wp := by simp [deliverFrame]
@[simp] theorem deliverFrame_mbox (frame : PerChannel Frame) (s : State) : (deliverFrame frame s).mbox = s.mbox := by simp [deliverFrame]
@[simp] theorem deliverFrame_pend (frame : PerChannel Frame) (s : State) : (deliverFrame frame s).pend = s.pend := by simp [deliverFrame]
@[simp] theorem deliverFrame_vtab (frame : PerChannel Frame) (s : State) : (deliverFrame frame s).vtab = s.vtab := by simp [deliverFrame]
@[simp] theorem deliverFrame_htab (frame : PerChannel Frame) (s : State) : (deliverFrame frame s).htab = s.htab := by simp [deliverFrame]
@[simp] theorem deliverFrame_act (frame : PerChannel Frame) (s : State) : (deliverFrame frame s).act = s.act := by simp [deliverFrame]
@[simp] theorem deliverFrame_run (frame : PerChannel Frame) (s : State) : (deliverFrame frame s).run = s.run := by simp [deliverFrame]
@[simp] theorem deliverFrame_cstate (frame : PerChannel Frame) (s : State) : (deliverFrame frame s).cstate = s.cstate := by simp [deliverFrame]
@[simp] theorem deliverFrame_trigIdx (frame : PerChannel Frame) (s : State) : (deliverFrame frame s).trigIdx = s.trigIdx := by simp [deliverFrame]
@[simp] theorem deliverFrame_forced (frame : PerChannel Frame) (s : State) : (deliverFrame frame s).forced = s.forced := by simp [deliverFrame]
@[simp] theorem deliverFrame_pix (frame : PerChannel Frame) (s : State) : (deliverFrame frame s).pix = s.pix := by simp [deliverFrame]
@[simp] theorem deliverFrame_skipcnt (frame : PerChannel Frame) (s : State) : (deliverFrame frame s).skipcnt = s.skipcnt := by simp [deliverFrame]
@[simp] theorem deliverFrame_framebuf (frame : PerChannel Frame) (s : State) : (deliverFrame frame s).framebuf = s.framebuf := by simp [deliverFrame]
@[simp] theorem deliverFrame_acc (frame : PerChannel Frame) (s : State) : (deliverFrame frame s).acc = s.acc := by simp [deliverFrame]
@[simp] theorem deliverFrame_avgcnt (frame : PerChannel Frame) (s : State) : (deliverFrame frame s).avgcnt = s.avgcnt := by simp [deliverFrame]
@[simp] theorem deliverFrame_miss (frame : PerChannel Frame) (s : State) : (deliverFrame frame s).miss = s.miss := by simp [deliverFrame]
@[simp] theorem deliverFrame_ovr (frame : PerChannel Frame) (s : State) : (deliverFrame frame s).ovr = s.ovr := by simp [deliverFrame]
@[simp] theorem deliverFrame_cfgerr (frame : PerChannel Frame) (s : State) : (deliverFrame frame s).cfgerr = s.cfgerr := by simp [deliverFrame]
@[simp] theorem deliverFrame_cmderr (frame : PerChannel Frame) (s : State) : (deliverFrame frame s).cmderr = s.cmderr := by simp [deliverFrame]
@[simp] theorem deliverFrame_readOut (frame : PerChannel Frame) (s : State) : (deliverFrame frame s).readOut = s.readOut := by simp [deliverFrame]
@[simp] theorem deliverFrame_draws (frame : PerChannel Frame) (s : State) : (deliverFrame frame s).draws = s.draws := by simp [deliverFrame]
@[simp] theorem deliverFrame_inputs (frame : PerChannel Frame) (s : State) : (deliverFrame frame s).inputs = s.inputs := by simp [deliverFrame]

/-- PUBLISH while stopped: nothing is delivered. -/
theorem publish_stopped {s : State} (h : s.run = false) (frame : PerChannel Frame) :
    publish frame s = latchIfBoundary (withCState .idle (withCState .publishing s)) := by simp [publish, h]

/-- PUBLISH while running: the frame is delivered, then the detector is re-armed. -/
theorem publish_running {s : State} (h : s.run = true) (frame : PerChannel Frame) :
    publish frame s = latchIfBoundary (withCState .idle (deliverFrame frame (withCState .publishing s))) := by
  simp [publish, h]

@[simp] theorem publish_par (frame : PerChannel Frame) (s : State) : (publish frame s).par = s.par := by cases h : s.run <;> simp [publish, h]
@[simp] theorem publish_store (frame : PerChannel Frame) (s : State) : (publish frame s).store = s.store := by cases h : s.run <;> simp [publish, h]
@[simp] theorem publish_wp (frame : PerChannel Frame) (s : State) : (publish frame s).wp = s.wp := by cases h : s.run <;> simp [publish, h]
@[simp] theorem publish_mbox (frame : PerChannel Frame) (s : State) : (publish frame s).mbox = s.mbox := by cases h : s.run <;> simp [publish, h]
@[simp] theorem publish_pend (frame : PerChannel Frame) (s : State) : (publish frame s).pend = s.pend := by cases h : s.run <;> simp [publish, h]
@[simp] theorem publish_vtab (frame : PerChannel Frame) (s : State) : (publish frame s).vtab = s.vtab := by cases h : s.run <;> simp [publish, h]
@[simp] theorem publish_htab (frame : PerChannel Frame) (s : State) : (publish frame s).htab = s.htab := by cases h : s.run <;> simp [publish, h]
@[simp] theorem publish_run (frame : PerChannel Frame) (s : State) : (publish frame s).run = s.run := by cases h : s.run <;> simp [publish, h]
@[simp] theorem publish_ovr (frame : PerChannel Frame) (s : State) : (publish frame s).ovr = s.ovr := by cases h : s.run <;> simp [publish, h]
@[simp] theorem publish_cfgerr (frame : PerChannel Frame) (s : State) : (publish frame s).cfgerr = s.cfgerr := by cases h : s.run <;> simp [publish, h]
@[simp] theorem publish_cmderr (frame : PerChannel Frame) (s : State) : (publish frame s).cmderr = s.cmderr := by cases h : s.run <;> simp [publish, h]
@[simp] theorem publish_readOut (frame : PerChannel Frame) (s : State) : (publish frame s).readOut = s.readOut := by cases h : s.run <;> simp [publish, h]
@[simp] theorem publish_draws (frame : PerChannel Frame) (s : State) : (publish frame s).draws = s.draws := by cases h : s.run <;> simp [publish, h]
@[simp] theorem publish_inputs (frame : PerChannel Frame) (s : State) : (publish frame s).inputs = s.inputs := by cases h : s.run <;> simp [publish, h]
@[simp] theorem publish_trigIdx (frame : PerChannel Frame) (s : State) : (publish frame s).trigIdx = s.trigIdx := by cases h : s.run <;> simp [publish, h]
@[simp] theorem publish_forced (frame : PerChannel Frame) (s : State) : (publish frame s).forced = s.forced := by cases h : s.run <;> simp [publish, h]
@[simp] theorem publish_pix (frame : PerChannel Frame) (s : State) : (publish frame s).pix = s.pix := by cases h : s.run <;> simp [publish, h]
@[simp] theorem publish_skipcnt (frame : PerChannel Frame) (s : State) : (publish frame s).skipcnt = s.skipcnt := by cases h : s.run <;> simp [publish, h]
@[simp] theorem publish_framebuf (frame : PerChannel Frame) (s : State) : (publish frame s).framebuf = s.framebuf := by cases h : s.run <;> simp [publish, h]
@[simp] theorem publish_acc (frame : PerChannel Frame) (s : State) : (publish frame s).acc = s.acc := by cases h : s.run <;> simp [publish, h]
@[simp] theorem publish_avgcnt (frame : PerChannel Frame) (s : State) : (publish frame s).avgcnt = s.avgcnt := by cases h : s.run <;> simp [publish, h]
@[simp] theorem publish_miss (frame : PerChannel Frame) (s : State) : (publish frame s).miss = s.miss := by cases h : s.run <;> simp [publish, h]

@[simp] theorem publish_cstate (frame : PerChannel Frame) (s : State) : (publish frame s).cstate = .idle := by
  cases h : s.run <;> simp [publish, h]

/-- PUBLISH latches exactly when no accumulation cycle is open. -/
theorem publish_act (frame : PerChannel Frame) (s : State) :
    (publish frame s).act = if s.avgcnt = 0 then latchedCfg s.pend s.vtab s.htab else s.act := by
  cases h : s.run <;> simp [publish, h, latchIfBoundary_act, atBoundary]

/-! ## What no capture step writes -/

/-- The part of the state no capture step and no publication writes. -/
structure Outside where
  par : Params
  store : PerChannel Memory
  wp : Nat
  mbox : PerSlot Mailbox
  pend : PendingCfg
  vtab : List VRow
  htab : List HRow
  run : Bool
  ovr : Bool
  cfgerr : Bool
  cmderr : Bool
  readOut : List (BitVec 8 × BitVec 32)
  draws : Nat
  inputs : List Event

/-- The part of `s` no capture step and no publication writes. -/
def outside (s : State) : Outside :=
  ⟨s.par, s.store, s.wp, s.mbox, s.pend, s.vtab, s.htab, s.run, s.ovr, s.cfgerr, s.cmderr, s.readOut, s.draws, s.inputs⟩

@[simp] theorem outside_publish (frame : PerChannel Frame) (s : State) : outside (publish frame s) = outside s := by
  simp [outside]

@[simp] theorem outside_withCState (c : CState) (s : State) : outside (withCState c s) = outside s := rfl
@[simp] theorem outside_normalStarted (T : Nat) (forced : Bool) (s : State) :
    outside (normalStarted T forced s) = outside s := rfl
@[simp] theorem outside_codeSkipped (s : State) : outside (codeSkipped s) = outside s := rfl
@[simp] theorem outside_pixelFilled (i : Nat) (s : State) : outside (pixelFilled i s) = outside s := rfl
@[simp] theorem outside_cycleClosed (s : State) : outside (cycleClosed s) = outside s := rfl
@[simp] theorem outside_occurrenceCounted (s : State) : outside (occurrenceCounted s) = outside s := rfl
@[simp] theorem outside_occurrenceStarted (T : Nat) (forced : Bool) (s : State) :
    outside (occurrenceStarted T forced s) = outside s := rfl
@[simp] theorem outside_pixelAccumulated (i : Nat) (s : State) : outside (pixelAccumulated i s) = outside s := rfl
@[simp] theorem outside_withMiss (m : BitVec 16) (s : State) : outside (withMiss m s) = outside s := rfl

@[simp] theorem outside_completeIfFull (s : State) : outside (completeIfFull s) = outside s := by
  unfold completeIfFull frameCompleteNormal; split <;> simp

@[simp] theorem outside_startCaptureNormal (T : Nat) (forced : Bool) (s : State) :
    outside (startCaptureNormal T forced s) = outside s := by simp [startCaptureNormal]

@[simp] theorem outside_fillStep (i : Nat) (s : State) : outside (fillStep i s) = outside s := by
  unfold fillStep; split <;> simp

@[simp] theorem outside_average (s : State) : outside (average s) = outside s := by simp [average]

@[simp] theorem outside_occurrenceComplete (s : State) : outside (occurrenceComplete s) = outside s := by
  unfold occurrenceComplete; split <;> simp

@[simp] theorem outside_occurrenceIfFull (s : State) : outside (occurrenceIfFull s) = outside s := by
  unfold occurrenceIfFull; split <;> simp

@[simp] theorem outside_startCaptureAverage (T : Nat) (forced : Bool) (s : State) :
    outside (startCaptureAverage T forced s) = outside s := by simp [startCaptureAverage]

@[simp] theorem outside_accumulateStep (i : Nat) (s : State) : outside (accumulateStep i s) = outside s := by
  unfold accumulateStep; split <;> simp

@[simp] theorem outside_startCapture (T : Nat) (forced : Bool) (s : State) :
    outside (startCapture T forced s) = outside s := by
  unfold startCapture; split <;> simp

@[simp] theorem outside_triggerStep (i : Nat) (s : State) : outside (triggerStep i s).1 = outside s := by
  unfold triggerStep fire; split <;> simp

@[simp] theorem outside_codeStep (i : Nat) (p : State × Bool) : outside (codeStep i p).1 = outside p.1 := by
  unfold codeStep; split <;> simp

@[simp] theorem outside_codeSteps (b n : Nat) (p : State × Bool) : outside (codeSteps b n p).1 = outside p.1 := by
  induction n generalizing b p with
  | zero => rfl
  | succ n ih => rw [codeSteps, ih, outside_codeStep]

@[simp] theorem outside_missAccount (fired : Bool) (s : State) : outside (missAccount fired s) = outside s := by
  unfold missAccount; split <;> simp

@[simp] theorem outside_forceFire (fired : Bool) (last : Nat) (s : State) :
    outside (forceFire fired last s) = outside s := by
  unfold forceFire; split <;> simp

@[simp] theorem startCapture_par (T : Nat) (forced : Bool) (s : State) : (startCapture T forced s).par = s.par := congrArg Outside.par (outside_startCapture T forced s)
@[simp] theorem startCapture_store (T : Nat) (forced : Bool) (s : State) : (startCapture T forced s).store = s.store := congrArg Outside.store (outside_startCapture T forced s)
@[simp] theorem startCapture_wp (T : Nat) (forced : Bool) (s : State) : (startCapture T forced s).wp = s.wp := congrArg Outside.wp (outside_startCapture T forced s)
@[simp] theorem startCapture_mbox (T : Nat) (forced : Bool) (s : State) : (startCapture T forced s).mbox = s.mbox := congrArg Outside.mbox (outside_startCapture T forced s)
@[simp] theorem startCapture_pend (T : Nat) (forced : Bool) (s : State) : (startCapture T forced s).pend = s.pend := congrArg Outside.pend (outside_startCapture T forced s)
@[simp] theorem startCapture_vtab (T : Nat) (forced : Bool) (s : State) : (startCapture T forced s).vtab = s.vtab := congrArg Outside.vtab (outside_startCapture T forced s)
@[simp] theorem startCapture_htab (T : Nat) (forced : Bool) (s : State) : (startCapture T forced s).htab = s.htab := congrArg Outside.htab (outside_startCapture T forced s)
@[simp] theorem startCapture_run (T : Nat) (forced : Bool) (s : State) : (startCapture T forced s).run = s.run := congrArg Outside.run (outside_startCapture T forced s)
@[simp] theorem startCapture_ovr (T : Nat) (forced : Bool) (s : State) : (startCapture T forced s).ovr = s.ovr := congrArg Outside.ovr (outside_startCapture T forced s)
@[simp] theorem startCapture_cfgerr (T : Nat) (forced : Bool) (s : State) : (startCapture T forced s).cfgerr = s.cfgerr := congrArg Outside.cfgerr (outside_startCapture T forced s)
@[simp] theorem startCapture_cmderr (T : Nat) (forced : Bool) (s : State) : (startCapture T forced s).cmderr = s.cmderr := congrArg Outside.cmderr (outside_startCapture T forced s)
@[simp] theorem startCapture_readOut (T : Nat) (forced : Bool) (s : State) : (startCapture T forced s).readOut = s.readOut := congrArg Outside.readOut (outside_startCapture T forced s)
@[simp] theorem startCapture_draws (T : Nat) (forced : Bool) (s : State) : (startCapture T forced s).draws = s.draws := congrArg Outside.draws (outside_startCapture T forced s)
@[simp] theorem startCapture_inputs (T : Nat) (forced : Bool) (s : State) : (startCapture T forced s).inputs = s.inputs := congrArg Outside.inputs (outside_startCapture T forced s)

@[simp] theorem codeStep_par (i : Nat) (p : State × Bool) : (codeStep i p).1.par = p.1.par := congrArg Outside.par (outside_codeStep i p)
@[simp] theorem codeStep_store (i : Nat) (p : State × Bool) : (codeStep i p).1.store = p.1.store := congrArg Outside.store (outside_codeStep i p)
@[simp] theorem codeStep_wp (i : Nat) (p : State × Bool) : (codeStep i p).1.wp = p.1.wp := congrArg Outside.wp (outside_codeStep i p)
@[simp] theorem codeStep_mbox (i : Nat) (p : State × Bool) : (codeStep i p).1.mbox = p.1.mbox := congrArg Outside.mbox (outside_codeStep i p)
@[simp] theorem codeStep_pend (i : Nat) (p : State × Bool) : (codeStep i p).1.pend = p.1.pend := congrArg Outside.pend (outside_codeStep i p)
@[simp] theorem codeStep_vtab (i : Nat) (p : State × Bool) : (codeStep i p).1.vtab = p.1.vtab := congrArg Outside.vtab (outside_codeStep i p)
@[simp] theorem codeStep_htab (i : Nat) (p : State × Bool) : (codeStep i p).1.htab = p.1.htab := congrArg Outside.htab (outside_codeStep i p)
@[simp] theorem codeStep_run (i : Nat) (p : State × Bool) : (codeStep i p).1.run = p.1.run := congrArg Outside.run (outside_codeStep i p)
@[simp] theorem codeStep_ovr (i : Nat) (p : State × Bool) : (codeStep i p).1.ovr = p.1.ovr := congrArg Outside.ovr (outside_codeStep i p)
@[simp] theorem codeStep_cfgerr (i : Nat) (p : State × Bool) : (codeStep i p).1.cfgerr = p.1.cfgerr := congrArg Outside.cfgerr (outside_codeStep i p)
@[simp] theorem codeStep_cmderr (i : Nat) (p : State × Bool) : (codeStep i p).1.cmderr = p.1.cmderr := congrArg Outside.cmderr (outside_codeStep i p)
@[simp] theorem codeStep_readOut (i : Nat) (p : State × Bool) : (codeStep i p).1.readOut = p.1.readOut := congrArg Outside.readOut (outside_codeStep i p)
@[simp] theorem codeStep_draws (i : Nat) (p : State × Bool) : (codeStep i p).1.draws = p.1.draws := congrArg Outside.draws (outside_codeStep i p)
@[simp] theorem codeStep_inputs (i : Nat) (p : State × Bool) : (codeStep i p).1.inputs = p.1.inputs := congrArg Outside.inputs (outside_codeStep i p)

@[simp] theorem codeSteps_par (b n : Nat) (p : State × Bool) : (codeSteps b n p).1.par = p.1.par := congrArg Outside.par (outside_codeSteps b n p)
@[simp] theorem codeSteps_store (b n : Nat) (p : State × Bool) : (codeSteps b n p).1.store = p.1.store := congrArg Outside.store (outside_codeSteps b n p)
@[simp] theorem codeSteps_wp (b n : Nat) (p : State × Bool) : (codeSteps b n p).1.wp = p.1.wp := congrArg Outside.wp (outside_codeSteps b n p)
@[simp] theorem codeSteps_mbox (b n : Nat) (p : State × Bool) : (codeSteps b n p).1.mbox = p.1.mbox := congrArg Outside.mbox (outside_codeSteps b n p)
@[simp] theorem codeSteps_pend (b n : Nat) (p : State × Bool) : (codeSteps b n p).1.pend = p.1.pend := congrArg Outside.pend (outside_codeSteps b n p)
@[simp] theorem codeSteps_vtab (b n : Nat) (p : State × Bool) : (codeSteps b n p).1.vtab = p.1.vtab := congrArg Outside.vtab (outside_codeSteps b n p)
@[simp] theorem codeSteps_htab (b n : Nat) (p : State × Bool) : (codeSteps b n p).1.htab = p.1.htab := congrArg Outside.htab (outside_codeSteps b n p)
@[simp] theorem codeSteps_run (b n : Nat) (p : State × Bool) : (codeSteps b n p).1.run = p.1.run := congrArg Outside.run (outside_codeSteps b n p)
@[simp] theorem codeSteps_ovr (b n : Nat) (p : State × Bool) : (codeSteps b n p).1.ovr = p.1.ovr := congrArg Outside.ovr (outside_codeSteps b n p)
@[simp] theorem codeSteps_cfgerr (b n : Nat) (p : State × Bool) : (codeSteps b n p).1.cfgerr = p.1.cfgerr := congrArg Outside.cfgerr (outside_codeSteps b n p)
@[simp] theorem codeSteps_cmderr (b n : Nat) (p : State × Bool) : (codeSteps b n p).1.cmderr = p.1.cmderr := congrArg Outside.cmderr (outside_codeSteps b n p)
@[simp] theorem codeSteps_readOut (b n : Nat) (p : State × Bool) : (codeSteps b n p).1.readOut = p.1.readOut := congrArg Outside.readOut (outside_codeSteps b n p)
@[simp] theorem codeSteps_draws (b n : Nat) (p : State × Bool) : (codeSteps b n p).1.draws = p.1.draws := congrArg Outside.draws (outside_codeSteps b n p)
@[simp] theorem codeSteps_inputs (b n : Nat) (p : State × Bool) : (codeSteps b n p).1.inputs = p.1.inputs := congrArg Outside.inputs (outside_codeSteps b n p)

@[simp] theorem missAccount_par (fired : Bool) (s : State) : (missAccount fired s).par = s.par := congrArg Outside.par (outside_missAccount fired s)
@[simp] theorem missAccount_store (fired : Bool) (s : State) : (missAccount fired s).store = s.store := congrArg Outside.store (outside_missAccount fired s)
@[simp] theorem missAccount_wp (fired : Bool) (s : State) : (missAccount fired s).wp = s.wp := congrArg Outside.wp (outside_missAccount fired s)
@[simp] theorem missAccount_mbox (fired : Bool) (s : State) : (missAccount fired s).mbox = s.mbox := congrArg Outside.mbox (outside_missAccount fired s)
@[simp] theorem missAccount_pend (fired : Bool) (s : State) : (missAccount fired s).pend = s.pend := congrArg Outside.pend (outside_missAccount fired s)
@[simp] theorem missAccount_vtab (fired : Bool) (s : State) : (missAccount fired s).vtab = s.vtab := congrArg Outside.vtab (outside_missAccount fired s)
@[simp] theorem missAccount_htab (fired : Bool) (s : State) : (missAccount fired s).htab = s.htab := congrArg Outside.htab (outside_missAccount fired s)
@[simp] theorem missAccount_run (fired : Bool) (s : State) : (missAccount fired s).run = s.run := congrArg Outside.run (outside_missAccount fired s)
@[simp] theorem missAccount_ovr (fired : Bool) (s : State) : (missAccount fired s).ovr = s.ovr := congrArg Outside.ovr (outside_missAccount fired s)
@[simp] theorem missAccount_cfgerr (fired : Bool) (s : State) : (missAccount fired s).cfgerr = s.cfgerr := congrArg Outside.cfgerr (outside_missAccount fired s)
@[simp] theorem missAccount_cmderr (fired : Bool) (s : State) : (missAccount fired s).cmderr = s.cmderr := congrArg Outside.cmderr (outside_missAccount fired s)
@[simp] theorem missAccount_readOut (fired : Bool) (s : State) : (missAccount fired s).readOut = s.readOut := congrArg Outside.readOut (outside_missAccount fired s)
@[simp] theorem missAccount_draws (fired : Bool) (s : State) : (missAccount fired s).draws = s.draws := congrArg Outside.draws (outside_missAccount fired s)
@[simp] theorem missAccount_inputs (fired : Bool) (s : State) : (missAccount fired s).inputs = s.inputs := congrArg Outside.inputs (outside_missAccount fired s)

@[simp] theorem forceFire_par (fired : Bool) (last : Nat) (s : State) : (forceFire fired last s).par = s.par := congrArg Outside.par (outside_forceFire fired last s)
@[simp] theorem forceFire_store (fired : Bool) (last : Nat) (s : State) : (forceFire fired last s).store = s.store := congrArg Outside.store (outside_forceFire fired last s)
@[simp] theorem forceFire_wp (fired : Bool) (last : Nat) (s : State) : (forceFire fired last s).wp = s.wp := congrArg Outside.wp (outside_forceFire fired last s)
@[simp] theorem forceFire_mbox (fired : Bool) (last : Nat) (s : State) : (forceFire fired last s).mbox = s.mbox := congrArg Outside.mbox (outside_forceFire fired last s)
@[simp] theorem forceFire_pend (fired : Bool) (last : Nat) (s : State) : (forceFire fired last s).pend = s.pend := congrArg Outside.pend (outside_forceFire fired last s)
@[simp] theorem forceFire_vtab (fired : Bool) (last : Nat) (s : State) : (forceFire fired last s).vtab = s.vtab := congrArg Outside.vtab (outside_forceFire fired last s)
@[simp] theorem forceFire_htab (fired : Bool) (last : Nat) (s : State) : (forceFire fired last s).htab = s.htab := congrArg Outside.htab (outside_forceFire fired last s)
@[simp] theorem forceFire_run (fired : Bool) (last : Nat) (s : State) : (forceFire fired last s).run = s.run := congrArg Outside.run (outside_forceFire fired last s)
@[simp] theorem forceFire_ovr (fired : Bool) (last : Nat) (s : State) : (forceFire fired last s).ovr = s.ovr := congrArg Outside.ovr (outside_forceFire fired last s)
@[simp] theorem forceFire_cfgerr (fired : Bool) (last : Nat) (s : State) : (forceFire fired last s).cfgerr = s.cfgerr := congrArg Outside.cfgerr (outside_forceFire fired last s)
@[simp] theorem forceFire_cmderr (fired : Bool) (last : Nat) (s : State) : (forceFire fired last s).cmderr = s.cmderr := congrArg Outside.cmderr (outside_forceFire fired last s)
@[simp] theorem forceFire_readOut (fired : Bool) (last : Nat) (s : State) : (forceFire fired last s).readOut = s.readOut := congrArg Outside.readOut (outside_forceFire fired last s)
@[simp] theorem forceFire_draws (fired : Bool) (last : Nat) (s : State) : (forceFire fired last s).draws = s.draws := congrArg Outside.draws (outside_forceFire fired last s)
@[simp] theorem forceFire_inputs (fired : Bool) (last : Nat) (s : State) : (forceFire fired last s).inputs = s.inputs := congrArg Outside.inputs (outside_forceFire fired last s)

/-! ## One pass, one iteration -/

/-- A capture step reads the store, the tables and the pending registers as it finds them: StoreRead is the same after it. -/
theorem storeRead_congr {s t : State} (h : outside s = outside t) (ch : Channel) (x : Int) :
    storeRead s ch x = storeRead t ch x := by
  have h1 : s.store = t.store := congrArg Outside.store h
  have h2 : s.par = t.par := congrArg Outside.par h
  simp [storeRead, h1, h2]

/-- What a pass leaves of the state no capture step writes: the block in the store and the pointer advanced. -/
theorem outside_processPass (words : List RawWord) (s : State) :
    outside (processPass words s) = outside (decodeBlock words s) := by
  simp only [processPass, passScanned, passLoaded, outside_forceFire, outside_missAccount, outside_codeSteps]
  simp [outside]

@[simp] theorem processPass_par (words : List RawWord) (s : State) : (processPass words s).par = s.par := congrArg Outside.par (outside_processPass words s)
@[simp] theorem processPass_mbox (words : List RawWord) (s : State) : (processPass words s).mbox = s.mbox := congrArg Outside.mbox (outside_processPass words s)
@[simp] theorem processPass_pend (words : List RawWord) (s : State) : (processPass words s).pend = s.pend := congrArg Outside.pend (outside_processPass words s)
@[simp] theorem processPass_vtab (words : List RawWord) (s : State) : (processPass words s).vtab = s.vtab := congrArg Outside.vtab (outside_processPass words s)
@[simp] theorem processPass_htab (words : List RawWord) (s : State) : (processPass words s).htab = s.htab := congrArg Outside.htab (outside_processPass words s)
@[simp] theorem processPass_run (words : List RawWord) (s : State) : (processPass words s).run = s.run := congrArg Outside.run (outside_processPass words s)
@[simp] theorem processPass_ovr (words : List RawWord) (s : State) : (processPass words s).ovr = s.ovr := congrArg Outside.ovr (outside_processPass words s)
@[simp] theorem processPass_cfgerr (words : List RawWord) (s : State) : (processPass words s).cfgerr = s.cfgerr := congrArg Outside.cfgerr (outside_processPass words s)
@[simp] theorem processPass_cmderr (words : List RawWord) (s : State) : (processPass words s).cmderr = s.cmderr := congrArg Outside.cmderr (outside_processPass words s)
@[simp] theorem processPass_readOut (words : List RawWord) (s : State) : (processPass words s).readOut = s.readOut := congrArg Outside.readOut (outside_processPass words s)
@[simp] theorem processPass_draws (words : List RawWord) (s : State) : (processPass words s).draws = s.draws := congrArg Outside.draws (outside_processPass words s)
@[simp] theorem processPass_inputs (words : List RawWord) (s : State) : (processPass words s).inputs = s.inputs := congrArg Outside.inputs (outside_processPass words s)

theorem processPass_wp (words : List RawWord) (s : State) : (processPass words s).wp = (s.wp + s.par.n) % s.par.cap :=
  congrArg Outside.wp (outside_processPass words s)

theorem processPass_store (words : List RawWord) (s : State) :
    (processPass words s).store = storeBlock s.wp words s.store :=
  congrArg Outside.store (outside_processPass words s)

end Sys2Proof.Machine
end

