-- ==== Sys2Proof/Laws/Decode.lean ====
section
/-! SUPPORT. The fields of an encoded word read back, and what the decoder can answer: the laws every statement about
encodings goes through. -/

namespace Sys2Proof

/-! ## Fields of the two formats -/

/-- A word of format R as a number. -/
theorem toNat_formatR (op sub : BitVec 4) (ch : BitVec 1) (idx : BitVec 7) (data : BitVec 16) :
    (formatR op sub ch idx data).toNat =
      op.toNat * 2 ^ 28 + sub.toNat * 2 ^ 24 + ch.toNat * 2 ^ 23 + idx.toNat * 2 ^ 16 + data.toNat := by
  have h1 := sub.isLt; have h2 := ch.isLt; have h3 := idx.isLt; have h4 := data.isLt
  simp only [formatR, BitVec.toNat_append]
  rw [← Nat.shiftLeft_add_eq_or_of_lt (by omega), ← Nat.shiftLeft_add_eq_or_of_lt (by omega),
    ← Nat.shiftLeft_add_eq_or_of_lt (by omega), ← Nat.shiftLeft_add_eq_or_of_lt (by omega)]
  simp only [Nat.shiftLeft_eq]
  omega

/-- A word of format T as a number. -/
theorem toNat_formatT (edge src : BitVec 1) (pos : BitVec 9) (level : Code) :
    (formatT edge src pos level).toNat =
      2 * 2 ^ 28 + edge.toNat * 2 ^ 27 + src.toNat * 2 ^ 26 + pos.toNat * 2 ^ 16 + level.toNat := by
  have h1 := edge.isLt; have h2 := src.isLt; have h3 := pos.isLt; have h4 := level.isLt
  simp only [formatT, BitVec.toNat_append]
  rw [← Nat.shiftLeft_add_eq_or_of_lt (by omega), ← Nat.shiftLeft_add_eq_or_of_lt (by simp),
    ← Nat.shiftLeft_add_eq_or_of_lt (by omega), ← Nat.shiftLeft_add_eq_or_of_lt (by simp),
    ← Nat.shiftLeft_add_eq_or_of_lt (by omega), ← Nat.shiftLeft_add_eq_or_of_lt (by omega)]
  simp only [Nat.shiftLeft_eq, BitVec.toNat_ofNat]
  omega

/-- A field of a word as a number. -/
theorem toNat_field (w : CmdWord) (lo n : Nat) : (w.extractLsb' lo n).toNat = w.toNat / 2 ^ lo % 2 ^ n := by
  simp [Nat.shiftRight_eq_div_pow]

/-- A bit of a word as a number. -/
theorem getLsbD_eq {n : Nat} (w : BitVec n) (i : Nat) : w.getLsbD i = decide (w.toNat / 2 ^ i % 2 = 1) := by
  simp [BitVec.getLsbD, Nat.testBit_eq_decide_div_mod_eq]

section
variable (op sub : BitVec 4) (ch : BitVec 1) (idx : BitVec 7) (data : BitVec 16)

@[simp] theorem opOf_formatR : opOf (formatR op sub ch idx data) = op := by
  apply BitVec.eq_of_toNat_eq
  have h0 := op.isLt; have h1 := sub.isLt; have h2 := ch.isLt; have h3 := idx.isLt; have h4 := data.isLt
  rw [opOf, toNat_field, toNat_formatR]; omega

@[simp] theorem subOf_formatR : subOf (formatR op sub ch idx data) = sub := by
  apply BitVec.eq_of_toNat_eq
  have h0 := op.isLt; have h1 := sub.isLt; have h2 := ch.isLt; have h3 := idx.isLt; have h4 := data.isLt
  rw [subOf, toNat_field, toNat_formatR]; omega

@[simp] theorem idxOf_formatR : idxOf (formatR op sub ch idx data) = idx := by
  apply BitVec.eq_of_toNat_eq
  have h0 := op.isLt; have h1 := sub.isLt; have h2 := ch.isLt; have h3 := idx.isLt; have h4 := data.isLt
  rw [idxOf, toNat_field, toNat_formatR]; omega

@[simp] theorem dataOf_formatR : dataOf (formatR op sub ch idx data) = data := by
  apply BitVec.eq_of_toNat_eq
  have h0 := op.isLt; have h1 := sub.isLt; have h2 := ch.isLt; have h3 := idx.isLt; have h4 := data.isLt
  rw [dataOf, toNat_field, toNat_formatR]; omega

/-- The CH bit of a format R word. -/
theorem chOf_formatR : chOf (formatR op sub ch idx data) = channelOfBit (ch.getLsbD 0) := by
  have h0 := op.isLt; have h1 := sub.isLt; have h2 := ch.isLt; have h3 := idx.isLt; have h4 := data.isLt
  rw [chOf, getLsbD_eq, getLsbD_eq, toNat_formatR]
  congr 2
  simp only [eq_iff_iff]
  omega

/-- `DATA[0]` of a format R word. -/
theorem flagOf_formatR : flagOf (formatR op sub ch idx data) = data.getLsbD 0 := by
  have h0 := op.isLt; have h1 := sub.isLt; have h2 := ch.isLt; have h3 := idx.isLt; have h4 := data.isLt
  rw [flagOf, getLsbD_eq, getLsbD_eq, toNat_formatR]
  congr 1
  simp only [eq_iff_iff]
  omega

/-- `DATA[2:0]` of a format R word. -/
theorem maskOf_formatR : maskOf (formatR op sub ch idx data) = data.extractLsb' 0 3 := by
  apply BitVec.eq_of_toNat_eq
  have h0 := op.isLt; have h1 := sub.isLt; have h2 := ch.isLt; have h3 := idx.isLt; have h4 := data.isLt
  rw [maskOf, toNat_field, toNat_formatR]
  simp only [BitVec.extractLsb'_toNat, Nat.shiftRight_zero]
  omega

end

section
variable (edge src : BitVec 1) (pos : BitVec 9) (level : Code)

@[simp] theorem opOf_formatT : opOf (formatT edge src pos level) = 2 := by
  apply BitVec.eq_of_toNat_eq
  have h1 := edge.isLt; have h2 := src.isLt; have h3 := pos.isLt; have h4 := level.isLt
  rw [opOf, toNat_field, toNat_formatT]
  show _ = 2
  omega

@[simp] theorem posOf_formatT : posOf (formatT edge src pos level) = pos := by
  apply BitVec.eq_of_toNat_eq
  have h1 := edge.isLt; have h2 := src.isLt; have h3 := pos.isLt; have h4 := level.isLt
  rw [posOf, toNat_field, toNat_formatT]; omega

@[simp] theorem levelOf_formatT : levelOf (formatT edge src pos level) = level := by
  apply BitVec.eq_of_toNat_eq
  have h1 := edge.isLt; have h2 := src.isLt; have h3 := pos.isLt; have h4 := level.isLt
  rw [levelOf, toNat_field, toNat_formatT]; omega

/-- The EDGE bit of a format T word. -/
theorem edgeOf_formatT : edgeOf (formatT edge src pos level) = edgeOfBit (edge.getLsbD 0) := by
  have h1 := edge.isLt; have h2 := src.isLt; have h3 := pos.isLt; have h4 := level.isLt
  rw [edgeOf, getLsbD_eq, getLsbD_eq, toNat_formatT]
  congr 2
  simp only [eq_iff_iff]
  omega

/-- The SRC bit of a format T word. -/
theorem srcOf_formatT : srcOf (formatT edge src pos level) = channelOfBit (src.getLsbD 0) := by
  have h1 := edge.isLt; have h2 := src.isLt; have h3 := pos.isLt; have h4 := level.isLt
  rw [srcOf, getLsbD_eq, getLsbD_eq, toNat_formatT]
  congr 2
  simp only [eq_iff_iff]
  omega

end

@[simp] theorem channelOfBit_channelBit (ch : Channel) : channelOfBit ((channelBit ch).getLsbD 0) = ch := by
  cases ch <;> rfl

@[simp] theorem edgeOfBit_edgeBit (e : Edge) : edgeOfBit ((edgeBit e).getLsbD 0) = e := by cases e <;> rfl

@[simp] theorem modeOfBit_modeBit (m : Mode) : modeOfBit (((modeBit m).setWidth 16).getLsbD 0) = m := by cases m <;> rfl

@[simp] theorem getLsbD_flagData (b : Bool) : (flagData b).getLsbD 0 = b := by cases b <;> rfl

@[simp] theorem extract_mask (m : BitVec 3) : (m.setWidth 16).extractLsb' 0 3 = m := by
  apply BitVec.eq_of_toNat_eq
  have := m.isLt
  simp only [BitVec.extractLsb'_toNat, BitVec.toNat_setWidth, Nat.shiftRight_zero]
  omega


end Sys2Proof
end

