-- ==== Sys2Proof/Laws/Invariant.lean ====
section
/-! SUPPORT. The invariant of R48 through the capture operations: what each needs of the state it starts from, and that it
leaves a legal state. -/

namespace Sys2Proof.Machine

/-- The part of the invariant that does not speak of the capture state. -/
structure Sound (s : State) : Prop where
  params : s.par.legal = true
  store_wf : ∀ ch, (s.store.get ch).wf = true
  store_below : ∀ ch, (s.store.get ch).below s.par.cap = true
  wp_lt : s.wp < s.par.cap
  wp_aligned : s.wp % s.par.n = 0
  mbox_length : ∀ k, (s.mbox.get k).data.length = s.par.n
  vtab_length : s.nv = s.par.vtabInit.length
  htab_length : s.nh = s.par.htabInit.length
  vtab_legal : ∀ r ∈ s.vtab, r.legal = true
  htab_legal : ∀ r ∈ s.htab, r.legal = true
  pend_legal : PendingLegal s.nv s.nh s.pend
  act_legal : ActiveLegal s.nv s.nh s.act
  trig_lt : s.trigIdx < s.par.cap
  fcnt_le : ∀ ch, (s.fcnt.get ch).toNat ≤ 9
  fset_nonneg : ∀ ch, ∀ q ∈ (s.fset.get ch).toList, 0 ≤ q

/-- The part of the invariant that speaks of the capture state. -/
structure CaptureLegal (s : State) : Prop where
  rest : s.cstate.rest = true
  filling_normal : s.cstate = .filling → s.act.mode = .normal
  accumulating_average : s.cstate = .accumulating → s.act.mode = .average
  pix_low : s.cstate ≠ .idle → s.act.pos.toNat + 1 ≤ s.pix.toNat
  pix_high : s.cstate ≠ .idle → s.pix.toNat < FL
  skip_le : atBoundary s = false → s.skipcnt ≤ s.act.skip
  avgcnt_lt : s.avgcnt < s.act.numavg
  normal_avgcnt : s.act.mode = .normal → s.avgcnt = 0
  boundary_acc : atBoundary s = true → ∀ ch, s.acc.get ch = Vector.replicate FL 0
  normal_acc : s.act.mode = .normal → ∀ ch, s.acc.get ch = Vector.replicate FL 0

theorem Inv.sound {s : State} (h : Inv s) : Sound s :=
  ⟨h.params, h.store_wf, h.store_below, h.wp_lt, h.wp_aligned, h.mbox_length, h.vtab_length, h.htab_length, h.vtab_legal,
    h.htab_legal, h.pend_legal, h.act_legal, h.trig_lt, h.fcnt_le, h.fset_nonneg⟩

theorem Inv.captureLegal {s : State} (h : Inv s) : CaptureLegal s :=
  ⟨h.rest, h.filling_normal, h.accumulating_average, h.pix_low, h.pix_high, h.skip_le, h.avgcnt_lt, h.normal_avgcnt,
    h.boundary_acc, h.normal_acc⟩

/-- The two parts make the invariant. -/
theorem Sound.inv {s : State} (h : Sound s) (c : CaptureLegal s) : Inv s :=
  ⟨h.params, h.store_wf, h.store_below, h.wp_lt, h.wp_aligned, h.mbox_length, h.vtab_length, h.htab_length, h.vtab_legal,
    h.htab_legal, h.pend_legal, h.act_legal, c.rest, c.filling_normal, c.accumulating_average, h.trig_lt, c.pix_low,
    c.pix_high, c.skip_le, c.avgcnt_lt, c.normal_avgcnt, c.boundary_acc, c.normal_acc, h.fcnt_le, h.fset_nonneg⟩

/-- `Sound` reads only these parts of the state. -/
theorem Sound.congr {s t : State} (h : Sound s) (ho : outside t = outside s) (ha : ActiveLegal s.nv s.nh t.act)
    (ht : t.trigIdx < s.par.cap) (hc : ∀ ch, (t.fcnt.get ch).toNat ≤ 9) (hf : ∀ ch, ∀ q ∈ (t.fset.get ch).toList, 0 ≤ q) :
    Sound t := by
  have hpar : t.par = s.par := congrArg Outside.par ho
  have hstore : t.store = s.store := congrArg Outside.store ho
  have hwp : t.wp = s.wp := congrArg Outside.wp ho
  have hmbox : t.mbox = s.mbox := congrArg Outside.mbox ho
  have hpend : t.pend = s.pend := congrArg Outside.pend ho
  have hvtab : t.vtab = s.vtab := congrArg Outside.vtab ho
  have hhtab : t.htab = s.htab := congrArg Outside.htab ho
  have hnv : t.nv = s.nv := congrArg List.length hvtab
  have hnh : t.nh = s.nh := congrArg List.length hhtab
  constructor
  · rw [hpar]; exact h.params
  · rw [hstore]; exact h.store_wf
  · rw [hstore, hpar]; exact h.store_below
  · rw [hwp, hpar]; exact h.wp_lt
  · rw [hwp, hpar]; exact h.wp_aligned
  · rw [hmbox, hpar]; exact h.mbox_length
  · rw [hnv, hpar]; exact h.vtab_length
  · rw [hnh, hpar]; exact h.htab_length
  · rw [hvtab]; exact h.vtab_legal
  · rw [hhtab]; exact h.htab_legal
  · rw [hnv, hnh, hpend]; exact h.pend_legal
  · rw [hnv, hnh]; exact ha
  · rw [hpar]; exact ht
  · exact hc
  · exact hf

/-! ## The latch and the estimate set -/

theorem vrow_mem {t : List VRow} {v : BitVec 7} (h : v.toNat < t.length) : vrow t v ∈ t := by
  simp [vrow, List.getElem?_eq_getElem h]

theorem hrow_mem {t : List HRow} {v : BitVec 7} (h : v.toNat < t.length) : hrow t v ∈ t := by
  simp [hrow, List.getElem?_eq_getElem h]

/-- LATCH gives a legal active set from legal pending registers and tables. -/
theorem latchedCfg_legal {s : State} (h : Sound s) : ActiveLegal s.nv s.nh (latchedCfg s.pend s.vtab s.htab) where
  vscale := h.pend_legal.vscale
  hscale := h.pend_legal.hscale
  pos := h.pend_legal.pos
  numavg := h.pend_legal.numavg
  div ch := by
    have := h.vtab_legal _ (vrow_mem (h.pend_legal.vscale ch))
    simpa [latchedCfg, VRow.legal] using this
  sppn := by
    have := h.htab_legal _ (hrow_mem h.pend_legal.hscale)
    simp only [HRow.legal, Bool.and_eq_true, bne_iff_ne] at this
    exact this.1
  sppd := by
    have := h.htab_legal _ (hrow_mem h.pend_legal.hscale)
    simp only [HRow.legal, Bool.and_eq_true, bne_iff_ne] at this
    exact this.2

/-- An estimate is never negative. -/
theorem freqEstimate_nonneg (a : ActiveCfg) (f : Frame) : 0 ≤ (freqEstimate a f).getD 0 := by
  unfold freqEstimate
  simp only
  split
  · simp
  · unfold secondMean
    split
    · simp
    · simp only [Option.map_some, Option.getD_some, rate]
      positivity

/-- FREQ_SET_UPDATE leaves a count of at most 9. -/
theorem freqSetUpdate_cnt {set : Vector ℚ MEASURE_AVG} {cnt : BitVec 4} (h : cnt.toNat ≤ 9) (est : Option ℚ) :
    (freqSetUpdate set cnt est).cnt.toNat ≤ 9 := by
  unfold freqSetUpdate
  split
  · simp
  · rename_i hne
    have h9 : cnt.toNat + 1 ≠ 10 := hne
    show (cnt + 1).toNat ≤ 9
    rw [toNat_succ (by omega)]
    omega

/-- FREQ_SET_UPDATE keeps every entry non-negative. -/
theorem freqSetUpdate_nonneg {set : Vector ℚ MEASURE_AVG} (cnt : BitVec 4) {est : Option ℚ}
    (h : ∀ q ∈ set.toList, 0 ≤ q) (he : 0 ≤ est.getD 0) : ∀ q ∈ (freqSetUpdate set cnt est).set.toList, 0 ≤ q := by
  unfold freqSetUpdate
  intro q hq
  split at hq
  · simp at hq; simp [hq]
  · simp only [Vector.mem_toList_iff] at hq h
    obtain ⟨k, hk, rfl⟩ := Vector.getElem_of_mem hq
    rw [Vector.getElem_setIfInBounds]
    split
    · exact he
    · exact h _ (Vector.getElem_mem hk)

theorem measureChannel_fcnt {s : State} (h : ∀ ch, (s.fcnt.get ch).toNat ≤ 9) (ch : Channel) (f : Frame) (seq : BitVec 32) :
    ∀ ch', (((measureChannel ch f seq s).fcnt).get ch').toNat ≤ 9 := by
  intro ch'
  unfold measureChannel
  split
  · by_cases heq : ch' = ch
    · subst heq
      simp only [PerChannel.get_set_same]
      exact freqSetUpdate_cnt (h ch') _
    · simp only [PerChannel.get_set_other _ _ heq]
      exact h ch'
  · exact h ch'

theorem measureChannel_fset {s : State} (h : ∀ ch, ∀ q ∈ (s.fset.get ch).toList, 0 ≤ q) (ch : Channel) (f : Frame)
    (seq : BitVec 32) : ∀ ch', ∀ q ∈ ((measureChannel ch f seq s).fset.get ch').toList, 0 ≤ q := by
  intro ch'
  unfold measureChannel
  split
  · by_cases heq : ch' = ch
    · subst heq
      simp only [PerChannel.get_set_same]
      exact freqSetUpdate_nonneg _ (h ch') (freqEstimate_nonneg _ _)
    · simp only [PerChannel.get_set_other _ _ heq]
      exact h ch'
  · exact h ch'

/-! ## Publication -/

/-- A publication touches the estimate sets only through MEASURE, so they stay legal. -/
theorem publish_sets {s : State} (h : Sound s) (frame : PerChannel Frame) :
    (∀ ch, ((publish frame s).fcnt.get ch).toNat ≤ 9) ∧ ∀ ch, ∀ q ∈ ((publish frame s).fset.get ch).toList, 0 ≤ q := by
  cases hr : s.run
  · rw [publish_stopped hr]
    simp only [latchIfBoundary_fcnt, latchIfBoundary_fset, withCState_fcnt, withCState_fset]
    exact ⟨h.fcnt_le, h.fset_nonneg⟩
  · rw [publish_running hr]
    simp only [latchIfBoundary_fcnt, latchIfBoundary_fset, withCState_fcnt, withCState_fset, deliverFrame,
      recordFrame_fcnt, recordFrame_fset, measure]
    refine ⟨measureChannel_fcnt (measureChannel_fcnt ?_ _ _ _) _ _ _, measureChannel_fset (measureChannel_fset ?_ _ _ _) _ _ _⟩
    · simpa only [viewportMap_fcnt, emitFrame_fcnt, withCState_fcnt] using h.fcnt_le
    · simpa only [viewportMap_fset, emitFrame_fset, withCState_fset] using h.fset_nonneg

theorem publish_sound {s : State} (h : Sound s) (frame : PerChannel Frame) : Sound (publish frame s) := by
  refine h.congr (outside_publish frame s) ?_ (by simpa using h.trig_lt) (publish_sets h frame).1 (publish_sets h frame).2
  rw [publish_act]
  split
  · exact latchedCfg_legal h
  · exact h.act_legal

theorem ne_zero_pos {w : Nat} {n : BitVec w} (h : n ≠ 0) : (0 : BitVec w) < n := by
  rw [BitVec.lt_def]
  have : n.toNat ≠ 0 := fun h0 => h (by apply BitVec.eq_of_toNat_eq; simpa using h0)
  simp; omega

/-- A publication that ends a capture cycle leaves a legal state, whatever the capture state was. -/
theorem publish_inv {s : State} (h : Sound s) (ha : s.avgcnt = 0) (hacc : ∀ ch, s.acc.get ch = Vector.replicate FL 0)
    (frame : PerChannel Frame) : Inv (publish frame s) := by
  refine (publish_sound h frame).inv ?_
  have hact : (publish frame s).act = latchedCfg s.pend s.vtab s.htab := by rw [publish_act, if_pos ha]
  have hb : atBoundary (publish frame s) = true := (atBoundary_iff _).2 ⟨publish_cstate _ _, (publish_avgcnt _ _).trans ha⟩
  constructor <;> simp only [publish_cstate, publish_avgcnt, publish_acc, ha, hb]
  · rfl
  · simp
  · simp
  · simp
  · simp
  · simp
  · rw [hact]; exact ne_zero_pos h.pend_legal.numavg
  · simp
  · exact fun _ => hacc
  · exact fun _ => hacc

/-! ## Normal mode -/

theorem toNat_pos_succ {p : BitVec 9} (h : p.toNat < FL) : (p + 1).toNat = p.toNat + 1 :=
  toNat_succ (by have : p.toNat < 319 := h; omega)

/-- The operations of a capture that write no register `Sound` speaks of but, at most, a legal trigger index. -/
theorem Sound.normalStarted {s : State} (h : Sound s) {T : Nat} (hT : T < s.par.cap) (forced : Bool) :
    Sound (normalStarted T forced s) :=
  h.congr (t := Machine.normalStarted T forced s) rfl h.act_legal hT h.fcnt_le h.fset_nonneg

theorem Sound.occurrenceStarted {s : State} (h : Sound s) {T : Nat} (hT : T < s.par.cap) (forced : Bool) :
    Sound (occurrenceStarted T forced s) :=
  h.congr (t := Machine.occurrenceStarted T forced s) rfl h.act_legal hT h.fcnt_le h.fset_nonneg

theorem Sound.codeSkipped {s : State} (h : Sound s) : Sound (codeSkipped s) :=
  h.congr (t := Machine.codeSkipped s) rfl h.act_legal h.trig_lt h.fcnt_le h.fset_nonneg

theorem Sound.pixelFilled {s : State} (h : Sound s) (i : Nat) : Sound (pixelFilled i s) :=
  h.congr (t := Machine.pixelFilled i s) rfl h.act_legal h.trig_lt h.fcnt_le h.fset_nonneg

theorem Sound.pixelAccumulated {s : State} (h : Sound s) (i : Nat) : Sound (pixelAccumulated i s) :=
  h.congr (t := Machine.pixelAccumulated i s) rfl h.act_legal h.trig_lt h.fcnt_le h.fset_nonneg

theorem Sound.occurrenceCounted {s : State} (h : Sound s) : Sound (occurrenceCounted s) :=
  h.congr (t := Machine.occurrenceCounted s) rfl h.act_legal h.trig_lt h.fcnt_le h.fset_nonneg

theorem Sound.cycleClosed {s : State} (h : Sound s) : Sound (cycleClosed s) :=
  h.congr (t := Machine.cycleClosed s) rfl h.act_legal h.trig_lt h.fcnt_le h.fset_nonneg

theorem Sound.withCState {s : State} (h : Sound s) (c : CState) : Sound (withCState c s) :=
  h.congr (t := Machine.withCState c s) rfl h.act_legal h.trig_lt h.fcnt_le h.fset_nonneg

theorem Sound.withMiss {s : State} (h : Sound s) (m : BitVec 16) : Sound (withMiss m s) :=
  h.congr (t := Machine.withMiss m s) rfl h.act_legal h.trig_lt h.fcnt_le h.fset_nonneg

/-- A pixel taken in Normal mode leaves a legal state: the frame completes and is published, or goes on. -/
theorem completeIfFull_inv {s : State} (h : Sound s) (hc : s.cstate = .filling) (hm : s.act.mode = .normal)
    (hacc : ∀ ch, s.acc.get ch = Vector.replicate FL 0) (ha : s.avgcnt = 0) (hlow : s.act.pos.toNat + 1 ≤ s.pix.toNat)
    (hhigh : s.pix.toNat ≤ FL) (hskip : s.skipcnt ≤ s.act.skip) : Inv (completeIfFull s) := by
  unfold completeIfFull frameCompleteNormal
  split
  · exact publish_inv h ha hacc _
  · rename_i hne
    refine h.inv ⟨?_, fun _ => hm, ?_, fun _ => hlow, fun _ => by omega, fun _ => hskip, ?_, fun _ => ha, fun _ => hacc,
      fun _ => hacc⟩
    · rw [hc]; rfl
    · rw [hc]; simp
    · rw [ha]; exact ne_zero_pos h.act_legal.numavg

theorem startCaptureNormal_inv {s : State} (h : Sound s) (hm : s.act.mode = .normal) (ha : s.avgcnt = 0)
    (hacc : ∀ ch, s.acc.get ch = Vector.replicate FL 0) {T : Nat} (hT : T < s.par.cap) (forced : Bool) :
    Inv (startCaptureNormal T forced s) := by
  have hpos := toNat_pos_succ h.act_legal.pos
  have hlt : s.act.pos.toNat < FL := h.act_legal.pos
  refine completeIfFull_inv (h.normalStarted hT forced) rfl hm hacc ha ?_ ?_ ?_
  · rw [normalStarted_act, normalStarted_pix, hpos]
  · rw [normalStarted_pix, hpos]; omega
  · simp

theorem codeSkipped_inv {s : State} (h : Inv s) (hne : s.cstate ≠ .idle) (hsk : s.skipcnt ≠ 0) : Inv (codeSkipped s) := by
  refine h.sound.codeSkipped.inv ⟨h.rest, h.filling_normal, h.accumulating_average, h.pix_low, h.pix_high, fun _ => ?_,
    h.avgcnt_lt, h.normal_avgcnt, h.boundary_acc, h.normal_acc⟩
  have h1 := h.skip_le (atBoundary_eq_false (.inl hne))
  simp only [BitVec.le_def, codeSkipped_skipcnt, codeSkipped_act, toNat_pred hsk] at *
  omega

theorem fillStep_inv {s : State} (h : Inv s) (hc : s.cstate = .filling) (i : Nat) : Inv (fillStep i s) := by
  have hne : s.cstate ≠ .idle := by simp [hc]
  have hpix := toNat_pos_succ (h.pix_high hne)
  have h1 := h.pix_low hne
  have h2 := h.pix_high hne
  unfold fillStep
  split
  · rename_i hsk; exact codeSkipped_inv h hne hsk
  · refine completeIfFull_inv (h.sound.pixelFilled i) hc (h.filling_normal hc) (h.normal_acc (h.filling_normal hc))
      (h.normal_avgcnt (h.filling_normal hc)) ?_ ?_ ?_
    · rw [pixelFilled_act, pixelFilled_pix, hpix]; omega
    · rw [pixelFilled_pix, hpix]; omega
    · simp

/-! ## Average mode -/

theorem occurrenceComplete_inv {s : State} (h : Sound s) (hm : s.act.mode = .average) (hlt : s.avgcnt < s.act.numavg)
    (hskip : s.skipcnt ≤ s.act.skip) :
    Inv (occurrenceComplete s) := by
  have hs : (s.avgcnt + 1).toNat = s.avgcnt.toNat + 1 := by
    have h1 : s.avgcnt.toNat < s.act.numavg.toNat := hlt
    have h2 := s.act.numavg.isLt
    exact toNat_succ (by omega)
  unfold occurrenceComplete
  split
  · rename_i hlt'
    have hmode : (withCState .idle (occurrenceCounted s)).act.mode = .average := hm
    refine (h.occurrenceCounted.withCState .idle).inv ⟨rfl, by simp, by simp, by simp, by simp, fun _ => hskip, hlt',
      fun hn => ?_, fun hb => ?_, fun hn => ?_⟩
    · rw [hmode] at hn; cases hn
    rotate_left
    · rw [hmode] at hn; cases hn
    have h0 : s.avgcnt + 1 = 0 := ((atBoundary_iff _).1 hb).2
    have hz : (s.avgcnt + 1).toNat = 0 := by rw [h0]; rfl
    omega
  · refine publish_inv h.occurrenceCounted.cycleClosed rfl (fun ch => ?_) _
    cases ch <;> rfl

/-- A pixel added in Average mode leaves a legal state: the occurrence completes, or goes on. -/
theorem occurrenceIfFull_inv {s : State} (h : Sound s) (hc : s.cstate = .accumulating) (hm : s.act.mode = .average)
    (hlt : s.avgcnt < s.act.numavg) (hlow : s.act.pos.toNat + 1 ≤ s.pix.toNat) (hhigh : s.pix.toNat ≤ FL)
    (hskip : s.skipcnt ≤ s.act.skip) : Inv (occurrenceIfFull s) := by
  unfold occurrenceIfFull
  split
  · exact occurrenceComplete_inv h hm hlt hskip
  · rename_i hne
    refine h.inv ⟨?_, ?_, fun _ => hm, fun _ => hlow, fun _ => by omega, fun _ => hskip, hlt, ?_, ?_, ?_⟩
    · rw [hc]; rfl
    · rw [hc]; simp
    · rw [hm]; simp
    · intro hb; rw [atBoundary_iff, hc] at hb; simp at hb
    · rw [hm]; simp

theorem startCaptureAverage_inv {s : State} (h : Sound s) (hm : s.act.mode = .average) (hlt : s.avgcnt < s.act.numavg)
    {T : Nat} (hT : T < s.par.cap) (forced : Bool) : Inv (startCaptureAverage T forced s) := by
  have hpos := toNat_pos_succ h.act_legal.pos
  have hp : s.act.pos.toNat < FL := h.act_legal.pos
  refine occurrenceIfFull_inv (h.occurrenceStarted hT forced) rfl hm hlt ?_ ?_ ?_
  · rw [occurrenceStarted_act, occurrenceStarted_pix, hpos]
  · rw [occurrenceStarted_pix, hpos]; omega
  · simp

theorem accumulateStep_inv {s : State} (h : Inv s) (hc : s.cstate = .accumulating) (i : Nat) : Inv (accumulateStep i s) := by
  have hne : s.cstate ≠ .idle := by simp [hc]
  have hpix := toNat_pos_succ (h.pix_high hne)
  have h1 := h.pix_low hne
  have h2 := h.pix_high hne
  unfold accumulateStep
  split
  · rename_i hsk; exact codeSkipped_inv h hne hsk
  · refine occurrenceIfFull_inv (h.sound.pixelAccumulated i) hc (h.accumulating_average hc) h.avgcnt_lt ?_ ?_ ?_
    · rw [pixelAccumulated_act, pixelAccumulated_pix, hpix]; omega
    · rw [pixelAccumulated_pix, hpix]; omega
    · simp

/-! ## One code and one pass -/

/-- A capture that starts from an armed detector leaves a legal state. -/
theorem startCapture_inv {s : State} (h : Inv s) {T : Nat} (hT : T < s.par.cap) (forced : Bool) :
    Inv (startCapture T forced s) := by
  unfold startCapture
  split
  · rename_i hm
    exact startCaptureNormal_inv h.sound hm (h.normal_avgcnt hm) (h.normal_acc hm) hT forced
  · rename_i hm
    exact startCaptureAverage_inv h.sound hm h.avgcnt_lt hT forced

/-- The invariant does not read MISS. -/
theorem withMiss_inv {s : State} (h : Inv s) (m : BitVec 16) : Inv (withMiss m s) :=
  (h.sound.withMiss m).inv
    ⟨h.rest, h.filling_normal, h.accumulating_average, h.pix_low, h.pix_high, h.skip_le, h.avgcnt_lt, h.normal_avgcnt,
      h.boundary_acc, h.normal_acc⟩

theorem codeStep_inv {p : State × Bool} (h : Inv p.1) {i : Nat} (hi : i < p.1.par.cap) : Inv (codeStep i p).1 := by
  unfold codeStep
  split
  · show Inv (triggerStep i p.1).1
    unfold triggerStep
    split
    · exact startCapture_inv (withMiss_inv h 0) hi false
    · exact h
  · rename_i hc; exact fillStep_inv h hc i
  · rename_i hc; exact accumulateStep_inv h hc i
  all_goals exact h

theorem codeSteps_inv {n b : Nat} {p : State × Bool} (h : Inv p.1) (hb : b + n ≤ p.1.par.cap) : Inv (codeSteps b n p).1 := by
  induction n generalizing b p with
  | zero => exact h
  | succ n ih => exact ih (b := b + 1) (codeStep_inv h (by omega)) (by simp; omega)

theorem missAccount_inv {s : State} (h : Inv s) (fired : Bool) : Inv (missAccount fired s) := by
  unfold missAccount
  split
  · exact withMiss_inv h _
  · exact h

theorem forceFire_inv {s : State} (h : Inv s) (fired : Bool) {last : Nat} (hl : last < s.par.cap) :
    Inv (forceFire fired last s) := by
  unfold forceFire
  split
  · exact startCapture_inv h hl true
  · exact h

/-- The block that starts at an aligned write pointer ends within the store (R63). -/
theorem block_fits {s : State} (h : Inv s) : s.wp + s.par.n ≤ s.par.cap := by
  have h1 := h.wp_lt
  have h2 := h.wp_aligned
  unfold Params.cap at *
  obtain ⟨q, hq⟩ := Nat.dvd_of_mod_eq_zero h2
  rw [hq] at h1 ⊢
  have hk : q < s.par.k := by
    by_contra hle
    have : s.par.k * s.par.n ≤ q * s.par.n := Nat.mul_le_mul_right _ (by omega)
    rw [Nat.mul_comm q] at this
    omega
  calc s.par.n * q + s.par.n = (q + 1) * s.par.n := by ring
    _ ≤ s.par.k * s.par.n := Nat.mul_le_mul_right _ hk

end Sys2Proof.Machine
end

