-- ==== Sys2Proof/Laws/PerInstr.lean ====
section
/-! SUPPORT. Statements made once for each command. `InItsRow`: the word of a command matches the row of the opcode map that
has the command's mnemonic (R86). -/

namespace Sys2Proof.Laws

/-- The bits of a word under the mask of a format R row, as a number. -/
theorem toNat_and_maskR (w : CmdWord) : (w &&& (0xFF000000 : CmdWord)).toNat = w.toNat / 2 ^ 24 * 2 ^ 24 := by
  have h : w &&& (0xFF000000 : CmdWord) = (w >>> 24) <<< 24 := by
    have hm : ∀ i : Fin 32, (0xFF000000 : CmdWord)[i.val] = decide (24 ≤ i.val) := by decide
    apply BitVec.eq_of_getElem_eq
    intro i hi
    rw [BitVec.getElem_and, hm ⟨i, hi⟩]
    by_cases h : 24 ≤ i
    · have h1 : 24 + (i - 24) = i := by omega
      simp [h, h1, BitVec.getLsbD_eq_getElem hi]
    · simp [h]
  have := w.isLt
  rw [h, BitVec.toNat_shiftLeft, BitVec.toNat_ushiftRight, Nat.shiftLeft_eq, Nat.shiftRight_eq_div_pow]
  omega

/-- The bits of a word under the mask of the format T row, as a number. -/
theorem toNat_and_maskT (w : CmdWord) : (w &&& (0xF0000000 : CmdWord)).toNat = w.toNat / 2 ^ 28 * 2 ^ 28 := by
  have h : w &&& (0xF0000000 : CmdWord) = (w >>> 28) <<< 28 := by
    have hm : ∀ i : Fin 32, (0xF0000000 : CmdWord)[i.val] = decide (28 ≤ i.val) := by decide
    apply BitVec.eq_of_getElem_eq
    intro i hi
    rw [BitVec.getElem_and, hm ⟨i, hi⟩]
    by_cases h : 28 ≤ i
    · have h1 : 28 + (i - 28) = i := by omega
      simp [h, h1, BitVec.getLsbD_eq_getElem hi]
    · simp [h]
  have := w.isLt
  rw [h, BitVec.toNat_shiftLeft, BitVec.toNat_ushiftRight, Nat.shiftLeft_eq, Nat.shiftRight_eq_div_pow]
  omega

/-- The masked bits of a format R word are its OP and SUB. -/
theorem formatR_and_mask (op sub : BitVec 4) (ch : BitVec 1) (idx : BitVec 7) (data : BitVec 16) :
    formatR op sub ch idx data &&& (0xFF000000 : CmdWord) = formatR op sub 0 0 0 := by
  have h1 := op.isLt; have h2 := sub.isLt; have h3 := ch.isLt; have h4 := idx.isLt; have h5 := data.isLt
  apply BitVec.eq_of_toNat_eq
  rw [toNat_and_maskR, toNat_formatR, toNat_formatR]
  show _ = op.toNat * 2 ^ 28 + sub.toNat * 2 ^ 24 + 0 * 2 ^ 23 + 0 * 2 ^ 16 + 0
  omega

/-- The masked bits of a format T word are its OP. -/
theorem formatT_and_mask (edge src : BitVec 1) (pos : BitVec 9) (level : Code) :
    formatT edge src pos level &&& (0xF0000000 : CmdWord) = (0x20000000 : CmdWord) := by
  have h1 := edge.isLt; have h2 := src.isLt; have h3 := pos.isLt; have h4 := level.isLt
  apply BitVec.eq_of_toNat_eq
  rw [toNat_and_maskT, toNat_formatT]
  show _ = 0x20000000
  omega
/-- The word of `i` matches a row that has its mnemonic. -/
def InItsRow.Statement (i : Instr) : Prop :=
  ∃ r ∈ opcodeMap, r.mnemonic = i.mnemonic ∧ r.accepts (encode i) = true

theorem InItsRow.nop : InItsRow.Statement .nop :=
  ⟨⟨"NOP", 0xFF000000, 0x00000000⟩, by decide, rfl, by
  simp only [OpcodeRow.accepts, encode, formatR_and_mask]; decide⟩

theorem InItsRow.calibrate : InItsRow.Statement .calibrate :=
  ⟨⟨"CALIBRATE", 0xFF000000, 0x01000000⟩, by decide, rfl, by
  simp only [OpcodeRow.accepts, encode, formatR_and_mask]; decide⟩

theorem InItsRow.setRun (run : Bool) : InItsRow.Statement (.setRun run) :=
  ⟨⟨"SET_RUN", 0xFF000000, 0x02000000⟩, by decide, rfl, by
  simp only [OpcodeRow.accepts, encode, formatR_and_mask]; decide⟩

theorem InItsRow.setMode (mode : Mode) : InItsRow.Statement (.setMode mode) :=
  ⟨⟨"SET_MODE", 0xFF000000, 0x03000000⟩, by decide, rfl, by
  simp only [OpcodeRow.accepts, encode, formatR_and_mask]; decide⟩

theorem InItsRow.clearStatus (mask : BitVec 3) : InItsRow.Statement (.clearStatus mask) :=
  ⟨⟨"CLEAR_STATUS", 0xFF000000, 0x04000000⟩, by decide, rfl, by
  simp only [OpcodeRow.accepts, encode, formatR_and_mask]; decide⟩

theorem InItsRow.setVscale (ch : Channel) (idx : BitVec 7) : InItsRow.Statement (.setVscale ch idx) :=
  ⟨⟨"SET_VSCALE", 0xFF000000, 0x10000000⟩, by decide, rfl, by
  simp only [OpcodeRow.accepts, encode, formatR_and_mask]; decide⟩

theorem InItsRow.setHscale (idx : BitVec 7) : InItsRow.Statement (.setHscale idx) :=
  ⟨⟨"SET_HSCALE", 0xFF000000, 0x11000000⟩, by decide, rfl, by
  simp only [OpcodeRow.accepts, encode, formatR_and_mask]; decide⟩

theorem InItsRow.setChen (ch : Channel) (en : Bool) : InItsRow.Statement (.setChen ch en) :=
  ⟨⟨"SET_CHEN", 0xFF000000, 0x12000000⟩, by decide, rfl, by
  simp only [OpcodeRow.accepts, encode, formatR_and_mask]; decide⟩

theorem InItsRow.setTrigger (level : Code) (pos : BitVec 9) (edge : Edge) (src : Channel) : InItsRow.Statement (.setTrigger level pos edge src) :=
  ⟨⟨"SET_TRIGGER", 0xF0000000, 0x20000000⟩, by decide, rfl, by
  simp only [OpcodeRow.accepts, encode, formatT_and_mask]; decide⟩

theorem InItsRow.loadVdiv (idx : BitVec 7) (data : BitVec 16) : InItsRow.Statement (.loadVdiv idx data) :=
  ⟨⟨"LOAD_VDIV", 0xFF000000, 0x30000000⟩, by decide, rfl, by
  simp only [OpcodeRow.accepts, encode, formatR_and_mask]; decide⟩

theorem InItsRow.loadVmvpp (idx : BitVec 7) (data : BitVec 16) : InItsRow.Statement (.loadVmvpp idx data) :=
  ⟨⟨"LOAD_VMVPP", 0xFF000000, 0x31000000⟩, by decide, rfl, by
  simp only [OpcodeRow.accepts, encode, formatR_and_mask]; decide⟩

theorem InItsRow.loadVmid (ch : Channel) (idx : BitVec 7) (data : BitVec 16) : InItsRow.Statement (.loadVmid ch idx data) :=
  ⟨⟨"LOAD_VMID", 0xFF000000, 0x32000000⟩, by decide, rfl, by
  simp only [OpcodeRow.accepts, encode, formatR_and_mask]; decide⟩

theorem InItsRow.loadHskip (idx : BitVec 7) (data : BitVec 16) : InItsRow.Statement (.loadHskip idx data) :=
  ⟨⟨"LOAD_HSKIP", 0xFF000000, 0x40000000⟩, by decide, rfl, by
  simp only [OpcodeRow.accepts, encode, formatR_and_mask]; decide⟩

theorem InItsRow.loadHsppn (idx : BitVec 7) (data : BitVec 16) : InItsRow.Statement (.loadHsppn idx data) :=
  ⟨⟨"LOAD_HSPPN", 0xFF000000, 0x41000000⟩, by decide, rfl, by
  simp only [OpcodeRow.accepts, encode, formatR_and_mask]; decide⟩

theorem InItsRow.loadHsppd (idx : BitVec 7) (data : BitVec 16) : InItsRow.Statement (.loadHsppd idx data) :=
  ⟨⟨"LOAD_HSPPD", 0xFF000000, 0x42000000⟩, by decide, rfl, by
  simp only [OpcodeRow.accepts, encode, formatR_and_mask]; decide⟩

theorem InItsRow.setYmin (data : BitVec 16) : InItsRow.Statement (.setYmin data) :=
  ⟨⟨"SET_YMIN", 0xFF000000, 0x50000000⟩, by decide, rfl, by
  simp only [OpcodeRow.accepts, encode, formatR_and_mask]; decide⟩

theorem InItsRow.setYmax (data : BitVec 16) : InItsRow.Statement (.setYmax data) :=
  ⟨⟨"SET_YMAX", 0xFF000000, 0x51000000⟩, by decide, rfl, by
  simp only [OpcodeRow.accepts, encode, formatR_and_mask]; decide⟩

theorem InItsRow.setNumavg (data : BitVec 16) : InItsRow.Statement (.setNumavg data) :=
  ⟨⟨"SET_NUMAVG", 0xFF000000, 0x60000000⟩, by decide, rfl, by
  simp only [OpcodeRow.accepts, encode, formatR_and_mask]; decide⟩

theorem InItsRow.setHalve (halve : Bool) : InItsRow.Statement (.setHalve halve) :=
  ⟨⟨"SET_HALVE", 0xFF000000, 0x61000000⟩, by decide, rfl, by
  simp only [OpcodeRow.accepts, encode, formatR_and_mask]; decide⟩

theorem InItsRow.setFrThresh (data : BitVec 16) : InItsRow.Statement (.setFrThresh data) :=
  ⟨⟨"SET_FR_THRESH", 0xFF000000, 0x70000000⟩, by decide, rfl, by
  simp only [OpcodeRow.accepts, encode, formatR_and_mask]; decide⟩

theorem InItsRow.setFrCap (data : BitVec 16) : InItsRow.Statement (.setFrCap data) :=
  ⟨⟨"SET_FR_CAP", 0xFF000000, 0x71000000⟩, by decide, rfl, by
  simp only [OpcodeRow.accepts, encode, formatR_and_mask]; decide⟩

theorem InItsRow.setFrEn (en : Bool) : InItsRow.Statement (.setFrEn en) :=
  ⟨⟨"SET_FR_EN", 0xFF000000, 0x72000000⟩, by decide, rfl, by
  simp only [OpcodeRow.accepts, encode, formatR_and_mask]; decide⟩

end Sys2Proof.Laws
end

