-- ==== Sys2Proof/Laws/Publish.lean ====
section
/-! SUPPORT. What the viewport mapper, the measurement engine and PUBLISH append to the output streams and leave in their own
registers, said once. -/

namespace Sys2Proof.Machine

/-! ## Viewport Mapper -/

/-- The DRAW records a frame gives on a channel: none when it is disabled. -/
def drawn (a : ActiveCfg) (ch : Channel) (f : Frame) : List SegRecord := if a.chen.get ch then drawTrace a ch f else []

theorem drawChannel_out (ch : Channel) (f : Frame) (s : State) :
    (drawChannel ch f s).out = s.out ++ (drawn s.act ch f).map .seg := by
  unfold drawChannel drawn; split <;> simp

theorem drawChannel_ryValid (ch : Channel) (f : Frame) (s : State) :
    (drawChannel ch f s).ryValid = s.ryValid.set ch (s.act.chen.get ch) := by
  unfold drawChannel; split <;> simp_all

theorem drawChannel_ry (ch : Channel) (f : Frame) (s : State) :
    (drawChannel ch f s).ry =
      if s.act.chen.get ch then s.ry.set ch (mapCols (clampY s.act) (traceY s.act ch f)) else s.ry := by
  unfold drawChannel; split <;> simp_all

/-- All that one channel of DRAW_PHASE writes (R196). -/
theorem drawChannel_eq (ch : Channel) (f : Frame) (s : State) :
    drawChannel ch f s = { s with
      out := s.out ++ (drawn s.act ch f).map .seg
      ry := if s.act.chen.get ch then s.ry.set ch (mapCols (clampY s.act) (traceY s.act ch f)) else s.ry
      ryValid := s.ryValid.set ch (s.act.chen.get ch) } := by
  rw [← drawChannel_out, ← drawChannel_ry ch f s, ← drawChannel_ryValid ch f s]
  unfold drawChannel; split <;> rfl

/-- A value written for each channel that is enabled, channel 0 first. -/
theorem PerChannel_set_enabled {α : Type} (en : PerChannel Bool) (p : PerChannel α) (a b : α) :
    (if en.get .ch2 then (if en.get .ch1 then p.set .ch1 a else p).set .ch2 b else if en.get .ch1 then p.set .ch1 a else p) =
      ⟨if en.get .ch1 then a else p.get .ch1, if en.get .ch2 then b else p.get .ch2⟩ := by
  obtain ⟨_ | _, _ | _⟩ := en <;> rfl

/-- A value written for channel 0, if it is enabled, leaves channel 1's. -/
theorem PerChannel_set_enabled_other {α : Type} (en : PerChannel Bool) (p : PerChannel α) (a : α) :
    (if en.get .ch1 then p.set .ch1 a else p).get .ch2 = p.get .ch2 := by split <;> rfl

/-- VIEWPORT_MAP appends every erase, then every draw (R195). -/
theorem viewportMap_out (frame : PerChannel Frame) (s : State) :
    (viewportMap frame s).out =
      s.out ++ (eraseTrace s .ch1 ++ eraseTrace s .ch2 ++ drawn s.act .ch1 frame.ch1 ++ drawn s.act .ch2 frame.ch2).map .seg := by
  simp [viewportMap, drawChannel_out, erasePhase]

/-- After VIEWPORT_MAP a channel has a trace on the display exactly when it is enabled (R196). -/
theorem viewportMap_ryValid (frame : PerChannel Frame) (s : State) (ch : Channel) :
    (viewportMap frame s).ryValid.get ch = s.act.chen.get ch := by
  cases ch <;> simp [viewportMap, drawChannel_ryValid, erasePhase, PerChannel.set]

/-- After VIEWPORT_MAP the persisted coordinates of an enabled channel are the clamped ones of its frame (R196). -/
theorem viewportMap_ry (frame : PerChannel Frame) (s : State) (ch : Channel) (h : s.act.chen.get ch = true) :
    (viewportMap frame s).ry.get ch = mapCols (clampY s.act) (traceY s.act ch (frame.get ch)) := by
  cases ch <;> simp only [PerChannel.get_ch1, PerChannel.get_ch2] at h ⊢ <;>
    simp [viewportMap, drawChannel_ry, erasePhase, h, PerChannel.set]
  split <;> rfl

/-- All that VIEWPORT_MAP writes (R195). -/
theorem viewportMap_eq (frame : PerChannel Frame) (s : State) :
    viewportMap frame s = { s with
      out := s.out ++
        (eraseTrace s .ch1 ++ eraseTrace s .ch2 ++ drawn s.act .ch1 frame.ch1 ++ drawn s.act .ch2 frame.ch2).map .seg
      ry := .tabulate fun ch =>
        if s.act.chen.get ch then mapCols (clampY s.act) (traceY s.act ch (frame.get ch)) else s.ry.get ch
      ryValid := s.act.chen } := by
  rw [← viewportMap_out]
  simp only [viewportMap, drawChannel_eq, erasePhase, PerChannel_set_enabled]
  rfl

/-! ## Measurement Engine -/

/-- The MEAS_OUT records a frame gives on a channel: none when it is disabled. -/
def measured (s : State) (ch : Channel) (f : Frame) (seq : BitVec 32) : List MeasRecord :=
  if s.act.chen.get ch then
    [measRecord s.act ch f seq (freqSetUpdate (s.fset.get ch) (s.fcnt.get ch) (freqEstimate s.act f))]
  else []

theorem measureChannel_out (ch : Channel) (f : Frame) (seq : BitVec 32) (s : State) :
    (measureChannel ch f seq s).out = s.out ++ (measured s ch f seq).map .meas := by
  unfold measureChannel measured; split <;> simp

/-- All that MEASURE writes of one channel (R220). -/
theorem measureChannel_eq (ch : Channel) (f : Frame) (seq : BitVec 32) (s : State) :
    measureChannel ch f seq s = { s with
      out := s.out ++ (measured s ch f seq).map .meas
      fset := if s.act.chen.get ch then
        s.fset.set ch (freqSetUpdate (s.fset.get ch) (s.fcnt.get ch) (freqEstimate s.act f)).set else s.fset
      fcnt := if s.act.chen.get ch then
        s.fcnt.set ch (freqSetUpdate (s.fset.get ch) (s.fcnt.get ch) (freqEstimate s.act f)).cnt else s.fcnt } := by
  unfold measureChannel measured; split <;> simp

/-- MEASURE appends a record for each enabled channel, channel 0 first (R220). -/
theorem measure_out (frame : PerChannel Frame) (seq : BitVec 32) (s : State) :
    (measure frame seq s).out =
      s.out ++ (measured s .ch1 frame.ch1 seq ++ measured s .ch2 frame.ch2 seq).map .meas := by
  have h : measured (measureChannel .ch1 frame.ch1 seq s) .ch2 frame.ch2 seq = measured s .ch2 frame.ch2 seq := by
    unfold measured measureChannel
    split <;> rfl
  simp [measure, measureChannel_out, h]

/-- All that MEASURE writes (R220). -/
theorem measure_eq (frame : PerChannel Frame) (seq : BitVec 32) (s : State) :
    measure frame seq s =
      let upd : Channel → FreqUpdate := fun ch =>
        freqSetUpdate (s.fset.get ch) (s.fcnt.get ch) (freqEstimate s.act (frame.get ch))
      { s with
        out := s.out ++ (measured s .ch1 frame.ch1 seq ++ measured s .ch2 frame.ch2 seq).map .meas
        fset := .tabulate fun ch => if s.act.chen.get ch then (upd ch).set else s.fset.get ch
        fcnt := .tabulate fun ch => if s.act.chen.get ch then (upd ch).cnt else s.fcnt.get ch } := by
  rw [← measure_out]
  simp only [measure, measureChannel_eq, PerChannel_set_enabled_other, PerChannel_set_enabled]
  rfl

/-! ## PUBLISH -/

/-- The records one publication appends while `RUN = 1`, in order (R157). -/
def publishedRecords (s : State) (frame : PerChannel Frame) : List OutRecord :=
  .frame (frameRecord s frame) ::
    ((eraseTrace s .ch1 ++ eraseTrace s .ch2 ++ drawn s.act .ch1 frame.ch1 ++ drawn s.act .ch2 frame.ch2).map .seg ++
      (measured s .ch1 frame.ch1 s.frameseq ++ measured s .ch2 frame.ch2 s.frameseq).map .meas)

theorem measured_congr {s t : State} (ha : t.act = s.act) (h1 : t.fset = s.fset) (h2 : t.fcnt = s.fcnt) (ch : Channel)
    (f : Frame) (seq : BitVec 32) : measured t ch f seq = measured s ch f seq := by
  simp [measured, ha, h1, h2]

theorem deliverFrame_out (frame : PerChannel Frame) (s : State) :
    (deliverFrame frame s).out = s.out ++ publishedRecords s frame := by
  have hm : ∀ ch f seq, measured (viewportMap frame (emitFrame frame s)) ch f seq = measured s ch f seq := fun ch f seq =>
    measured_congr (by simp) (by simp) (by simp) ch f seq
  have he : ∀ ch, eraseTrace (emitFrame frame s) ch = eraseTrace s ch := fun _ => rfl
  have ho : (emitFrame frame s).out = s.out ++ [.frame (frameRecord s frame)] := rfl
  have hr : ∀ u : State, (recordFrame frame u).out = u.out := fun _ => rfl
  simp only [deliverFrame, hr, measure_out, hm, viewportMap_out, he, ho, emitFrame_act, publishedRecords]
  simp

/-- What a publication appends: its records while running, nothing while stopped. -/
theorem publish_out (frame : PerChannel Frame) (s : State) :
    (publish frame s).out = if s.run then s.out ++ publishedRecords s frame else s.out := by
  cases h : s.run
  · simp [publish_stopped h]
  · simp only [publish_running h, latchIfBoundary_out, withCState_out, deliverFrame_out, if_true]
    rfl

theorem publish_frameseq (frame : PerChannel Frame) (s : State) :
    (publish frame s).frameseq = if s.run then s.frameseq + 1 else s.frameseq := by
  cases h : s.run
  · simp [publish_stopped h]
  · simp [publish_running h, deliverFrame]

/-! ## What the steps of a pass keep -/

/-- `t` is `s` but for the capture registers and MISS: what a code step writes beside a publication. SKIPCNT counts down or is
reloaded from A_SKIP. -/
def OnlyCaptureWrites (s t : State) : Prop :=
  t = { s with
    cstate := t.cstate, trigIdx := t.trigIdx, forced := t.forced, pix := t.pix, skipcnt := t.skipcnt
    framebuf := t.framebuf, acc := t.acc, avgcnt := t.avgcnt, miss := t.miss } ∧
  (t.skipcnt ≤ s.skipcnt ∨ t.skipcnt = s.act.skip)

/-- A write of capture registers that leaves SKIPCNT as it is. -/
theorem onlyCaptureWrites_of_same {s t : State} (h : t = { s with
    cstate := t.cstate, trigIdx := t.trigIdx, forced := t.forced, pix := t.pix, skipcnt := t.skipcnt
    framebuf := t.framebuf, acc := t.acc, avgcnt := t.avgcnt, miss := t.miss }) (hs : t.skipcnt = s.skipcnt) :
    OnlyCaptureWrites s t := ⟨h, .inl (by rw [hs]; exact BitVec.le_refl _)⟩

/-- A skipped code counts SKIPCNT down. -/
theorem onlyCaptureWrites_codeSkipped {s : State} (h : s.skipcnt ≠ 0) : OnlyCaptureWrites s (codeSkipped s) := by
  refine ⟨rfl, .inl ?_⟩
  rw [BitVec.le_def, codeSkipped_skipcnt, toNat_pred h]
  omega

section
variable {P : State → Prop} (hpub : ∀ s frame, P s → P (publish frame s))
include hpub

theorem completeIfFull_keeps {s : State} (h : P s) : P (completeIfFull s) := by
  unfold completeIfFull frameCompleteNormal; split
  · exact hpub _ _ h
  · exact h

variable (hcap : ∀ s t, OnlyCaptureWrites s t → P s → P t)
include hcap

theorem occurrenceIfFull_keeps {s : State} (h : P s) : P (occurrenceIfFull s) := by
  unfold occurrenceIfFull occurrenceComplete average; split
  · split
    · exact hcap s (withCState .idle (occurrenceCounted s)) (onlyCaptureWrites_of_same rfl rfl) h
    · exact hpub _ _ (hcap s (cycleClosed (occurrenceCounted s)) (onlyCaptureWrites_of_same rfl rfl) h)
  · exact h

/-- A property that capture registers do not touch and publications keep is kept by the start of a capture. -/
theorem startCapture_keeps {s : State} (h : P s) (T : Nat) (forced : Bool) : P (startCapture T forced s) := by
  unfold startCapture startCaptureNormal startCaptureAverage; split
  · exact completeIfFull_keeps hpub (hcap s (normalStarted T forced s) ⟨rfl, .inr rfl⟩ h)
  · exact occurrenceIfFull_keeps hpub hcap (hcap s (occurrenceStarted T forced s) ⟨rfl, .inr rfl⟩ h)

/-- … by one code step. -/
theorem codeStep_keeps {p : State × Bool} (h : P p.1) (i : Nat) : P (codeStep i p).1 := by
  unfold codeStep
  split
  · show P (triggerStep i p.1).1
    unfold triggerStep fire
    split
    · exact startCapture_keeps hpub hcap (hcap p.1 (withMiss 0 p.1) (onlyCaptureWrites_of_same rfl rfl) h) i false
    · exact h
  · unfold fillStep; split
    · rename_i hsk; exact hcap p.1 (codeSkipped p.1) (onlyCaptureWrites_codeSkipped hsk) h
    · exact completeIfFull_keeps hpub (hcap p.1 (pixelFilled i p.1) ⟨rfl, .inr rfl⟩ h)
  · unfold accumulateStep; split
    · rename_i hsk; exact hcap p.1 (codeSkipped p.1) (onlyCaptureWrites_codeSkipped hsk) h
    · exact occurrenceIfFull_keeps hpub hcap (hcap p.1 (pixelAccumulated i p.1) ⟨rfl, .inr rfl⟩ h)
  all_goals exact h

/-- … by the code steps of a block. -/
theorem codeSteps_keeps {p : State × Bool} (h : P p.1) (b n : Nat) : P (codeSteps b n p).1 := by
  induction n generalizing b p with
  | zero => exact h
  | succ n ih => exact ih (codeStep_keeps hpub hcap h b) (b + 1)

/-- … by a whole pass, when the latch and the append keep it too. -/
theorem processPass_keeps (hlatch : ∀ s, P s → P (latchIfBoundary s)) (happ : ∀ s words, P s → P (decodeBlock words s))
    {s : State} (h : P s) (words : List RawWord) : P (processPass words s) := by
  have h1 : P (passScanned words s).1 := codeSteps_keeps hpub hcap (happ _ words (hlatch _ h)) _ _
  have h2 : ∀ u fired, P u → P (missAccount fired u) := fun u fired hu => by
    unfold missAccount; split
    · exact hcap u (withMiss _ u) (onlyCaptureWrites_of_same rfl rfl) hu
    · exact hu
  have h3 : ∀ u fired last, P u → P (forceFire fired last u) := fun u fired last hu => by
    unfold forceFire; split
    · exact startCapture_keeps hpub hcap hu last true
    · exact hu
  exact h3 _ _ _ (h2 _ _ h1)

/-- … by a POLL, when clearing a mailbox flag keeps it too. -/
theorem poll_keeps (hlatch : ∀ s, P s → P (latchIfBoundary s)) (happ : ∀ s words, P s → P (decodeBlock words s))
    (hmbox : ∀ s k, P s → P (consumed k s)) {s : State} (h : P s) : P (poll s) := by
  have step : ∀ k u, P u → P (pollSlot k u) := fun k u hu => by
    unfold pollSlot; split
    · exact hmbox _ _ (processPass_keeps hpub hcap hlatch happ hu _)
    · exact hu
  exact step _ _ (step _ _ h)

end

end Sys2Proof.Machine
end

