-- ==== Sys2Proof/Tests/Slice0.lean ====
section
/-! SUPPORT. Small tests and the witnesses of the statements' hypotheses. Expected values come from the spec: a test names the
vector of 95_test_vectors.md or the rule it is taken from. -/

namespace Sys2Proof.Tests

open Sys2Proof Sys2Proof.Machine

/-! ## Helpers -/

/-- The next state of an outcome, looked at by `p`. -/
def nextHas (p : State → Bool) : Host.Outcome State Fault Refusal → Bool
  | .next t => p t
  | .fault _ => false
  | .refused _ => false

/-- Small parameters: N = 2, K = 2, the tables and the band of the spec's common configuration, NumAvg 2. -/
def tinyParams : Params := { Params.common with n := 2, k := 2, numAvgInit := 2 }

/-- The machine of the small parameters after reset. -/
def tiny : State := State.resetWith tinyParams

/-- The small machine in Average mode with `c` occurrences summed, between occurrences. -/
def tinyAverage (c : BitVec 16) : State := { tiny with act := { tiny.act with mode := .average }, avgcnt := c }

/-- The small machine filling a frame whose next pixel is `pix`. -/
def tinyFilling (pix : BitVec 9) : State := { tiny with cstate := .filling, pix := pix }

/-- A frame that starts with the codes of `l` and goes on with `c`. -/
def frameOf (l : List Code) (c : Code) : Frame := Vector.ofFn fun k : Fin FL => l[k.val]?.getD c

/-- The square wave of V-ME-1. -/
def squareFrame : Frame := Vector.ofFn fun k : Fin FL => if k.val % 100 < 50 then 3000 else 1000

/-- A machine with a published frame: channel 1 enabled in it, all its codes 2400 (V-CM-33). -/
def published : State :=
  { State.reset with lfValid := true, lfChen := ⟨true, false⟩, lfData := ⟨Vector.replicate FL 2400, Vector.replicate FL 0⟩ }

/-! ## Well-formed lines: one ill-formed line for each check (R93) -/

theorem test_refuses_run_2 : (Line.setRun 2).wellFormed = false := by decide
theorem test_refuses_mask_8 : (Line.clearStatus 8).wellFormed = false := by decide
theorem test_refuses_vscale_idx_128 : (Line.setVscale .ch1 128).wellFormed = false := by decide
theorem test_refuses_hscale_idx_negative : (Line.setHscale (-1)).wellFormed = false := by decide
theorem test_refuses_chen_negative : (Line.setChen .ch2 (-1)).wellFormed = false := by decide
theorem test_refuses_level_4096 : (Line.setTrigger 4096 0 .rising .ch1).wellFormed = false := by decide
theorem test_refuses_pos_512 : (Line.setTrigger 0 512 .rising .ch1).wellFormed = false := by decide
theorem test_refuses_vdiv_idx_128 : (Line.loadVdiv 128 1).wellFormed = false := by decide
theorem test_refuses_vdiv_65536 : (Line.loadVdiv 0 65536).wellFormed = false := by decide
theorem test_refuses_vmvpp_65536 : (Line.loadVmvpp 0 65536).wellFormed = false := by decide
theorem test_refuses_vmid_idx_128 : (Line.loadVmid .ch1 128 0).wellFormed = false := by decide
theorem test_refuses_vmid_32768 : (Line.loadVmid .ch1 0 32768).wellFormed = false := by decide
theorem test_refuses_hskip_65536 : (Line.loadHskip 0 65536).wellFormed = false := by decide
theorem test_refuses_hsppn_idx_128 : (Line.loadHsppn 128 1).wellFormed = false := by decide
theorem test_refuses_hsppd_negative : (Line.loadHsppd 0 (-1)).wellFormed = false := by decide
theorem test_refuses_ymin_below : (Line.setYmin (-32769)).wellFormed = false := by decide
theorem test_refuses_ymax_above : (Line.setYmax 32768).wellFormed = false := by decide
theorem test_refuses_numavg_65536 : (Line.setNumavg 65536).wellFormed = false := by decide
theorem test_refuses_halve_2 : (Line.setHalve 2).wellFormed = false := by decide
theorem test_refuses_fr_thresh_65536 : (Line.setFrThresh 65536).wellFormed = false := by decide
theorem test_refuses_fr_cap_65536 : (Line.setFrCap 65536).wellFormed = false := by decide
theorem test_refuses_fr_en_2 : (Line.setFrEn 2).wellFormed = false := by decide
theorem test_refused_line_has_no_word : assemble (.setRun 2) = none := by decide

/-! ## Decoding: a word of every row, written out from R84-R86 (words of V-CM, section 2.9) -/

theorem test_decode_nop : decode 0x00000000 = .ok .nop := by decide
theorem test_decode_calibrate : decode 0x01000000 = .ok .calibrate := by decide
theorem test_decode_set_run : decode 0x02FFFFFF = .ok (.setRun true) := by decide
theorem test_decode_set_mode : decode 0x03000001 = .ok (.setMode .average) := by decide
theorem test_decode_clear_status : decode 0x04000006 = .ok (.clearStatus 0b110) := by decide
theorem test_decode_set_vscale : decode 0x10850000 = .ok (.setVscale .ch2 5) := by decide
theorem test_decode_set_hscale : decode 0x11010000 = .ok (.setHscale 1) := by decide
theorem test_decode_set_chen : decode 0x12800000 = .ok (.setChen .ch2 false) := by decide
theorem test_decode_set_trigger : decode 0x2D3E03E8 = .ok (.setTrigger 1000 318 .falling .ch2) := by decide
theorem test_decode_load_vdiv : decode 0x30020010 = .ok (.loadVdiv 2 16) := by decide
theorem test_decode_load_vmvpp : decode 0x31000028 = .ok (.loadVmvpp 0 40) := by decide
theorem test_decode_load_vmid : decode 0x3201FFFB = .ok (.loadVmid .ch1 1 (BitVec.ofInt 16 (-5))) := by decide
theorem test_decode_load_hskip : decode 0x40010003 = .ok (.loadHskip 1 3) := by decide
theorem test_decode_load_hsppn : decode 0x41000001 = .ok (.loadHsppn 0 1) := by decide
theorem test_decode_load_hsppd : decode 0x420003E8 = .ok (.loadHsppd 0 1000) := by decide
theorem test_decode_set_ymin : decode 0x5000FFF6 = .ok (.setYmin (BitVec.ofInt 16 (-10))) := by decide
theorem test_decode_set_ymax : decode 0x510000EF = .ok (.setYmax 239) := by decide
theorem test_decode_set_numavg : decode 0x60000002 = .ok (.setNumavg 2) := by decide
theorem test_decode_set_halve : decode 0x61000001 = .ok (.setHalve true) := by decide
theorem test_decode_set_fr_thresh : decode 0x7000000A = .ok (.setFrThresh 10) := by decide
theorem test_decode_set_fr_cap : decode 0x71000014 = .ok (.setFrCap 20) := by decide
theorem test_decode_set_fr_en : decode 0x72000000 = .ok (.setFrEn false) := by decide
theorem test_decode_reserved_op : decode 0x80000000 = .error (.reservedOp 8) := by decide
theorem test_decode_reserved_sub : decode 0x05000000 = .error (.reservedSub 0 5) := by decide
theorem test_table_word : decodeTableWord 32 0x320800F7 = some (.loadVmid .ch1 8 247) := by decide

/-! ## Commands (V-CM-1 to V-CM-33) -/

theorem test_nop : nextHas (fun t => t.run && !t.cmderr && t.pend == State.reset.pend) (command 0x00000000 State.reset) = true := by decide
theorem test_calibrate_before_a_frame :
    nextHas (fun t => t.vtab == Params.common.vtabInit) (command 0x01000000 State.reset) = true := by decide
theorem test_calibrate :
    nextHas (fun t => (t.vtab.map fun r => (r.mid.ch1.toNat, r.mid.ch2.toNat)) == [(269, 247), (247, 247)])
      (command 0x01000000 published) = true := by decide +kernel
theorem test_set_run : nextHas (fun t => !t.run) (command 0x02000000 State.reset) = true := by decide
theorem test_set_mode : nextHas (fun t => t.pend.mode == .average && t.act.mode == .normal) (command 0x03000001 State.reset) = true := by decide
theorem test_clear_status :
    nextHas (fun t => !t.cfgerr && t.cmderr) (command 0x04000002 { State.reset with cfgerr := true, cmderr := true }) = true := by decide
theorem test_set_vscale : nextHas (fun t => t.pend.vscale == ⟨0, 1⟩ && !t.cfgerr) (command 0x10850000 State.reset) = true := by decide
theorem test_set_hscale : nextHas (fun t => t.pend.hscale == 1) (command 0x11010000 State.reset) = true := by decide
theorem test_set_chen : nextHas (fun t => t.pend.chen == ⟨true, false⟩) (command 0x12800000 State.reset) = true := by decide
theorem test_set_trigger :
    nextHas (fun t => t.pend.level == 1000 && t.pend.pos == 318 && t.pend.edge == .falling && t.pend.src == .ch2)
      (command 0x2D3E03E8 State.reset) = true := by decide
theorem test_set_trigger_clamps : nextHas (fun t => t.pend.pos == 318 && !t.cfgerr) (command 0x21F40800 State.reset) = true := by decide
theorem test_load_vdiv : nextHas (fun t => (t.vtab.map (·.div)) == [16, 5]) (command 0x30010005 State.reset) = true := by decide
theorem test_load_vdiv_zero : nextHas (fun t => t.cfgerr && t.vtab == Params.common.vtabInit) (command 0x30000000 State.reset) = true := by decide
theorem test_load_vmvpp : nextHas (fun t => (t.vtab.map (·.mvpp)) == [7, 20]) (command 0x31000007 State.reset) = true := by decide
theorem test_load_vmvpp_no_row : nextHas (fun t => t.cfgerr && t.vtab == Params.common.vtabInit) (command 0x31020028 State.reset) = true := by decide
theorem test_load_vmid :
    nextHas (fun t => (t.vtab.map fun r => r.mid.ch1.toInt) == [247, -5] && (t.vtab.map fun r => r.mid.ch2.toInt) == [247, 247])
      (command 0x3201FFFB State.reset) = true := by decide
theorem test_load_hskip : nextHas (fun t => (t.htab.map (·.skip)) == [0, 3]) (command 0x40010003 State.reset) = true := by decide
theorem test_load_hsppn : nextHas (fun t => (t.htab.map (·.sppn)) == [9, 1]) (command 0x41000009 State.reset) = true := by decide
theorem test_load_hsppn_zero : nextHas (fun t => t.cfgerr && t.htab == Params.common.htabInit) (command 0x41000000 State.reset) = true := by decide
theorem test_load_hsppd : nextHas (fun t => (t.htab.map (·.sppd)) == [1000, 6]) (command 0x42010006 State.reset) = true := by decide
theorem test_set_ymin : nextHas (fun t => t.pend.yMin.toInt == -10) (command 0x5000FFF6 State.reset) = true := by decide
theorem test_set_ymax : nextHas (fun t => t.pend.yMax == 7) (command 0x51000007 State.reset) = true := by decide
theorem test_set_numavg : nextHas (fun t => t.pend.numavg == 2) (command 0x60000002 State.reset) = true := by decide
theorem test_set_numavg_zero : nextHas (fun t => t.pend.numavg == 4 && t.cfgerr) (command 0x60000000 State.reset) = true := by decide
theorem test_set_halve : nextHas (fun t => t.pend.halve) (command 0x61000001 State.reset) = true := by decide
theorem test_set_fr_thresh : nextHas (fun t => t.pend.frThresh == 11) (command 0x7000000B State.reset) = true := by decide
theorem test_set_fr_cap : nextHas (fun t => t.pend.frCap == 21) (command 0x71000015 State.reset) = true := by decide
theorem test_set_fr_en : nextHas (fun t => !t.pend.frEn && t.act.frEn) (command 0x72000000 State.reset) = true := by decide
theorem test_reserved : nextHas (fun t => t.cmderr && !t.cfgerr && !t.ovr) (command 0x80000000 State.reset) = true := by decide

/-! ## Reset values on the read port (section 0) -/

theorem test_read_reset :
    ((List.range 23).map fun a => readPort State.reset (BitVec.ofNat 8 a)) =
      [0x00000010, 0, 0, 0, 0, 0, 0x00000800, 0x00000800, 0x03000000, 0x03000000, 0x00000004, 0x00000004, 0x0014000A,
       0x0014000A, 0x00000003, 0x00EF0000, 0x00EF0000, 0x00280010, 0x00280010, 0x00F700F7, 0, 0x03E80001, 0] := by decide +kernel
theorem test_read_unlisted : readPort State.reset 0x40 = 0 := by decide

/-! ## Decoder and store (V-DE-1 to V-DE-6, V-ST-1 to V-ST-5, section 1.2) -/

theorem test_decode_fields :
    ([0x123, 0xEDD, 0x800, 0xFFF, 0x000, 0x7FF] : List (BitVec 12)).map decodeField = [2339, 1757, 0, 2047, 2048, 4095] := by decide
theorem test_decode_word_split : decodeWord 0x00FFF800 = ⟨0, 2047⟩ := by decide
theorem test_decode_word_ignores_top : decodeWord 0x12345678 = ⟨3704, 2885⟩ := by decide
theorem test_append :
    (decodeBlock [0x00000000, 0x000007FF] { tiny with wp := 2 }).store = ⟨[(2, 2048), (3, 4095)], [(2, 2048), (3, 2048)]⟩ := by decide
theorem test_append_wraps : (decodeBlock [0x00000000, 0x000007FF] { tiny with wp := 2 }).wp = 0 := by decide
theorem test_physical_slots : ([-1, 800, -800, 1650, -50] : List Int).map (physicalSlot 800) = [799, 0, 0, 50, 750] := by decide

/-! ## Trigger (section 2.3) -/

theorem test_compare_rising :
    (([(2047, 2048), (2048, 2049), (2048, 2048), (2049, 2050), (2049, 2048), (2048, 2047), (2050, 2040), (2040, 2050)]
      : List (Code × Code)).map fun p => triggerCompare p.1 p.2 2048 .rising) =
      [true, true, true, false, false, false, false, true] := by decide
theorem test_compare_falling :
    (([(2047, 2048), (2048, 2049), (2048, 2048), (2049, 2050), (2049, 2048), (2048, 2047), (2050, 2040), (2040, 2050)]
      : List (Code × Code)).map fun p => triggerCompare p.1 p.2 2048 .falling) =
      [false, false, true, false, true, true, true, false] := by decide
theorem test_miss_saturates : (missAccount false { State.reset with miss := 20 }).miss = 20 := by decide
theorem test_miss_filling : (missAccount false { tinyFilling 1 with miss := 5 }).miss = 5 := by decide
theorem test_no_force_when_disabled :
    (forceFire false 1 { tiny with miss := 10, act := { tiny.act with frEn := false } }).cstate = .idle := by decide +kernel
theorem test_force_at_threshold : (forceFire false 1 { tiny with miss := 10 }).forced = true := by decide +kernel
theorem test_fires_at_the_first_code :
    (codeStep 0 (decodeBlock [0x000003B8, 0x000003B8] tiny, false)).2 = true := by decide +kernel

/-! ## Capture (V-CN-1 to V-CN-3, V-CN-7, V-CA-1, V-CA-2, V-CA-4) -/

theorem test_backfill_index_skip_0 :
    ([0, 49].map fun k => backfillIndex { tiny.act with pos := 50 } 1000 k) = [950, 999] := by decide
theorem test_backfill_index_skip_1 :
    ([0, 25, 49].map fun k => backfillIndex { tiny.act with pos := 50, skip := 1 } 1000 k) = [950, 1000, 1048] := by decide
theorem test_backfill_index_skip_2 :
    ([0, 1, 2].map fun k => backfillIndex { tiny.act with pos := 3, skip := 2 } 10 k) = [7, 10, 13] := by decide
theorem test_fill_skips : (fillStep 7 { tinyFilling 1 with skipcnt := 2 }).skipcnt = 1 := by decide
/-- R153 by hand: `SKIPCNT <- A_SKIP` = 1 with the last pixel, then R154, R157 and R247: the latch reads `A_SKIP <- HSKIP[0]`
= 0 and writes `A_*` only, so the two rules leave SKIPCNT above A_SKIP (log entry 9). -/
theorem test_publication_latches_a_lower_skip :
    let t := fillStep 3 { tinyFilling 318 with run := false, act := { tiny.act with hscale := 1, skip := 1 } }
    (t.skipcnt, t.act.skip, t.cstate) = ((1 : BitVec 16), (0 : BitVec 16), CState.idle) := by decide +kernel
theorem test_fill_takes :
    let t := fillStep 3 { tinyFilling 9 with store := ⟨[(3, 77)], [(3, 78)]⟩, act := { tiny.act with skip := 2 } }
    (t.framebuf.ch1[9], t.framebuf.ch2[9], t.pix, t.skipcnt) = ((77 : Code), (78 : Code), (10 : BitVec 9), (2 : BitVec 16)) := by
  decide +kernel
theorem test_halved_backfill : backfillAccumulate true (backfillAccumulate true 0 1000) 1000 = 750 := by decide
theorem test_average_entry : averageEntry 2 6001 = 3000 := by decide

/-! ## Viewport (V-VP-1 to V-VP-6, V-VP-9) -/

theorem test_map_y : (([2048, 4095, 0, 1000, 3000] : List Code).map (mapY State.reset.act .ch1)) = [119, -8, 247, 185, 60] := by decide
theorem test_empty_band_clamps_below : clampY { State.reset.act with yMin := 10, yMax := 5 } 7 = 10 := by decide
theorem test_nine_outcomes :
    ((drawTrace State.reset.act .ch1 (frameOf [2048, 2048, 4095, 4095, 0, 0, 2048, 0, 4095, 2048] 2048)).take 9).map
      (fun r => (r.col, r.y0.toNat, r.y1.toNat, r.outcome.toNat)) =
      [(1, 119, 119, 0), (2, 119, 0, 1), (3, 0, 0, 4), (4, 0, 239, 5), (5, 239, 239, 8), (6, 239, 119, 6), (7, 119, 239, 2),
       (8, 239, 0, 7), (9, 0, 119, 3)] := by decide +kernel

/-! ## Measurement (V-ME-1 to V-ME-6, V-ME-9, V-ME-11) -/

theorem test_crossings : crossings .rising squareFrame = [100, 200, 300] := by decide +kernel
theorem test_crossings_falling : crossings .falling squareFrame = [] := by decide +kernel
theorem test_estimate : freqEstimate State.reset.act squareFrame = some 10 := by decide +kernel
theorem test_outliers :
    ([[100, 100, 10], [1, 100], [50, 150], [49, 151]].map outlierReject) = [[100, 100], [], [50, 150], []] := by decide
theorem test_set_mean :
    (freqSetUpdate (Vector.ofFn fun k : Fin 10 => if k.val = 2 then 0 else if k.val = 9 then 0 else 10) 9 (some 12)).freq =
      92 / 9 := by decide +kernel
theorem test_amplitude :
    let r := measRecord State.reset.act .ch1 (Vector.ofFn fun k : Fin FL => BitVec.ofNat 12 (1998 + k.val)) 0 ⟨Vector.replicate 10 0, 0, false, 0⟩
    (r.min, r.max, r.p2p, r.minMv, r.maxMv, r.p2pMv) = (1998, 2316, 318, (-125 : ℚ), (670 : ℚ), (795 : ℚ)) := by decide +kernel

/-! ## Consumer and producer (V-CL-2, V-CL-3) -/

theorem test_overrun :
    nextHas (fun t => t.ovr && t.mbox.ping.flag && !t.mbox.pong.flag)
      (deliverStep .ping [1, 2] { tiny with mbox := ⟨⟨[0, 0], true⟩, ⟨[0, 0], false⟩⟩ }) = true := by decide
theorem test_poll_order :
    (poll { tiny with mbox := ⟨⟨[0, 0], true⟩, ⟨[0x7FF, 0x7FF], true⟩⟩ }).store.ch1 =
      [(0, 2048), (1, 2048), (2, 4095), (3, 4095)] := by decide +kernel

theorem test_run_over : runOver tiny = true ∧ runOver { tiny with mbox := ⟨⟨[0, 0], true⟩, ⟨[0, 0], false⟩⟩ } = false := by decide
theorem test_alternation :
    alternates .ping [.deliver .ping [], .poll, .deliver .pong []] = true ∧ alternates .ping [.deliver .pong []] = false := by decide

/-! ## The hypotheses of the statements: a witness for each

`test_meets_<statement>` shows values that meet the statement's hypotheses, clause by clause at a boundary of each. -/

/-- `Inv` as a check, the accumulators and the estimate sets left out. -/
def invCheck (s : State) : Bool :=
  let both (f : Channel → Bool) : Bool := f .ch1 && f .ch2
  (s.par.legal && both (fun ch => (s.store.get ch).wf && (s.store.get ch).below s.par.cap)
    && decide (s.wp < s.par.cap) && decide (s.wp % s.par.n = 0)
    && decide (s.mbox.ping.data.length = s.par.n) && decide (s.mbox.pong.data.length = s.par.n)
    && decide (s.nv = s.par.vtabInit.length) && decide (s.nh = s.par.htabInit.length)
    && s.vtab.all VRow.legal && s.htab.all HRow.legal) &&
  (both (fun ch => decide ((s.pend.vscale.get ch).toNat < s.nv)) && decide (s.pend.hscale.toNat < s.nh)
    && decide (s.pend.pos.toNat < FL) && s.pend.numavg != 0) &&
  (both (fun ch => decide ((s.act.vscale.get ch).toNat < s.nv)) && decide (s.act.hscale.toNat < s.nh)
    && decide (s.act.pos.toNat < FL) && s.act.numavg != 0 && both (fun ch => s.act.div.get ch != 0)
    && s.act.sppn != 0 && s.act.sppd != 0) &&
  (s.cstate.rest && decide (s.cstate = .filling → s.act.mode = .normal)
    && decide (s.cstate = .accumulating → s.act.mode = .average) && decide (s.trigIdx < s.par.cap)
    && decide (s.cstate ≠ .idle → s.act.pos.toNat + 1 ≤ s.pix.toNat) && decide (s.cstate ≠ .idle → s.pix.toNat < FL)
    && decide (atBoundary s = false → s.skipcnt ≤ s.act.skip) && decide (s.avgcnt < s.act.numavg)
    && decide (s.act.mode = .normal → s.avgcnt = 0)) &&
  both (fun ch => decide ((s.fcnt.get ch).toNat ≤ 9))

/-- The check answers for the invariant of a machine whose accumulators and estimate sets are clear. -/
theorem inv_of_check (s : State) (hacc : ∀ ch, s.acc.get ch = Vector.replicate FL 0)
    (hset : ∀ ch, s.fset.get ch = Vector.replicate MEASURE_AVG 0) (h : invCheck s = true) : Inv s := by
  simp only [invCheck, Bool.and_eq_true, decide_eq_true_eq, List.all_eq_true, bne_iff_ne, ne_eq,
    and_assoc] at h
  obtain ⟨h1, h2a, h2b, h2c, h2d, h3, h4, h5, h6, h7, h8, h9, h10, h11a, h11b, h12, h13, h14, h15a, h15b, h16, h17, h18,
    h19a, h19b, h20, h21, h22, h23, h24, h25, h26, h27, h28, h29, h30, h33a, h33b⟩ := h
  exact {
    params := h1
    store_wf := fun ch => by cases ch; exacts [h2a, h2c]
    store_below := fun ch => by cases ch; exacts [h2b, h2d]
    wp_lt := h3, wp_aligned := h4
    mbox_length := fun k => by cases k; exacts [h5, h6]
    vtab_length := h7, htab_length := h8, vtab_legal := h9, htab_legal := h10
    pend_legal := ⟨fun ch => by cases ch; exacts [h11a, h11b], h12, h13, h14⟩
    act_legal := ⟨fun ch => by cases ch; exacts [h15a, h15b], h16, h17, h18, fun ch => by cases ch; exacts [h19a, h19b], h20, h21⟩
    rest := h22, filling_normal := h23, accumulating_average := h24, trig_lt := h25
    pix_low := h26, pix_high := h27, skip_le := h28, avgcnt_lt := h29, normal_avgcnt := h30
    boundary_acc := fun _ => hacc
    normal_acc := fun _ => hacc
    fcnt_le := fun ch => by cases ch; exacts [h33a, h33b]
    fset_nonneg := fun ch q hq => by rw [hset ch] at hq; simp at hq; simp [hq] }

/-- The small machine with the last row of each table pending. -/
def tinyTop : State := { tiny with pend := { tiny.pend with vscale := ⟨1, 1⟩, hscale := 1 } }

/-- The small machine with a step scheduled. -/
def tinyNext (e : Event) : State := { tiny with inputs := [e] }

/-- The small machine with both mailbox slots as given by their flags. -/
def tinyMail (a b : Bool) : State := { tiny with mbox := ⟨⟨[0xBE8, 0xBE8], a⟩, ⟨[0xBE8, 0xBE8], b⟩⟩ }

theorem test_inv_tiny : Inv tiny := inv_of_check _ (by rintro ⟨⟩ <;> rfl) (by rintro ⟨⟩ <;> rfl) (by decide)
theorem test_inv_tiny_top : Inv tinyTop := inv_of_check _ (by rintro ⟨⟩ <;> rfl) (by rintro ⟨⟩ <;> rfl) (by decide)
theorem test_inv_tiny_wp : Inv { tiny with wp := 2 } := inv_of_check _ (by rintro ⟨⟩ <;> rfl) (by rintro ⟨⟩ <;> rfl) (by decide)
theorem test_inv_one_block : Inv (State.resetWith { tinyParams with k := 1 }) := inv_of_check _ (by rintro ⟨⟩ <;> rfl) (by rintro ⟨⟩ <;> rfl) (by decide)
theorem test_inv_average_first : Inv (tinyAverage 0) := inv_of_check _ (by rintro ⟨⟩ <;> rfl) (by rintro ⟨⟩ <;> rfl) (by decide)
theorem test_inv_average_last : Inv (tinyAverage 1) := inv_of_check _ (by rintro ⟨⟩ <;> rfl) (by rintro ⟨⟩ <;> rfl) (by decide)
theorem test_inv_filling : Inv (tinyFilling 318) := inv_of_check _ (by rintro ⟨⟩ <;> rfl) (by rintro ⟨⟩ <;> rfl) (by decide)

theorem test_meets_EncodeAndDecodeAgree : decode 0x02FFFFFF = .ok (.setRun true) := by decide
theorem test_meets_EveryWordMatchesOneRowOrNone :
    (⟨"SET_TRIGGER", 0xF0000000, 0x20000000⟩ : OpcodeRow) ∈ opcodeMap ∧
    OpcodeRow.accepts ⟨"SET_TRIGGER", 0xF0000000, 0x20000000⟩ 0x2FFFFFFF = true ∧
    decode 0x2FFFFFFF = .ok (.setTrigger 4095 511 .falling .ch2) := by decide
theorem test_meets_IgnoredBitsHaveNoEffect :
    decode 0x02000001 = .ok (.setRun true) ∧
    (0x02000001 : CmdWord) &&& usedBits (.setRun true) = (0x02FFFFFF : CmdWord) &&& usedBits (.setRun true) ∧
    nextHas (fun _ => true) (command 0x02000001 tiny) = true ∧ tiny.cmderr = false := by decide
theorem test_meets_ReservedWordsSetOnlyCmderr :
    ([(8, 0), (15, 15), (0, 5), (1, 3), (3, 3), (4, 3), (5, 2), (6, 2), (7, 3)].all fun p => reservedEncoding p.1 p.2) = true ∧
    ([(0, 4), (1, 2), (2, 0), (2, 15), (3, 2), (4, 2), (5, 1), (6, 1), (7, 2)].all fun p => !reservedEncoding p.1 p.2) = true ∧
    reservedEncoding ((0x80000000 : CmdWord).toNat / 2 ^ 28) ((0x80000000 : CmdWord).toNat / 2 ^ 24 % 16) = true := by decide
theorem test_meets_AssembledLineDecodesToItsOperands :
    assemble (.setRun 1) = some 0x02000001 ∧ assemble (.clearStatus 7) = some 0x04000007 ∧
    assemble (.setHscale 127) = some 0x117F0000 ∧ assemble (.setTrigger 4095 511 .falling .ch2) = some 0x2DFF0FFF ∧
    assemble (.loadVdiv 127 65535) = some 0x307FFFFF ∧ assemble (.loadVmid .ch2 127 (-32768)) = some 0x32FF8000 ∧
    assemble (.setYmin (-32768)) = some 0x50008000 ∧ assemble (.setYmax 32767) = some 0x51007FFF ∧
    ([.setRun 2, .setRun (-1), .clearStatus 8, .setHscale 128, .setTrigger 4096 0 .rising .ch1,
      .setTrigger 0 512 .rising .ch1, .loadVdiv 128 1, .loadVdiv 0 65536, .loadVmid .ch1 0 32768, .setYmin (-32769),
      .setYmax 32768, .setNumavg (-1)] : List Line).all (fun l => assemble l == none) = true := by decide
theorem test_meets_PseudoCommandsExpand : Inv tiny ∧ Inv tinyTop := ⟨test_inv_tiny, test_inv_tiny_top⟩
theorem test_meets_StepRunsTheNextEvent :
    (tinyNext (.command 0)).inputs = .command 0 :: [] ∧ decode 0 = .ok .nop ∧
    (∃ e, decode 0x80000000 = .error e) ∧ (tinyNext (.deliver .ping [1, 2])).inputs = .deliver .ping [1, 2] :: [] ∧
    (tinyNext .poll).inputs = .poll :: [] ∧ (tinyNext (.read 0)).inputs = .read 0 :: [] ∧ tiny.inputs = [] ∧
    decodeTableWord 32 0 = some .nop := ⟨rfl, by decide, ⟨_, rfl⟩, rfl, rfl, rfl, rfl, by decide⟩
theorem test_meets_EveryStepCompletes :
    (∀ k ws rest, (tinyNext (.deliver .ping [1, 2])).inputs = .deliver k ws :: rest →
      ws.length = (tinyNext (.deliver .ping [1, 2])).par.n) ∧
    (tinyNext (.deliver .ping [1])).inputs = .deliver .ping [1] :: [] ∧ [(1 : RawWord)].length ≠ tiny.par.n := by
  refine ⟨?_, rfl, by decide⟩
  intro k ws rest h
  injection h with h _
  injection h with _ h
  subst h; rfl
theorem test_meets_SelectionCommandsClamp :
    min (1 : BitVec 7).toNat (tiny.nv - 1) = 1 ∧ min (2 : BitVec 7).toNat (tiny.nv - 1) = 1 ∧
    min (318 : BitVec 9).toNat (FL - 1) = 318 ∧ min (319 : BitVec 9).toNat (FL - 1) = 318 := by decide
theorem test_meets_LoadVerticalRow :
    ¬ (tiny.nv ≤ (1 : BitVec 7).toNat ∨ (1 : BitVec 16) = 0) ∧ tiny.nv ≤ (2 : BitVec 7).toNat ∧
    tiny.vtab[1]? = some ⟨8, 20, ⟨247, 247⟩⟩ := by decide
theorem test_meets_LoadHorizontalRow :
    ¬ (tiny.nh ≤ (1 : BitVec 7).toNat ∨ (1 : BitVec 16) = 0) ∧ tiny.nh ≤ (2 : BitVec 7).toNat ∧
    tiny.htab[1]? = some ⟨1, 1, 500⟩ := by decide
theorem test_meets_CalibrateCentresTheMean :
    tiny.lfValid = false ∧ published.lfValid = true ∧ published.vtab[0]? = some ⟨16, 40, ⟨247, 247⟩⟩ ∧
    published.lfChen.get .ch1 = true ∧ (published.act.vscale.get .ch1).toNat = 0 ∧
    ∃ a : ActiveCfg, a.div = published.act.div ∧ a.mid.get .ch1 = calibratedMid published .ch1 ∧
      -32768 ≤ bandCentre published.act +
        ((frameMean (published.lfData.get .ch1) / (published.act.div.get .ch1).toNat : Nat) : Int) ∧
      bandCentre published.act +
        ((frameMean (published.lfData.get .ch1) / (published.act.div.get .ch1).toNat : Nat) : Int) ≤ 32767 :=
  ⟨rfl, rfl, rfl, rfl, rfl, { published.act with mid := ⟨calibratedMid published .ch1, 0⟩ }, rfl, rfl, by decide +kernel,
    by decide +kernel⟩
theorem test_meets_CommandsWriteOnlyHostState : exec (.setRun false) tiny = .next { tiny with run := false } := rfl
theorem test_meets_StickyBitsHaveTheirCauses :
    refusedOperand tiny (.setNumavg 0) = true ∧ tiny.ovr = false ∧ tiny.cfgerr = false ∧ tiny.cmderr = false ∧
    nextHas (fun t => t.ovr) (step { tinyMail true false with inputs := [.deliver .ping [1, 2]] }) = true ∧
    nextHas (fun t => t.cfgerr) (step (tinyNext (.command 0x60000000))) = true ∧
    nextHas (fun t => t.cmderr) (step (tinyNext (.command 0x80000000))) = true ∧
    nextHas (fun t => !t.ovr && !t.cfgerr && !t.cmderr)
      (step { tinyNext (.command 0x04000007) with ovr := true, cfgerr := true, cmderr := true }) = true := by decide +kernel
theorem test_meets_DecoderIsOffsetBinary :
    (0x00123456 : RawWord).extractLsb' 0 24 = (0xFF123456 : RawWord).extractLsb' 0 24 := by decide
theorem test_meets_AppendStoresTheBlock :
    Inv tiny ∧ Inv { tiny with wp := 2 } ∧ Inv (State.resetWith { tinyParams with k := 1 }) ∧
    ([0, 0x7FF] : List RawWord).length = tiny.par.n ∧ ([0, 0x7FF] : List RawWord)[1]? = some 0x7FF ∧
    2 < tiny.par.cap ∧ tiny.wp + tiny.par.n ≤ 2 ∧ 1 < ({ tiny with wp := 2 } : State).wp ∧
    ({ tiny with wp := 2 } : State).wp + tiny.par.n = tiny.par.cap :=
  ⟨test_inv_tiny, test_inv_tiny_wp, test_inv_one_block, rfl, rfl, by decide, by decide, by decide, by decide⟩
theorem test_meets_StoreReadResolvesModulo : 0 < tiny.par.cap ∧ (3 : Int) < tiny.par.cap := by decide
theorem test_meets_StoreHoldsTheLastCapCodes :
    Inv tiny ∧ ([[0, 1], [2, 3]] : List (List RawWord)).length = tiny.par.k ∧
    (∀ b ∈ ([[0, 1], [2, 3]] : List (List RawWord)), b.length = tiny.par.n) ∧
    ([[0, 1], [2, 3]] : List (List RawWord)).flatten.reverse[0]? = some 3 ∧
    ([[0, 1], [2, 3]] : List (List RawWord)).flatten.reverse[3]? = some 0 :=
  ⟨test_inv_tiny, rfl, by decide, rfl, rfl⟩
theorem test_meets_MonotonicRunTriggersAtTheCrossing :
    let up : Nat → Code := fun i => BitVec.ofNat 12 (2040 + 5 * i)
    let down : Nat → Code := fun i => BitVec.ofNat 12 (2056 - 5 * i)
    (∀ j ≤ 3, ∀ i < j, up i < up j) ∧ (up 1 < 2048 ∧ 2048 < up 2) ∧ (up 1 < 2050 ∧ 2050 = up 2) ∧
    (∀ j ≤ 3, ∀ i < j, down j < down i) ∧ (2048 < down 1 ∧ down 2 < 2048) ∧ (2046 < down 1 ∧ 2046 = down 2) := by decide
theorem test_meets_MissCountSaturates : tiny.cstate = .idle ∧ (tinyFilling 1).cstate ≠ .idle ∧
    ({ tiny with miss := 20 } : State).miss = tiny.act.frCap := by decide
theorem test_meets_ForceFireAtTheThreshold :
    tiny.cstate = .idle ∧ tiny.act.frEn = true ∧ tiny.act.frThresh.toNat ≤ ({ tiny with miss := 10 } : State).miss.toNat ∧
    ¬ tiny.act.frThresh.toNat ≤ ({ tiny with miss := 9 } : State).miss.toNat := by decide
theorem test_meets_QuietPassCountsOneMiss :
    tiny.cstate = .idle ∧
    ∀ j, j < tiny.par.n → triggered (tiny.wp + j) (passLoaded [0xBE8, 0xBE8] tiny) = false := by decide +kernel
theorem test_meets_StartCaptureNormalBackfills :
    ({ tiny.act with pos := 318 } : ActiveCfg).pos.toNat + 1 = FL ∧ tiny.act.pos.toNat + 1 ≠ FL := by decide
theorem test_meets_FillStepTakesOrSkips :
    ({ tinyFilling 318 with skipcnt := 1 } : State).skipcnt ≠ 0 ∧ ¬ (tinyFilling 318).skipcnt ≠ 0 ∧
    (tinyFilling 318).pix.toNat + 1 = FL ∧ (tinyFilling 317).pix.toNat + 1 ≠ FL := by decide
theorem test_meets_NormalFrameContent :
    Inv tiny ∧ tiny.cstate = .idle ∧ tiny.act.mode = .normal ∧ 317 < codesToComplete tiny.act :=
  ⟨test_inv_tiny, rfl, rfl, by decide⟩
theorem test_meets_BackfillWeighting :
    (268361730 : BitVec 32).toNat ≤ 65534 * 4095 ∧
    ({ tiny.act with pos := 318 } : ActiveCfg).pos.toNat + 1 = FL ∧ tiny.act.pos.toNat + 1 ≠ FL ∧
    ({ tinyFilling 318 with skipcnt := 1 } : State).skipcnt ≠ 0 ∧ ¬ (tinyFilling 318).skipcnt ≠ 0 ∧
    (tinyFilling 318).pix.toNat + 1 = FL ∧ (tinyFilling 317).pix.toNat + 1 ≠ FL ∧
    (tinyAverage 0).avgcnt < (tinyAverage 0).act.numavg ∧
    (tinyAverage 0).avgcnt.toNat + 1 < (tinyAverage 0).act.numavg.toNat ∧
    (tinyAverage 1).avgcnt < (tinyAverage 1).act.numavg ∧
    ¬ (tinyAverage 1).avgcnt.toNat + 1 < (tinyAverage 1).act.numavg.toNat := by decide
theorem test_meets_OccurrenceAddsItsFrame :
    Inv (tinyAverage 0) ∧ Inv (tinyAverage 1) ∧ (tinyAverage 1).cstate = .idle ∧ (tinyAverage 1).act.mode = .average ∧
    (tinyAverage 1).act.halve = false ∧ (tinyAverage 0).avgcnt.toNat + 1 < (tinyAverage 0).act.numavg.toNat ∧
    ¬ (tinyAverage 1).avgcnt.toNat + 1 < (tinyAverage 1).act.numavg.toNat :=
  ⟨test_inv_average_first, test_inv_average_last, rfl, rfl, rfl, by decide, by decide⟩
theorem test_meets_AveragedFrameIsTheFloorMean :
    Inv (tinyAverage 0) ∧ (tinyAverage 0).cstate = .idle ∧ (tinyAverage 0).act.mode = .average ∧
    (tinyAverage 0).act.halve = false ∧ (tinyAverage 0).avgcnt = 0 ∧ (tinyAverage 0).run = true ∧
    [(⟨tiny.store, 0, false⟩ : Occurrence), ⟨⟨[(1, 9)], []⟩, 3, true⟩].length = (tinyAverage 0).act.numavg.toNat ∧
    [(⟨tiny.store, 0, false⟩ : Occurrence), ⟨⟨[(1, 9)], []⟩, 3, true⟩].getLast? = some ⟨⟨[(1, 9)], []⟩, 3, true⟩ :=
  ⟨test_inv_average_first, rfl, rfl, rfl, rfl, rfl, rfl, rfl⟩
theorem test_meets_ConfigurationHoldsThroughACycle :
    atBoundary (tinyFilling 318) = false ∧ atBoundary (tinyAverage 1) = false ∧
    atBoundary (codeStep 1 (tinyFilling 318, false)).1 = true ∧
    atBoundary (codeStep 1 (tinyFilling 317, false)).1 = false := by decide +kernel
theorem test_meets_ActiveSetIsKeptOrLatched : step (tinyNext (.command 0)) = .next tiny := rfl
theorem test_meets_LatchCopiesPendingAndRows :
    tinyTop.vtab[(tinyTop.pend.vscale.get .ch2).toNat]? = some ⟨8, 20, ⟨247, 247⟩⟩ ∧
    tinyTop.htab[tinyTop.pend.hscale.toNat]? = some ⟨1, 1, 500⟩ := by decide
theorem test_meets_PublishDeliversOrDiscards :
    tiny.run = true ∧ ({ tiny with run := false } : State).run = false ∧ tiny.act.chen.get .ch1 = true ∧
    ({ tiny.act with chen := ⟨false, true⟩ } : ActiveCfg).chen.get .ch1 = false := ⟨rfl, rfl, rfl, rfl⟩
theorem test_meets_FrameSeqCountsTheFrames :
    SequenceNumbered { tiny with
      frameseq := 1
      out := [.frame ⟨0, .normal, ⟨true, true⟩, false, 0, ⟨Vector.replicate FL 0, Vector.replicate FL 0⟩⟩] } ∧
    step (tinyNext (.command 0)) = .next tiny := by
  refine ⟨⟨rfl, ?_⟩, rfl⟩
  intro i r h
  cases i with
  | zero => cases h; rfl
  | succ i => cases h
theorem test_meets_RunDoesNotTouchCapture : SameCapture (tinyMail true true) { tinyMail true true with run := false } := rfl
theorem test_meets_OutputsAreAppendOnly :
    step (tinyNext (.command 0)) = .next tiny ∧ (tinyNext (.command 0)).inputs = .command 0 :: [] ∧
    (Event.command 0) ≠ .poll := ⟨rfl, rfl, by decide⟩
theorem test_meets_CoordinatesAreClassifiedAndClamped :
    tiny.act.yMin.toInt ≤ tiny.act.yMax.toInt ∧ (-1 : Int) < tiny.act.yMin.toInt ∧ ¬ (0 : Int) < tiny.act.yMin.toInt ∧
    ¬ tiny.act.yMax.toInt < 239 ∧ tiny.act.yMax.toInt < 240 := by decide
theorem test_meets_NineOutcomesAreReached :
    tiny.act.mid.get .ch1 = 247 ∧ tiny.act.div.get .ch1 = 16 ∧ tiny.act.yMin = 0 ∧ tiny.act.yMax = 239 := by decide
theorem test_meets_ATraceIs318Segments : 0 + 1 < FL ∧ 317 + 1 < FL := by decide
theorem test_meets_EraseRemovesWhatWasDrawn :
    tiny.act.chen.get .ch1 = true ∧ ({ tiny.act with chen := ⟨false, true⟩ } : ActiveCfg).chen.get .ch1 = false := ⟨rfl, rfl⟩
theorem test_meets_CrossingsAreHalfOpen :
    99 + 1 < FL ∧ squareFrame[99].toNat < squareFrame[3].toNat ∧ squareFrame[3].toNat ≤ squareFrame[99 + 1].toNat ∧
    100 ∈ crossings .rising squareFrame := by decide +kernel
theorem test_meets_IntervalsFitTheBins :
    (crossings .rising squareFrame)[0]? = some 100 ∧ (crossings .rising squareFrame)[1]? = some 200 ∧
    (crossings .rising squareFrame).length - 1 ≤ 2 ∧ 319 < TIME_AVG := by decide +kernel
theorem test_meets_OutlierBandIsClosed : firstMean [50, 150] = some 100 ∧ ∀ b ∈ ([0, 0] : List Nat), b = 0 := by decide +kernel
theorem test_meets_EstimateIsTheReciprocalMean :
    tiny.act.sppn ≠ 0 ∧ tiny.act.sppd ≠ 0 ∧ freqEstimate tiny.act squareFrame = some 10 ∧
    outlierReject (intervalBins (crossings .falling squareFrame)) = [] := by decide +kernel
theorem test_meets_EstimateSetReportsEveryTenth : (8 : BitVec 4).toNat < 9 ∧ ¬ (9 : BitVec 4).toNat < 9 := by decide
theorem test_meets_PollConsumesBothSlots :
    ((tinyMail false false).mbox.get .ping).flag = false ∧ ((tinyMail true false).mbox.get .ping).flag = true ∧
    ((tinyMail true false).mbox.get .pong).flag = false ∧ ((tinyMail false true).mbox.get .pong).flag = true := by decide
theorem test_meets_PassRunsInOrder :
    tiny.cstate = .idle ∧ triggered 0 (passLoaded [0x3B8, 0x3B8] tiny) = true ∧
    (passLoaded [0x3B8, 0x3B8] tiny).cstate = .idle ∧ triggered 0 (passLoaded [0xBE8, 0xBE8] tiny) = false ∧
    (tinyFilling 1).cstate = .filling ∧ ({ tinyAverage 1 with cstate := .accumulating } : State).cstate = .accumulating := by
  decide +kernel
theorem test_meets_PollWritesOnlyConsumerState :
    ([0, 0x7FF] : List RawWord).length = tiny.par.n ∧ 1 < ({ tiny with wp := 2 } : State).wp ∧ tiny.wp + tiny.par.n ≤ 2 := by decide
theorem test_meets_DeliverFillsOrOverruns :
    ([1, 2] : List RawWord).length = tiny.par.n ∧ (tiny.mbox.get .ping).flag = false ∧
    ((tinyMail true false).mbox.get .ping).flag = true := by decide
theorem test_meets_ReadPortShowsTheMap :
    0x17 ≤ (0x17 : BitVec 8).toNat ∧ ({ tiny with wp := 2 } : State).wp < 2 ^ 32 ∧ tiny.trigIdx < 2 ^ 32 := by decide
theorem test_meets_LegalParametersStartLegal : tinyParams.legal = true ∧ Params.common.legal = true := by decide
theorem test_meets_StepKeepsInv :
    Inv tiny ∧ step (tinyNext (.command 0)) = .next tiny ∧ (tinyNext (.command 0)).skipcnt ≤ (tinyNext (.command 0)).act.skip ∧
    (tinyNext (.command 0)).act.skip ≤ tiny.act.skip ∧ Inv (tinyNext (.command 0)) :=
  ⟨test_inv_tiny, rfl, by decide, by decide, inv_of_check _ (by rintro ⟨⟩ <;> rfl) (by rintro ⟨⟩ <;> rfl) (by decide)⟩
theorem test_meets_AccumulatorsNeverWrap :
    Inv (tinyAverage 1) ∧ AccBounded (tinyAverage 1) ∧ nextHas (fun _ => true) (step (tinyAverage 1)) = true := by
  refine ⟨test_inv_average_last, ?_, rfl⟩
  intro ch k h
  have : (((tinyAverage 1).acc.get ch)[k]).toNat = 0 := by cases ch <;> simp [tinyAverage, tiny, State.resetWith, PerChannel.get]
  omega
theorem test_meets_ThroughputKeepsOvrClear :
    let es : List Event := [.deliver .ping [1, 2], .deliver .pong [3, 4], .poll, .deliver .ping [5, 6], .command 0, .read 0]
    let s : State := { tiny with inputs := es }
    wholeBlocks s.par.n s.inputs = true ∧ keepsThroughput (mailFlags s) s.inputs = true ∧ s.ovr = false := by decide
theorem test_meets_SkipcntNeverAboveSkip :
    Inv tinyTop ∧ tinyTop.skipcnt ≤ tinyTop.act.skip ∧ nextHas (fun _ => true) (step tinyTop) = true :=
  ⟨test_inv_tiny_top, by decide, rfl⟩

end Sys2Proof.Tests
end

section
/-! PROOFS. The statements about the invariant (O56, O57): reset is legal, what each agent's step writes, and that it leaves a
legal state. -/

namespace Sys2Proof

/-! ## Values held per channel and per slot -/

/-- What holds of the new value and of every old one holds of every value after `set`. -/
theorem PerChannel.forall_get_set {α : Type} {P : α → Prop} {p : PerChannel α} {v : α} (hv : P v)
    (hp : ∀ ch, P (p.get ch)) (ch ch' : Channel) : P ((p.set ch v).get ch') := by
  by_cases h : ch' = ch
  · rw [h, get_set_same]; exact hv
  · rw [get_set_other p v h]; exact hp ch'

theorem PerSlot.forall_get_set {α : Type} {P : α → Prop} {p : PerSlot α} {v : α} (hv : P v)
    (hp : ∀ k, P (p.get k)) (k k' : Slot) : P ((p.set k v).get k') := by
  by_cases h : k' = k
  · rw [h, get_set_same]; exact hv
  · rw [get_set_other p v h]; exact hp k'

/-! ## Parameters -/

/-- The constraints of R9, one by one. -/
theorem Params.legal_iff (p : Params) :
    p.legal = true ↔ 1 ≤ p.n ∧ 1 ≤ p.k ∧ 1 ≤ p.vtabInit.length ∧ p.vtabInit.length ≤ 128 ∧
      (∀ r ∈ p.vtabInit, r.legal = true) ∧ 1 ≤ p.htabInit.length ∧ p.htabInit.length ≤ 128 ∧
      (∀ r ∈ p.htabInit, r.legal = true) ∧ p.numAvgInit ≠ 0 := by
  simp only [Params.legal, Bool.and_eq_true, decide_eq_true_eq, List.all_eq_true, bne_iff_ne, ne_eq, and_assoc]

namespace Machine

/-! ## Reset -/

/-- LATCH gives a legal active set from legal pending registers and tables, of no state in particular: at reset there is no
legal active set yet from which `latchedCfg_legal` could start. -/
theorem latchedCfg_activeLegal {p : PendingCfg} {vt : List VRow} {ht : List HRow} (hp : PendingLegal vt.length ht.length p)
    (hv : ∀ r ∈ vt, r.legal = true) (hh : ∀ r ∈ ht, r.legal = true) :
    ActiveLegal vt.length ht.length (latchedCfg p vt ht) := by
  have hrowLegal : (hrow ht p.hscale).sppn ≠ 0 ∧ (hrow ht p.hscale).sppd ≠ 0 := by
    simpa [HRow.legal] using hh _ (hrow_mem hp.hscale)
  have vrowLegal : ∀ ch, (vrow vt (p.vscale.get ch)).div ≠ 0 := fun ch => by
    simpa [VRow.legal] using hv _ (vrow_mem (hp.vscale ch))
  obtain ⟨hsppn, hsppd⟩ := hrowLegal
  exact ⟨hp.vscale, hp.hscale, hp.pos, hp.numavg, fun ch => by simpa [latchedCfg] using vrowLegal ch, hsppn, hsppd⟩

/-- The pending registers at reset select row 0 of each table. -/
theorem resetPending_legal {p : Params} (h : p.legal = true) :
    PendingLegal p.vtabInit.length p.htabInit.length (resetPending p) := by
  obtain ⟨-, -, hnv, -, -, hnh, -, -, havg⟩ := (Params.legal_iff p).1 h
  exact ⟨fun ch => by cases ch <;> exact hnv, hnh, Nat.zero_lt_succ _, havg⟩

theorem resetWith_sound {p : Params} (h : p.legal = true) : Sound (State.resetWith p) := by
  obtain ⟨hn, hk, -, -, hv, -, -, hh, -⟩ := (Params.legal_iff p).1 h
  have hpend := resetPending_legal h
  have hcap : 0 < p.cap := Nat.mul_pos hk hn
  constructor
  case params => exact h
  case store_wf => intro ch; cases ch <;> rfl
  case store_below => intro ch; cases ch <;> rfl
  case wp_lt => exact hcap
  case wp_aligned => exact Nat.zero_mod _
  case mbox_length => intro k; cases k <;> exact List.length_replicate
  case vtab_length => rfl
  case htab_length => rfl
  case vtab_legal => exact hv
  case htab_legal => exact hh
  case pend_legal => exact hpend
  case act_legal => exact latchedCfg_activeLegal hpend hv hh
  case trig_lt => exact hcap
  case fcnt_le => intro ch; cases ch <;> exact Nat.zero_le _
  case fset_nonneg =>
    intro ch q hq
    have hz : q ∈ (Vector.replicate MEASURE_AVG (0 : ℚ)).toList := by cases ch <;> exact hq
    simp at hz
    simp [hz]

theorem resetWith_captureLegal {p : Params} (h : p.legal = true) : CaptureLegal (State.resetWith p) := by
  have hacc : ∀ ch, (State.resetWith p).acc.get ch = Vector.replicate FL 0 := by intro ch; cases ch <;> rfl
  have hc : (State.resetWith p).cstate = .idle := rfl
  have hb : atBoundary (State.resetWith p) = true := rfl
  constructor
  case rest => rfl
  case filling_normal | accumulating_average => simp [hc]
  case pix_low | pix_high => exact fun hne => absurd hc hne
  case skip_le => exact fun hf => Bool.noConfusion (hb.symm.trans hf)
  case avgcnt_lt => exact ne_zero_pos (resetPending_legal h).numavg
  case normal_avgcnt => exact fun _ => rfl
  case boundary_acc | normal_acc => exact fun _ => hacc

/-- Settles O56: the two parts of the invariant, each at reset. -/
theorem legalParametersStartLegal : Obligations.LegalParametersStartLegal :=
  fun _ h => (resetWith_sound h).inv (resetWith_captureLegal h)

/-! ## What a host command writes -/

/-- What the host's commands are made of: writes of `RUN` and the sticky bits, of the pending registers, of one row of a
table. A write of registers or of a row keeps them legal. -/
inductive HostWrites : State → State → Prop
  | refl (s : State) : HostWrites s s
  | trans {s t u : State} : HostWrites s t → HostWrites t u → HostWrites s u
  | flags (s : State) (run ovr cfgerr cmderr : Bool) :
      HostWrites s { s with run := run, ovr := ovr, cfgerr := cfgerr, cmderr := cmderr }
  | pend {s : State} (f : PendingCfg → PendingCfg)
      (hf : PendingLegal s.nv s.nh s.pend → PendingLegal s.nv s.nh (f s.pend)) : HostWrites s (withPending f s)
  | vrow (s : State) (idx : BitVec 7) {f : VRow → VRow} (hf : ∀ r, r.legal = true → (f r).legal = true) :
      HostWrites s (modifyVrow idx f s)
  | hrow (s : State) (idx : BitVec 7) {f : HRow → HRow} (hf : ∀ r, r.legal = true → (f r).legal = true) :
      HostWrites s (modifyHrow idx f s)

/-- A refusal sets CFGERR alone (R304). -/
theorem HostWrites.setCfgerr (s : State) : HostWrites s (setCfgerr s) := .flags s s.run s.ovr true s.cmderr

theorem HostWrites.loadVrow (s : State) (idx : BitVec 7) {bad : Bool} {f : VRow → VRow}
    (hf : bad = false → ∀ r, r.legal = true → (f r).legal = true) : HostWrites s (loadVrow idx bad f s) := by
  obtain ⟨-, h⟩ | ⟨-, hb, h⟩ := loadVrow_cases idx bad f s <;> rw [h]
  · exact .setCfgerr s
  · exact .vrow s idx (hf hb)

theorem HostWrites.loadHrow (s : State) (idx : BitVec 7) {bad : Bool} {f : HRow → HRow}
    (hf : bad = false → ∀ r, r.legal = true → (f r).legal = true) : HostWrites s (loadHrow idx bad f s) := by
  obtain ⟨-, h⟩ | ⟨-, hb, h⟩ := loadHrow_cases idx bad f s <;> rw [h]
  · exact .setCfgerr s
  · exact .hrow s idx (hf hb)

theorem HostWrites.calibrateChannel (ch : Channel) (s : State) : HostWrites s (calibrateChannel ch s) := by
  unfold Machine.calibrateChannel
  split
  · exact .vrow s _ fun _ h => h
  · exact .refl s

theorem HostWrites.calibrate (s : State) :
    HostWrites s (if s.lfValid then Machine.calibrateChannel .ch2 (Machine.calibrateChannel .ch1 s) else s) := by
  split
  · exact .trans (.calibrateChannel .ch1 s) (.calibrateChannel .ch2 _)
  · exact .refl s

/-- A clamped scale index selects a row (R267, R268). -/
theorem clampIndex_lt (idx : BitVec 7) {rows : Nat} (h : 0 < rows) : (clampIndex idx rows).toNat < rows := by
  have : (clampIndex idx rows).toNat ≤ min idx.toNat (rows - 1) := by
    rw [clampIndex, BitVec.toNat_ofNat]; exact Nat.mod_le _ _
  omega

/-- A clamped trigger position lies in the frame (R270). -/
theorem clampPos_lt (pos : BitVec 9) : (clampPos pos).toNat < FL := by
  have : (clampPos pos).toNat ≤ min pos.toNat (FL - 1) := by
    rw [clampPos, BitVec.toNat_ofNat]; exact Nat.mod_le _ _
  have : FL = 319 := rfl
  omega

theorem HostWrites.setNumavg (data : BitVec 16) (s : State) :
    HostWrites s (if data = 0 then Machine.setCfgerr s else withPending (fun p => { p with numavg := data }) s) := by
  split
  · exact .setCfgerr s
  · rename_i hne; exact .pend _ fun h => { h with numavg := hne }

/-- Every command answers a next state and writes only what the host may, legally (R260-R283). -/
theorem exec_hostWrites (s : State) (i : Instr) : ∃ t, exec i s = .next t ∧ HostWrites s t := by
  cases i with
  | nop => exact ⟨_, rfl, .refl s⟩
  | calibrate => exact ⟨_, rfl, .calibrate s⟩
  | setRun run => exact ⟨_, rfl, .flags s run s.ovr s.cfgerr s.cmderr⟩
  | clearStatus mask => exact ⟨_, rfl, .flags s s.run _ _ _⟩
  | setVscale ch idx =>
    refine ⟨_, rfl, .pend _ fun h => { h with vscale := ?_ }⟩
    have hrows : 0 < s.nv := Nat.zero_lt_of_lt (h.vscale ch)
    exact PerChannel.forall_get_set (P := fun v : BitVec 7 => v.toNat < s.nv) (clampIndex_lt idx hrows) h.vscale ch
  | setHscale idx =>
    exact ⟨_, rfl, .pend _ fun h => { h with hscale := clampIndex_lt idx (Nat.zero_lt_of_lt h.hscale) }⟩
  | setTrigger level pos edge src => exact ⟨_, rfl, .pend _ fun h => { h with pos := clampPos_lt pos }⟩
  | setNumavg data => exact ⟨_, rfl, .setNumavg data s⟩
  | setMode | setChen | setYmin | setYmax | setHalve | setFrThresh | setFrCap | setFrEn =>
    exact ⟨_, rfl, .pend _ fun h => ⟨h.vscale, h.hscale, h.pos, h.numavg⟩⟩
  | loadVdiv idx data => exact ⟨_, rfl, .loadVrow s idx fun hb r _ => by simpa [VRow.legal] using hb⟩
  | loadVmvpp idx | loadVmid _ idx => exact ⟨_, rfl, .loadVrow s idx fun _ _ h => h⟩
  | loadHskip idx => exact ⟨_, rfl, .loadHrow s idx fun _ _ h => h⟩
  | loadHsppn idx data | loadHsppd idx data =>
    exact ⟨_, rfl, .loadHrow s idx fun hb r h => by simp_all [HRow.legal]⟩

/-- A command word runs its command or sets CMDERR alone (R260, R284). -/
theorem command_hostWrites (w : CmdWord) (s : State) : ∃ t, command w s = .next t ∧ HostWrites s t := by
  obtain ⟨i, -, h⟩ | ⟨_, -, h⟩ := command_cases w s <;> rw [h]
  · exact exec_hostWrites s i
  · exact ⟨_, rfl, .flags s s.run s.ovr s.cfgerr true⟩

theorem OnlyHostWrites.trans {s t u : State} (h1 : OnlyHostWrites s t) (h2 : OnlyHostWrites t u) : OnlyHostWrites s u := by
  unfold OnlyHostWrites at *
  rw [h2, h1]

/-- The host's writes stay in its part of the state (R47, R286). -/
theorem HostWrites.onlyHostWrites {s t : State} (h : HostWrites s t) : OnlyHostWrites s t := by
  induction h with
  | trans _ _ ih1 ih2 => exact ih1.trans ih2
  | refl | flags | pend | vrow | hrow => rfl

/-! ## The host and the read port keep the invariant -/

/-- The invariant does not read `RUN`, the sticky bits, the answers of the read port, the draw counter or the schedule. -/
theorem Inv.of_bookkeeping {s t : State} (h : Inv s) (ht : t = { s with
    run := t.run, ovr := t.ovr, cfgerr := t.cfgerr, cmderr := t.cmderr
    readOut := t.readOut, draws := t.draws, inputs := t.inputs }) : Inv t := by
  rw [ht]
  exact { h with }

/-- What holds of every row, and is kept by `f`, holds of every row once `f` has changed one. -/
theorem forall_mem_modify {α : Type} {P : α → Prop} {l : List α} {f : α → α} (i : Nat) (hl : ∀ a ∈ l, P a)
    (hf : ∀ a, P a → P (f a)) : ∀ a ∈ l.modify i f, P a := by
  intro a ha
  obtain ⟨j, hj, rfl⟩ := List.getElem_of_mem ha
  rw [List.getElem_modify]
  have hP := hl _ (List.getElem_mem (by simpa using hj : j < l.length))
  split
  · exact hf _ hP
  · exact hP

theorem modifyVrow_inv {s : State} (h : Inv s) (idx : BitVec 7) {f : VRow → VRow}
    (hf : ∀ r, r.legal = true → (f r).legal = true) : Inv (modifyVrow idx f s) :=
  { h with
    vtab_length := (nv_modifyVrow idx f s).trans h.vtab_length
    vtab_legal := forall_mem_modify idx.toNat h.vtab_legal hf
    pend_legal := by rw [nv_modifyVrow]; exact h.pend_legal
    act_legal := by rw [nv_modifyVrow]; exact h.act_legal }

theorem modifyHrow_inv {s : State} (h : Inv s) (idx : BitVec 7) {f : HRow → HRow}
    (hf : ∀ r, r.legal = true → (f r).legal = true) : Inv (modifyHrow idx f s) :=
  { h with
    htab_length := (nh_modifyHrow idx f s).trans h.htab_length
    htab_legal := forall_mem_modify idx.toNat h.htab_legal hf
    pend_legal := by rw [nh_modifyHrow]; exact h.pend_legal
    act_legal := by rw [nh_modifyHrow]; exact h.act_legal }

theorem HostWrites.inv {s t : State} (hw : HostWrites s t) (h : Inv s) : Inv t := by
  induction hw with
  | refl => exact h
  | trans _ _ ih1 ih2 => exact ih2 (ih1 h)
  | flags => exact h.of_bookkeeping rfl
  | pend f hf => exact { h with pend_legal := hf h.pend_legal }
  | vrow s idx hf => exact modifyVrow_inv h idx hf
  | hrow s idx hf => exact modifyHrow_inv h idx hf

/-! ## The producer and the consumer keep the invariant -/

/-- A slot that holds a block of N words is legal, whatever its flag. -/
theorem setMailbox_inv {s : State} (h : Inv s) (k : Slot) {m : Mailbox} (hm : m.data.length = s.par.n) :
    Inv { s with mbox := s.mbox.set k m } :=
  { h with mbox_length := PerSlot.forall_get_set (P := fun m : Mailbox => m.data.length = s.par.n) hm h.mbox_length k }

theorem overrun_inv {s : State} (h : Inv s) (k : Slot) : Inv (overrun k s) :=
  (setMailbox_inv h k (m := ⟨drawnWords s.draws s.par.n, true⟩) (length_drawnWords _ _)).of_bookkeeping rfl

theorem deliverStep_inv {s t : State} (h : Inv s) {k : Slot} {words : List RawWord} (ht : deliverStep k words s = .next t) :
    Inv t := by
  obtain ⟨-, hd⟩ | ⟨-, -, hd⟩ | ⟨hlen, -, hd⟩ := deliverStep_cases k words s <;> rw [hd] at ht <;> cases ht
  · exact overrun_inv h k
  · exact setMailbox_inv h k hlen

/-- The latch at a boundary: the accumulators are clear and no capture is in progress, so any legal active set will do. -/
theorem latchIfBoundary_inv {s : State} (h : Inv s) : Inv (latchIfBoundary s) := by
  unfold latchIfBoundary
  split
  · rename_i hb
    obtain ⟨hc, ha⟩ := (atBoundary_iff s).1 hb
    have hsound : Sound (latch s) :=
      h.sound.congr (t := latch s) rfl (latchedCfg_legal h.sound) h.trig_lt h.fcnt_le h.fset_nonneg
    have hidle : (latch s).cstate = .idle := hc
    have hacc := h.boundary_acc hb
    refine hsound.inv ?_
    constructor
    case rest => exact h.rest
    case filling_normal | accumulating_average => intro hf; rw [hidle] at hf; cases hf
    case pix_low | pix_high => exact fun hne => absurd hidle hne
    case skip_le => exact fun hf => Bool.noConfusion (hb.symm.trans hf)
    case avgcnt_lt =>
      show s.avgcnt < s.pend.numavg
      rw [ha]
      exact ne_zero_pos h.pend_legal.numavg
    case normal_avgcnt => exact fun _ => ha
    case boundary_acc | normal_acc => exact fun _ => hacc
  · exact h

/-- A whole block appended at an aligned pointer stays in the store, and the pointer stays aligned (R123). -/
theorem decodeBlock_inv {s : State} (h : Inv s) {words : List RawWord} (hlen : words.length = s.par.n) :
    Inv (decodeBlock words s) :=
  { h with
    store_wf := storeBlock_wf s.wp h.store_wf
    store_below := storeBlock_below h.store_below (hlen ▸ block_fits h)
    wp_lt := Nat.mod_lt _ (Nat.zero_lt_of_lt h.wp_lt)
    wp_aligned := by
      show (s.wp + s.par.n) % (s.par.k * s.par.n) % s.par.n = 0
      rw [Nat.mod_mul_left_mod, Nat.add_mod_right, h.wp_aligned] }

theorem processPass_inv {s : State} (h : Inv s) {words : List RawWord} (hlen : words.length = s.par.n) :
    Inv (processPass words s) := by
  have hfit := block_fits h
  have hn : 1 ≤ s.par.n := ((Params.legal_iff s.par).1 h.params).1
  have hloaded : Inv (passLoaded words s) := decodeBlock_inv (latchIfBoundary_inv h) (by simpa using hlen)
  have hscanned : Inv (passScanned words s).1 := codeSteps_inv hloaded (by simpa [passLoaded] using hfit)
  refine forceFire_inv (missAccount_inv hscanned _) _ ?_
  simp only [missAccount_par, passScanned, codeSteps_par, passLoaded, decodeBlock_par, latchIfBoundary_par]
  omega

theorem pollSlot_inv {s : State} (h : Inv s) (k : Slot) : Inv (pollSlot k s) := by
  unfold pollSlot
  split
  · have hp := processPass_inv h (h.mbox_length k)
    exact setMailbox_inv hp k (hp.mbox_length k)
  · exact h

theorem poll_inv {s : State} (h : Inv s) : Inv (poll s) := pollSlot_inv (pollSlot_inv h .ping) .pong

/-! ## SKIPCNT against A_SKIP at a boundary -/

/-- SKIPCNT is at most A_SKIP after a step from `s` to `t`, if it was so before and A_SKIP has not become lower. -/
def SkipKept (s t : State) : Prop := s.skipcnt ≤ s.act.skip → s.act.skip ≤ t.act.skip → t.skipcnt ≤ t.act.skip

/-- A step that writes neither SKIPCNT nor the active set. -/
theorem skipKept_of_same {s t : State} (ha : t.act = s.act) (hk : t.skipcnt = s.skipcnt) : SkipKept s t := by
  intro h _
  rw [ha, hk]
  exact h

/-- What holds throughout a POLL that starts with the active set `a` and SKIPCNT at most `a.skip`: every latch gives the one
set `l`, since no step of the consumer writes what a latch reads, so SKIPCNT is under the skip of `a` or of the present set. -/
structure SkipUnder (a l : ActiveCfg) (u : State) : Prop where
  latched : latchedCfg u.pend u.vtab u.htab = l
  act : u.act = a ∨ u.act = l
  skip : u.skipcnt ≤ a.skip ∨ u.skipcnt ≤ u.act.skip

/-- A latch keeps it: SKIPCNT is under the old set's skip, or the set was latched before and does not change. -/
theorem SkipUnder.latch {a l : ActiveCfg} {u v : State} (h : SkipUnder a l u)
    (hl : latchedCfg v.pend v.vtab v.htab = l) (hact : v.act = u.act ∨ v.act = l) (hk : v.skipcnt = u.skipcnt) :
    SkipUnder a l v := by
  refine ⟨hl, hact.elim (fun he => he ▸ h.act) .inr, ?_⟩
  rw [hk]
  obtain he | he := hact
  · rw [he]; exact h.skip
  · obtain ha | ha := h.act
    · exact .inl (h.skip.elim id (ha ▸ ·))
    · rw [he, ← ha]; exact h.skip

theorem SkipUnder.latchIfBoundary {a l : ActiveCfg} {u : State} (h : SkipUnder a l u) : SkipUnder a l (latchIfBoundary u) := by
  refine h.latch (by simpa using h.latched) ?_ (by simp)
  rw [latchIfBoundary_act, h.latched]
  split
  · exact .inr rfl
  · exact .inl rfl

theorem SkipUnder.publish {a l : ActiveCfg} {u : State} (h : SkipUnder a l u) (frame : PerChannel Frame) :
    SkipUnder a l (publish frame u) := by
  refine h.latch (by simpa using h.latched) ?_ (by simp)
  rw [publish_act, h.latched]
  split
  · exact .inr rfl
  · exact .inl rfl

/-- The capture engine counts SKIPCNT down or reloads it from A_SKIP (R151, R153, R171, R173). -/
theorem SkipUnder.onlyCaptureWrites {a l : ActiveCfg} {u v : State} (h : SkipUnder a l u) (hw : OnlyCaptureWrites u v) :
    SkipUnder a l v := by
  obtain ⟨hrest, hk⟩ := hw
  have hp : v.pend = u.pend := (congrArg State.pend hrest :)
  have hv : v.vtab = u.vtab := (congrArg State.vtab hrest :)
  have hh : v.htab = u.htab := (congrArg State.htab hrest :)
  have ha : v.act = u.act := (congrArg State.act hrest :)
  refine ⟨by rw [hp, hv, hh]; exact h.latched, ha ▸ h.act, ?_⟩
  rw [ha]
  obtain hle | heq := hk
  · exact h.skip.imp (BitVec.le_trans hle) (BitVec.le_trans hle)
  · exact .inr (heq ▸ BitVec.le_refl _)

theorem poll_skipKept (s : State) : SkipKept s (poll s) := by
  intro hs hle
  have hstart : SkipUnder s.act (latchedCfg s.pend s.vtab s.htab) s := ⟨rfl, .inl rfl, .inl hs⟩
  have hend : SkipUnder s.act (latchedCfg s.pend s.vtab s.htab) (poll s) :=
    poll_keeps (fun _ frame h => h.publish frame) (fun _ _ hw h => h.onlyCaptureWrites hw) (fun _ h => h.latchIfBoundary)
      (fun _ _ h => ⟨h.latched, h.act, h.skip⟩) (fun _ _ h => ⟨h.latched, h.act, h.skip⟩) hstart
  exact hend.skip.elim (fun h => BitVec.le_trans h hle) id

theorem HostWrites.skipKept {s t : State} (h : HostWrites s t) : SkipKept s t :=
  skipKept_of_same (congrArg State.act h.onlyHostWrites :) (congrArg State.skipcnt h.onlyHostWrites :)

theorem deliverStep_skipKept {s t : State} {k : Slot} {words : List RawWord} (ht : deliverStep k words s = .next t) :
    SkipKept s t := by
  obtain ⟨-, hd⟩ | ⟨-, -, hd⟩ | ⟨-, -, hd⟩ := deliverStep_cases k words s <;> rw [hd] at ht <;> cases ht
  all_goals exact skipKept_of_same rfl rfl

/-! ## Every step -/

/-- A step of one agent keeps the invariant and, where A_SKIP has not become lower, SKIPCNT at most A_SKIP (R48, R67). -/
theorem runEvent_keeps {s t : State} (h : Inv s) {e : Event} (ht : runEvent e s = .next t) : Inv t ∧ SkipKept s t := by
  cases e with
  | deliver k words => exact ⟨deliverStep_inv h ht, deliverStep_skipKept ht⟩
  | command w =>
    obtain ⟨u, hu, hw⟩ := command_hostWrites w s
    obtain rfl : u = t := Host.Outcome.next.inj (hu.symm.trans ht)
    exact ⟨hw.inv h, hw.skipKept⟩
  | poll =>
    obtain rfl := Host.Outcome.next.inj ht
    exact ⟨poll_inv h, poll_skipKept s⟩
  | read addr =>
    obtain rfl := Host.Outcome.next.inj ht
    exact ⟨h.of_bookkeeping rfl, skipKept_of_same rfl rfl⟩

/-- A step is the scheduler's next event, run with that event taken off the schedule, or a POLL when there is none. -/
theorem step_keeps {s t : State} (h : Inv s) (ht : step s = .next t) : Inv t ∧ SkipKept s t := by
  unfold step nextStep at ht
  split at ht
  · exact runEvent_keeps (e := .poll) h ht
  · rename_i e rest _
    have hrest : Inv { s with inputs := rest } := h.of_bookkeeping rfl
    exact runEvent_keeps (s := { s with inputs := rest }) hrest ht

/-- Settles O57: the agents' steps one by one, each with SKIPCNT's bound beside the invariant. -/
theorem stepKeepsInv : Obligations.StepKeepsInv := fun _ _ h ht => step_keeps h ht

end Machine
end Sys2Proof
end

section
/-! PROOFS. The statements about the state (O16, O30, O33-O37, O39, O52, O54, O58, O60): who writes which part of it, the
active set and the latch, what a publication leaves, the Average-mode capture, the accumulators, the read port. -/

namespace Sys2Proof.Machine

/-! ## Host, producer and read port -/

/-- Settles O16: a command is made of the host's writes, and none of them is to the store. -/
theorem commandsWriteOnlyHostState : Obligations.CommandsWriteOnlyHostState := by
  intro i s t ht
  obtain ⟨u, hu, hw⟩ := exec_hostWrites s i
  obtain rfl : u = t := Host.Outcome.next.inj (hu.symm.trans ht)
  have hstore : u.store = s.store := (congrArg State.store hw.onlyHostWrites :)
  have hpar : u.par = s.par := (congrArg State.par hw.onlyHostWrites :)
  exact ⟨hw.onlyHostWrites, fun ch x => by simp only [storeRead, hstore, hpar]⟩

/-- `t` is `s` but for what the producer, the host and the read port write: nothing of the consumer's but the mailbox (R47). -/
def OnlyPortWrites (s t : State) : Prop :=
  t = { s with
    mbox := t.mbox, pend := t.pend, vtab := t.vtab, htab := t.htab, run := t.run, ovr := t.ovr, cfgerr := t.cfgerr
    cmderr := t.cmderr, readOut := t.readOut, draws := t.draws, inputs := t.inputs }

theorem OnlyHostWrites.onlyPortWrites {s t : State} {rest : List Event} (h : OnlyHostWrites { s with inputs := rest } t) :
    OnlyPortWrites s t := by
  unfold OnlyHostWrites at h
  rw [h]
  rfl

/-- A step is a POLL, taken with nothing else scheduled next, or writes only what the ports write (R47, R67). -/
theorem step_poll_or_onlyPortWrites {s t : State} (ht : step s = .next t) :
    (∃ rest, (∀ e es, s.inputs = e :: es → e = .poll) ∧ t = poll { s with inputs := rest }) ∨ OnlyPortWrites s t := by
  obtain ⟨hi, h⟩ | ⟨k, words, rest, -, h⟩ | ⟨w, rest, -, h⟩ | ⟨rest, hi, h⟩ | ⟨a, rest, -, h⟩ := step_cases s <;>
    rw [h] at ht
  case inl => exact .inl ⟨s.inputs, fun e es he => (by simp [hi] at he), (Host.Outcome.next.inj ht).symm⟩
  case inr.inl =>
    obtain ⟨-, hd⟩ | ⟨-, -, hd⟩ | ⟨-, -, hd⟩ := deliverStep_cases k words { s with inputs := rest } <;> rw [hd] at ht <;>
      cases ht
    all_goals exact .inr rfl
  case inr.inr.inl =>
    obtain ⟨u, hu, hw⟩ := command_hostWrites w { s with inputs := rest }
    obtain rfl : u = t := Host.Outcome.next.inj (hu.symm.trans ht)
    exact .inr hw.onlyHostWrites.onlyPortWrites
  case inr.inr.inr.inl =>
    exact .inl ⟨rest, fun e es he => (List.cons.inj (hi.symm.trans he)).1.symm, (Host.Outcome.next.inj ht).symm⟩
  case inr.inr.inr.inr => cases ht; exact .inr rfl

/-! ## What a POLL writes -/

theorem OnlyConsumerWrites.trans {s t u : State} (h1 : OnlyConsumerWrites s t) (h2 : OnlyConsumerWrites t u) :
    OnlyConsumerWrites s u := by
  unfold OnlyConsumerWrites at *
  rw [h2, h1]

/-- What the consumer may not write, field by field. -/
theorem onlyConsumerWrites_iff (s t : State) :
    OnlyConsumerWrites s t ↔ t.par = s.par ∧ t.pend = s.pend ∧ t.vtab = s.vtab ∧ t.htab = s.htab ∧ t.run = s.run ∧
      t.ovr = s.ovr ∧ t.cfgerr = s.cfgerr ∧ t.cmderr = s.cmderr ∧ t.readOut = s.readOut ∧ t.draws = s.draws ∧
      t.inputs = s.inputs := by
  cases s; cases t; simp [OnlyConsumerWrites]

theorem pollSlot_onlyConsumerWrites (k : Slot) (s : State) : OnlyConsumerWrites s (pollSlot k s) := by
  unfold pollSlot
  split
  · simp [onlyConsumerWrites_iff]
  · rfl

/-- Settles O52: slot by slot; of the store a pass writes the block alone. -/
theorem pollWritesOnlyConsumerState : Obligations.PollWritesOnlyConsumerState := by
  refine ⟨fun s => ?_, fun s words hlen ch p hp => ?_⟩
  · exact (pollSlot_onlyConsumerWrites .ping s).trans (pollSlot_onlyConsumerWrites .pong _)
  · rw [processPass_store, read_storeBlock_other (hlen ▸ hp)]

/-! ## The latch and the active set -/

/-- Settles O35: the latch is one write of the active set, and a row that exists is the row that is read. -/
theorem latchCopiesPendingAndRows : Obligations.LatchCopiesPendingAndRows := by
  intro s
  refine ⟨?boundary, rfl, by simp [latchedCfg], ?vertical, ?horizontal⟩
  case boundary => simp only [latchIfBoundary, atBoundary_iff]
  case vertical => intro ch row h; simp [latchedCfg, vrow, h]
  case horizontal => intro row h; simp [latchedCfg, hrow, h]

/-- From `s` to `t` the active set is kept, or `t` is at a boundary and holds what a latch in `s` gives. -/
def ActKeptOrLatched (s t : State) : Prop :=
  t.act = s.act ∨ (atBoundary t = true ∧ t.act = latchedCfg s.pend s.vtab s.htab)

theorem publish_actKeptOrLatched (frame : PerChannel Frame) (s : State) : ActKeptOrLatched s (publish frame s) := by
  by_cases ha : s.avgcnt = 0
  · exact .inr ⟨(atBoundary_iff _).2 (by simp [ha]), by simp [publish_act, ha]⟩
  · exact .inl (by rw [publish_act, if_neg ha])

theorem completeIfFull_actKeptOrLatched (s : State) : ActKeptOrLatched s (completeIfFull s) := by
  unfold completeIfFull
  split
  · exact publish_actKeptOrLatched s.framebuf s
  · exact .inl rfl

theorem occurrenceIfFull_actKeptOrLatched (s : State) : ActKeptOrLatched s (occurrenceIfFull s) := by
  unfold occurrenceIfFull occurrenceComplete
  split
  · split
    · exact .inl rfl
    · exact publish_actKeptOrLatched _ (cycleClosed (occurrenceCounted s))
  · exact .inl rfl

theorem startCapture_actKeptOrLatched (T : Nat) (forced : Bool) (s : State) :
    ActKeptOrLatched s (startCapture T forced s) := by
  unfold startCapture
  split
  · exact completeIfFull_actKeptOrLatched (normalStarted T forced s)
  · exact occurrenceIfFull_actKeptOrLatched (occurrenceStarted T forced s)

/-- A code step writes the active set only by a publication, which ends at a boundary (R159, R178). -/
theorem codeStep_actKeptOrLatched (i : Nat) (p : State × Bool) : ActKeptOrLatched p.1 (codeStep i p).1 := by
  unfold codeStep
  split
  case h_1 =>
    show ActKeptOrLatched p.1 (triggerStep i p.1).1
    unfold triggerStep
    split
    · exact startCapture_actKeptOrLatched i false (withMiss 0 p.1)
    · exact .inl rfl
  case h_2 =>
    show ActKeptOrLatched p.1 (fillStep i p.1)
    unfold fillStep
    split
    · exact .inl rfl
    · exact completeIfFull_actKeptOrLatched (pixelFilled i p.1)
  case h_3 =>
    show ActKeptOrLatched p.1 (accumulateStep i p.1)
    unfold accumulateStep
    split
    · exact .inl rfl
    · exact occurrenceIfFull_actKeptOrLatched (pixelAccumulated i p.1)
  all_goals exact .inl rfl

/-- Settles O33: the latch tests for the boundary, and a code step latches only as it publishes. -/
theorem configurationHoldsThroughACycle : Obligations.ConfigurationHoldsThroughACycle :=
  ⟨fun s h => by simp [latchIfBoundary, h], fun i s fired _ => codeStep_actKeptOrLatched i (s, fired)⟩

/-- What holds throughout a POLL that starts with the active set `a`: every latch gives the one set `l`, since the consumer
writes nothing a latch reads, and the active set is `a` or `l`. -/
structure ActAmong (a l : ActiveCfg) (u : State) : Prop where
  latched : latchedCfg u.pend u.vtab u.htab = l
  act : u.act = a ∨ u.act = l

theorem ActAmong.publish {a l : ActiveCfg} {u : State} (h : ActAmong a l u) (frame : PerChannel Frame) :
    ActAmong a l (publish frame u) := by
  refine ⟨by simpa using h.latched, ?_⟩
  obtain he | ⟨-, he⟩ := publish_actKeptOrLatched frame u <;> rw [he]
  · exact h.act
  · exact .inr h.latched

theorem ActAmong.latchIfBoundary {a l : ActiveCfg} {u : State} (h : ActAmong a l u) : ActAmong a l (latchIfBoundary u) := by
  refine ⟨by simpa using h.latched, ?_⟩
  rw [latchIfBoundary_act]
  split
  · exact .inr h.latched
  · exact h.act

theorem ActAmong.onlyCaptureWrites {a l : ActiveCfg} {u v : State} (h : ActAmong a l u) (hw : OnlyCaptureWrites u v) :
    ActAmong a l v := by
  obtain ⟨hrest, -⟩ := hw
  rw [hrest]
  exact ⟨h.latched, h.act⟩

theorem poll_act (s : State) : (poll s).act = s.act ∨ (poll s).act = latchedCfg s.pend s.vtab s.htab :=
  (poll_keeps (P := ActAmong s.act (latchedCfg s.pend s.vtab s.htab)) (fun _ frame h => h.publish frame)
    (fun _ _ hw h => h.onlyCaptureWrites hw) (fun _ h => h.latchIfBoundary) (fun _ _ h => ⟨h.latched, h.act⟩)
    (fun _ _ h => ⟨h.latched, h.act⟩) ⟨rfl, .inl rfl⟩).act

/-- Settles O34: a POLL latches one set throughout, and no other step writes the active set. -/
theorem activeSetIsKeptOrLatched : Obligations.ActiveSetIsKeptOrLatched := by
  intro s t ht
  obtain ⟨rest, -, rfl⟩ | hp := step_poll_or_onlyPortWrites ht
  · exact poll_act { s with inputs := rest }
  · exact .inl (congrArg State.act hp :)

/-! ## Publication -/

/-- The rendered coordinates of a frame, column by column (R190, R192, R196). -/
theorem clamped_traceY (a : ActiveCfg) (ch : Channel) (f : Frame) :
    mapCols (clampY a) (traceY a ch f) = Vector.ofFn fun k : Fin FL => clampY a (mapY a ch f[k]) := by
  apply Vector.ext
  intro k hk
  simp [traceY]

/-- All that a delivered frame writes (R157). -/
theorem deliverFrame_eq (frame : PerChannel Frame) (s : State) :
    deliverFrame frame s =
      let upd : Channel → FreqUpdate := fun ch =>
        freqSetUpdate (s.fset.get ch) (s.fcnt.get ch) (freqEstimate s.act (frame.get ch))
      { s with
        out := s.out ++ publishedRecords s frame
        ry := .tabulate fun ch =>
          if s.act.chen.get ch then Vector.ofFn fun k : Fin FL => clampY s.act (mapY s.act ch (frame.get ch)[k])
          else s.ry.get ch
        ryValid := s.act.chen
        fset := .tabulate fun ch => if s.act.chen.get ch then (upd ch).set else s.fset.get ch
        fcnt := .tabulate fun ch => if s.act.chen.get ch then (upd ch).cnt else s.fcnt.get ch
        lfValid := true
        lfData := frame
        lfChen := s.act.chen
        frameseq := s.frameseq + 1 } := by
  rw [← deliverFrame_out]
  simp only [deliverFrame, viewportMap_eq, measure_eq, ← clamped_traceY]
  rfl

/-- Settles O36: a stopped unit discards the frame, a running one delivers it; then Idle and the latch. -/
theorem publishDeliversOrDiscards : Obligations.PublishDeliversOrDiscards := by
  intro s frame upd draws meas
  obtain hr | hr := Bool.eq_false_or_eq_true s.run
  · have hrecords : s.out ++ publishedRecords (withCState .publishing s) frame =
        s.out ++ [.frame ⟨s.frameseq, s.act.mode, s.act.chen, s.forced, s.trigIdx, frame⟩] ++
          (eraseTrace s .ch1 ++ eraseTrace s .ch2 ++ draws .ch1 ++ draws .ch2).map .seg ++
          (meas .ch1 ++ meas .ch2).map .meas := by
      rw [List.append_assoc, List.append_assoc]
      rfl
    rw [publish_running hr, deliverFrame_eq, if_neg (by simp [hr]), ← hrecords]
    rfl
  · rw [publish_stopped hr, if_pos hr]
    rfl

/-! ## The output streams -/

/-- The output streams of `t` are those of `s` with records appended. -/
def OutExtends (s t : State) : Prop := ∃ r, t.out = s.out ++ r

theorem OutExtends.publish {s u : State} (h : OutExtends s u) (frame : PerChannel Frame) :
    OutExtends s (publish frame u) := by
  obtain ⟨r, hr⟩ := h
  rw [OutExtends, publish_out]
  split
  · exact ⟨r ++ publishedRecords u frame, by rw [hr, List.append_assoc]⟩
  · exact ⟨r, hr⟩

theorem poll_outExtends (s : State) : OutExtends s (poll s) := by
  refine poll_keeps (P := OutExtends s) (fun _ frame h => h.publish frame) (fun u v hw h => ?_) (fun u h => ?_)
    (fun _ _ h => h) (fun _ _ h => h) ⟨[], (List.append_nil _).symm⟩
  · obtain ⟨hrest, -⟩ := hw
    rw [hrest]
    exact h
  · simpa only [OutExtends, latchIfBoundary_out] using h

/-- Settles O39: a POLL appends what it publishes, and no other step writes an output stream. -/
theorem outputsAreAppendOnly : Obligations.OutputsAreAppendOnly := by
  refine ⟨fun p => ⟨rfl, rfl, rfl⟩, fun s t ht => ?_⟩
  obtain ⟨rest, hpoll, rfl⟩ | hp := step_poll_or_onlyPortWrites ht
  · obtain ⟨r, hr⟩ := poll_outExtends { s with inputs := rest }
    refine ⟨⟨r.filterMap OutRecord.frame?, r.filterMap OutRecord.seg?, r.filterMap OutRecord.meas?, ?_⟩, ?_⟩
    · simp only [State.frameOut, State.segOut, State.measOut, hr, List.filterMap_append, and_self]
    · exact fun e es he hne => absurd (hpoll e es he) hne
  · have hout : t.out = s.out := (congrArg State.out hp :)
    exact ⟨⟨[], [], [], by simp [State.frameOut, State.segOut, State.measOut, hout]⟩, fun _ _ _ _ => hout⟩

/-- A publication appends one frame record while running, none while stopped. -/
theorem publish_frameOut (frame : PerChannel Frame) (s : State) :
    (publish frame s).frameOut = if s.run then s.frameOut ++ [frameRecord s frame] else s.frameOut := by
  have hseg : ∀ l : List SegRecord, (l.map OutRecord.seg).filterMap OutRecord.frame? = [] := by
    intro l; simp [List.filterMap_map, Function.comp_def, OutRecord.frame?]
  have hmeas : ∀ l : List MeasRecord, (l.map OutRecord.meas).filterMap OutRecord.frame? = [] := by
    intro l; simp [List.filterMap_map, Function.comp_def, OutRecord.frame?]
  rw [State.frameOut, publish_out]
  split
  · simp only [publishedRecords, List.filterMap_append, List.filterMap_cons, OutRecord.frame?, hseg, hmeas, State.frameOut,
      List.append_nil]
  · rfl

/-- The delivered frame takes the count before it as its number, and the count goes up by one (R39, R90). -/
theorem SequenceNumbered.publish {s : State} (h : SequenceNumbered s) (frame : PerChannel Frame) :
    SequenceNumbered (publish frame s) := by
  obtain ⟨hseq, hrec⟩ := h
  rw [SequenceNumbered, publish_frameseq, publish_frameOut]
  split
  · refine ⟨by rw [hseq, List.length_append, List.length_singleton, BitVec.ofNat_add]; rfl, fun i r hi => ?_⟩
    rw [List.getElem?_append] at hi
    split at hi
    · exact hrec i r hi
    · rename_i hge
      obtain ⟨hlt, rfl⟩ := List.getElem?_eq_some_iff.mp hi
      have hlast : i = s.frameOut.length := by rw [List.length_singleton] at hlt; omega
      rw [List.getElem_singleton, hlast, ← hseq]
      rfl
  · exact ⟨hseq, hrec⟩

theorem SequenceNumbered.congr {s t : State} (h : SequenceNumbered s) (hseq : t.frameseq = s.frameseq)
    (hout : t.out = s.out) : SequenceNumbered t := by
  rw [SequenceNumbered, State.frameOut, hseq, hout]
  exact h

theorem poll_sequenceNumbered {s : State} (h : SequenceNumbered s) : SequenceNumbered (poll s) := by
  refine poll_keeps (P := SequenceNumbered) (fun _ frame h => h.publish frame) (fun u v hw h => ?_)
    (fun u h => h.congr (by simp) (by simp)) (fun _ _ h => h) (fun _ _ h => h) h
  obtain ⟨hrest, -⟩ := hw
  exact h.congr (congrArg State.frameseq hrest :) (congrArg State.out hrest :)

/-- Settles O37: the count and the records' numbers move together, and only in a publication. -/
theorem frameSeqCountsTheFrames : Obligations.FrameSeqCountsTheFrames := by
  refine ⟨fun p => ⟨rfl, fun i r h => by cases h⟩, fun s t h ht => ?_⟩
  obtain ⟨rest, -, rfl⟩ | hp := step_poll_or_onlyPortWrites ht
  · exact poll_sequenceNumbered (s := { s with inputs := rest }) h
  · exact h.congr (congrArg State.frameseq hp :) (congrArg State.out hp :)

/-! ## Average-mode capture -/

theorem mapCols_eq_ofFn {α β : Type} {n : Nat} (f : α → β) (v : Vector α n) :
    mapCols f v = Vector.ofFn fun k : Fin n => f v[k] := by
  apply Vector.ext
  intro k hk
  simp

/-- A pixel counter steps to FL from the last column alone: its 9 bits do not wrap there. -/
theorem toNat_succ_eq_FL_iff (p : BitVec 9) : (p + 1).toNat = FL ↔ p.toNat + 1 = FL := by
  have hp := p.isLt
  rw [BitVec.toNat_add]
  show (p.toNat + 1) % 2 ^ 9 = 319 ↔ p.toNat + 1 = 319
  omega

/-- A sum of at most 65534 occurrences and one more code fits 32 bits (R34, R173). -/
theorem toNat_accumulate {a : BitVec 32} (b : Code) (ha : a.toNat ≤ 65534 * 4095) :
    (backfillAccumulate false a b).toNat = a.toNat + b.toNat ∧
    (backfillAccumulate true a b).toNat = (a.toNat + b.toNat) / 2 ∧ (accumulate a b).toNat = a.toNat + b.toNat := by
  have hb := b.isLt
  have hsum : (a.toNat + b.toNat) % 2 ^ 32 = a.toNat + b.toNat := Nat.mod_eq_of_lt (by omega)
  have hhalf : (a.toNat + b.toNat) / 2 % 2 ^ 32 = (a.toNat + b.toNat) / 2 := Nat.mod_eq_of_lt (by omega)
  simp only [backfillAccumulate, accumulate, BitVec.toNat_ofNat, if_true, Bool.false_eq_true, if_false, hsum, hhalf, and_self]

/-- The writes of START_CAPTURE_AVERAGE (R171): a new cycle forgets whether the last one was forced. -/
theorem occurrenceStarted_eq (T : Nat) (forced : Bool) (s : State) :
    occurrenceStarted T forced s = { s with
      cstate := .accumulating, trigIdx := T, forced := (s.avgcnt != 0 && s.forced) || forced
      acc := .tabulate (backfillAccumulated s T), pix := s.act.pos + 1, skipcnt := s.act.skip } := by
  have hforced : (if s.avgcnt = 0 then false else s.forced) = (s.avgcnt != 0 && s.forced) := by
    by_cases h : s.avgcnt = 0
    · simp [h]
    · rw [if_neg h, bne_iff_ne.mpr h, Bool.true_and]
  rw [← hforced]
  rfl

/-- A forward pixel changes the one column it is added at (R173). -/
theorem accumulateAt_eq_ofFn (v : Vector (BitVec 32) FL) (i : Nat) (b : Code) :
    accumulateAt v i b = Vector.ofFn fun k : Fin FL => if k.val = i then accumulate v[k] b else v[k] := by
  apply Vector.ext
  intro k hk
  rw [accumulateAt, Vector.getElem_setIfInBounds, Vector.getElem_ofFn]
  by_cases h : k = i
  · subst h; simp [Vector.getElem?_eq_getElem hk]
  · simp [h, Ne.symm h]

theorem pixelAccumulated_eq (i : Nat) (s : State) :
    pixelAccumulated i s = { s with
      acc := .tabulate fun ch => Vector.ofFn fun k : Fin FL =>
        if k.val = s.pix.toNat then accumulate (s.acc.get ch)[k] (storeRead s ch i) else (s.acc.get ch)[k]
      pix := s.pix + 1, skipcnt := s.act.skip } := by
  simp only [pixelAccumulated, accumulateAt_eq_ofFn]

/-- OCCURRENCE_COMPLETE by the numbers of its registers: the count does not wrap below A_NUMAVG (R175). -/
theorem occurrenceComplete_eq {s : State} (h : s.avgcnt < s.act.numavg) :
    occurrenceComplete s = if s.avgcnt.toNat + 1 < s.act.numavg.toNat then withCState .idle (occurrenceCounted s)
      else average (occurrenceCounted s) := by
  have hlt : s.avgcnt.toNat < s.act.numavg.toNat := h
  have hmax := s.act.numavg.isLt
  simp only [occurrenceComplete, BitVec.lt_def, toNat_succ (x := s.avgcnt) (by omega)]

/-- Settles O30: the equations of the start, of a code and of the completion, and the sums' range. -/
theorem backfillWeighting : Obligations.BackfillWeighting := by
  refine ⟨fun a b ha => toNat_accumulate b ha, ?start, ?code, ?complete⟩
  case start =>
    intro s T forced base acc t
    have ht : occurrenceStarted T forced s = t := occurrenceStarted_eq T forced s
    have hpix : t.pix.toNat = FL ↔ s.act.pos.toNat + 1 = FL := toNat_succ_eq_FL_iff s.act.pos
    simp only [startCaptureAverage, ht, occurrenceIfFull, hpix]
  case code =>
    intro s i acc t
    have ht : pixelAccumulated i s = t := pixelAccumulated_eq i s
    have hpix : t.pix.toNat = FL ↔ s.pix.toNat + 1 = FL := toNat_succ_eq_FL_iff s.pix
    simp only [accumulateStep, ht, occurrenceIfFull, hpix]
    rfl
  case complete =>
    intro s h
    rw [occurrenceComplete_eq h, average, averagedFrame]
    simp only [mapCols_eq_ofFn]
    rfl

/-! ## The accumulators -/

theorem AccBounded.congr {s t : State} (h : AccBounded s) (hacc : t.acc = s.acc) (hcnt : t.avgcnt = s.avgcnt)
    (hc : t.cstate = s.cstate) (hpix : t.pix = s.pix) : AccBounded t := by
  unfold AccBounded occurrencesAt
  rw [hacc, hcnt, hc, hpix]
  exact h

/-- Clear accumulators are within any bound. -/
theorem accBounded_of_clear {s : State} (h : ∀ ch, s.acc.get ch = Vector.replicate FL 0) : AccBounded s := by
  intro ch k hk
  simp [h ch]

/-- No column has more occurrences than the completed ones and the one in progress. -/
theorem occurrencesAt_le (s : State) (k : Nat) : occurrencesAt s k ≤ s.avgcnt.toNat + 1 := by
  unfold occurrencesAt
  split <;> omega

/-- Between occurrences every entry is within the occurrences completed. -/
theorem AccBounded.of_idle {s : State} (h : AccBounded s) (hc : s.cstate = .idle) (ch : Channel) {k : Nat} (hk : k < FL) :
    ((s.acc.get ch)[k]).toNat ≤ s.avgcnt.toNat * 4095 := by
  simpa [occurrencesAt, hc] using h ch k hk

theorem toNat_accumulate_le (a : BitVec 32) (b : Code) : (accumulate a b).toNat ≤ a.toNat + 4095 := by
  have hb := b.isLt
  have := Nat.mod_le (a.toNat + b.toNat) (2 ^ 32)
  rw [accumulate, BitVec.toNat_ofNat]
  omega

theorem toNat_backfillAccumulate_le (halve : Bool) (a : BitVec 32) (b : Code) :
    (backfillAccumulate halve a b).toNat ≤ a.toNat + 4095 := by
  have hb := b.isLt
  have := Nat.mod_le ((a.toNat + b.toNat) / 2) (2 ^ 32)
  cases halve
  · exact toNat_accumulate_le a b
  · rw [backfillAccumulate, if_pos rfl, BitVec.toNat_ofNat]
    omega

/-- A new occurrence starts from sums of the completed ones alone. -/
theorem occurrenceBase_le {s : State} (h : AccBounded s) (hc : s.cstate = .idle) (ch : Channel) {k : Nat} (hk : k < FL) :
    (((occurrenceBase s).get ch)[k]).toNat ≤ s.avgcnt.toNat * 4095 := by
  unfold occurrenceBase
  split
  · cases ch <;> simp
  · exact h.of_idle hc ch hk

/-- The start of an occurrence adds one code to each column up to the trigger position, which is where PIX then stands. -/
theorem occurrenceStarted_accBounded {s : State} (h : AccBounded s) (hc : s.cstate = .idle) (hpos : s.act.pos.toNat < FL)
    (T : Nat) (forced : Bool) : AccBounded (occurrenceStarted T forced s) := by
  intro ch k hk
  have hbase := occurrenceBase_le h hc ch hk
  have hocc : occurrencesAt (occurrenceStarted T forced s) k =
      s.avgcnt.toNat + if k < s.act.pos.toNat + 1 then 1 else 0 := by
    simp only [occurrencesAt, occurrenceStarted_avgcnt, occurrenceStarted_cstate, occurrenceStarted_pix,
      toNat_pos_succ hpos, true_and]
  rw [hocc]
  simp only [occurrenceStarted_acc, PerChannel.get_tabulate, backfillAccumulated, Vector.getElem_ofFn]
  obtain hlt | heq | hgt := Nat.lt_trichotomy k s.act.pos.toNat
  · have := toNat_backfillAccumulate_le s.act.halve ((occurrenceBase s).get ch)[k]
      (storeRead s ch (backfillIndex s.act T k))
    rw [if_pos hlt, if_pos (by omega)]
    exact this.trans (by omega)
  · have := toNat_accumulate_le ((occurrenceBase s).get ch)[k] (storeRead s ch T)
    rw [if_neg (by omega), if_pos heq, if_pos (by omega)]
    exact this.trans (by omega)
  · rw [if_neg (by omega), if_neg (by omega), if_neg (by omega)]
    exact hbase

/-- A forward pixel adds one code to column PIX, which the occurrence in progress then has reached. -/
theorem pixelAccumulated_accBounded {s : State} (h : AccBounded s) (hc : s.cstate = .accumulating)
    (hpix : s.pix.toNat < FL) (i : Nat) : AccBounded (pixelAccumulated i s) := by
  intro ch k hk
  have hk' := h ch k hk
  have hold : occurrencesAt s k = s.avgcnt.toNat + if k < s.pix.toNat then 1 else 0 := by
    simp only [occurrencesAt, hc, true_and]
  have hnew : occurrencesAt (pixelAccumulated i s) k = s.avgcnt.toNat + if k < s.pix.toNat + 1 then 1 else 0 := by
    simp only [occurrencesAt, pixelAccumulated_avgcnt, pixelAccumulated_cstate, pixelAccumulated_pix,
      toNat_pos_succ hpix, hc, true_and]
  rw [hold] at hk'
  rw [hnew, pixelAccumulated_eq]
  simp only [PerChannel.get_tabulate, Vector.getElem_ofFn]
  obtain hlt | heq | hgt := Nat.lt_trichotomy k s.pix.toNat
  · rw [if_neg (by omega), if_pos (by omega)]
    rwa [if_pos hlt] at hk'
  · have := toNat_accumulate_le ((s.acc.get ch)[k]) (storeRead s ch i)
    rw [if_neg (by omega)] at hk'
    rw [if_pos heq, if_pos (by omega)]
    exact this.trans (by omega)
  · rw [if_neg (by omega), if_neg (by omega)]
    rwa [if_neg (by omega)] at hk'

/-- An occurrence that completes is counted, or ends its cycle with the accumulators cleared (R175, R176). -/
theorem occurrenceIfFull_accBounded {s : State} (h : AccBounded s) (hcnt : s.avgcnt < s.act.numavg) :
    AccBounded (occurrenceIfFull s) := by
  unfold occurrenceIfFull
  split
  · rw [occurrenceComplete_eq hcnt]
    split
    · rename_i hlt
      have hmax := s.act.numavg.isLt
      intro ch k hk
      have hocc : occurrencesAt (withCState .idle (occurrenceCounted s)) k = s.avgcnt.toNat + 1 := by
        simpa [occurrencesAt] using toNat_succ (x := s.avgcnt) (by omega)
      rw [hocc]
      exact (h ch k hk).trans (Nat.mul_le_mul_right _ (occurrencesAt_le s k))
    · refine accBounded_of_clear fun ch => ?_
      rw [average, publish_acc]
      cases ch <;> rfl
  · exact h

/-- A Normal capture leaves the accumulators as they were: clear. -/
theorem completeIfFull_accBounded {s : State} (h : ∀ ch, s.acc.get ch = Vector.replicate FL 0) :
    AccBounded (completeIfFull s) := by
  refine accBounded_of_clear fun ch => ?_
  unfold completeIfFull frameCompleteNormal
  split
  · rw [publish_acc]; exact h ch
  · exact h ch

theorem startCapture_accBounded {s : State} (hi : Inv s) (h : AccBounded s) (hc : s.cstate = .idle) (T : Nat)
    (forced : Bool) : AccBounded (startCapture T forced s) := by
  unfold startCapture
  split
  · rename_i hm
    exact completeIfFull_accBounded (s := normalStarted T forced s) (hi.normal_acc hm)
  · exact occurrenceIfFull_accBounded (occurrenceStarted_accBounded h hc hi.act_legal.pos T forced) hi.avgcnt_lt

theorem codeStep_accBounded {p : State × Bool} (hi : Inv p.1) (h : AccBounded p.1) (i : Nat) :
    AccBounded (codeStep i p).1 := by
  unfold codeStep
  split
  case h_1 hc =>
    show AccBounded (triggerStep i p.1).1
    unfold triggerStep
    split
    · exact startCapture_accBounded (withMiss_inv hi 0) h hc i false
    · exact h
  case h_2 hc =>
    show AccBounded (fillStep i p.1)
    unfold fillStep
    split
    · exact h
    · exact completeIfFull_accBounded (s := pixelFilled i p.1) (hi.normal_acc (hi.filling_normal hc))
  case h_3 hc =>
    show AccBounded (accumulateStep i p.1)
    unfold accumulateStep
    split
    · exact h
    · exact occurrenceIfFull_accBounded (pixelAccumulated_accBounded h hc (hi.pix_high (by simp [hc])) i) hi.avgcnt_lt
  all_goals exact h

theorem codeSteps_accBounded {n b : Nat} {p : State × Bool} (hi : Inv p.1) (h : AccBounded p.1)
    (hb : b + n ≤ p.1.par.cap) : AccBounded (codeSteps b n p).1 := by
  induction n generalizing b p with
  | zero => exact h
  | succ n ih =>
    exact ih (b := b + 1) (codeStep_inv hi (by omega)) (codeStep_accBounded hi h b) (by simp; omega)

theorem missAccount_accBounded {s : State} (h : AccBounded s) (fired : Bool) : AccBounded (missAccount fired s) := by
  unfold missAccount
  split <;> exact h

/-- Free-run starts a capture only from Idle (R134). -/
theorem forceFire_accBounded {s : State} (hi : Inv s) (h : AccBounded s) (fired : Bool) (last : Nat) :
    AccBounded (forceFire fired last s) := by
  unfold forceFire
  split
  · rename_i hforce
    simp only [Bool.and_eq_true, beq_iff_eq] at hforce
    obtain ⟨⟨⟨-, hc⟩, -⟩, -⟩ := hforce
    exact startCapture_accBounded hi h hc last true
  · exact h

theorem processPass_accBounded {s : State} (hi : Inv s) (h : AccBounded s) {words : List RawWord}
    (hlen : words.length = s.par.n) : AccBounded (processPass words s) := by
  have hfit : s.wp + s.par.n ≤ (passLoaded words s).par.cap := by simpa [passLoaded] using block_fits hi
  have hiLoaded : Inv (passLoaded words s) := decodeBlock_inv (latchIfBoundary_inv hi) (by simpa using hlen)
  have hLoaded : AccBounded (passLoaded words s) :=
    h.congr (by simp [passLoaded]) (by simp [passLoaded]) (by simp [passLoaded]) (by simp [passLoaded])
  have hiScanned : Inv (passScanned words s).1 := codeSteps_inv hiLoaded hfit
  have hScanned : AccBounded (passScanned words s).1 := codeSteps_accBounded hiLoaded hLoaded hfit
  exact forceFire_accBounded (missAccount_inv hiScanned _) (missAccount_accBounded hScanned _) _ _

theorem pollSlot_accBounded {s : State} (hi : Inv s) (h : AccBounded s) (k : Slot) : AccBounded (pollSlot k s) := by
  unfold pollSlot
  split
  · exact processPass_accBounded hi h (hi.mbox_length k)
  · exact h

theorem poll_accBounded {s : State} (hi : Inv s) (h : AccBounded s) : AccBounded (poll s) :=
  pollSlot_accBounded (pollSlot_inv hi .ping) (pollSlot_accBounded hi h .ping) .pong

/-- A cycle has at most 65535 occurrences, NumAvg being a 16-bit register, and 65535 · 4095 is below 2^28 (R34). -/
theorem AccBounded.lt {s : State} (h : AccBounded s) (hi : Inv s) (ch : Channel) {k : Nat} (hk : k < FL) :
    ((s.acc.get ch)[k]).toNat < 2 ^ 28 := by
  have hcnt : s.avgcnt.toNat < s.act.numavg.toNat := hi.avgcnt_lt
  have hmax := s.act.numavg.isLt
  have hocc := occurrencesAt_le s k
  calc ((s.acc.get ch)[k]).toNat ≤ occurrencesAt s k * 4095 := h ch k hk
    _ ≤ 65535 * 4095 := Nat.mul_le_mul_right _ (by omega)
    _ < 2 ^ 28 := by decide

/-- Settles O58: each step of a capture adds at most one code to a column, as it adds one occurrence to the column's count. -/
theorem accumulatorsNeverWrap : Obligations.AccumulatorsNeverWrap := by
  refine ⟨fun p => accBounded_of_clear fun ch => by cases ch <;> rfl, fun s t hi h ht => ?_, fun s hi h ch k hk => h.lt hi ch hk⟩
  obtain ⟨rest, -, rfl⟩ | hp := step_poll_or_onlyPortWrites ht
  · exact poll_accBounded (s := { s with inputs := rest }) (hi.of_bookkeeping rfl) h
  · exact h.congr (congrArg State.acc hp :) (congrArg State.avgcnt hp :) (congrArg State.cstate hp :)
      (congrArg State.pix hp :)

/-! ## SKIPCNT above A_SKIP -/

/-- Parameters with blocks of one word: row 0 of the horizontal table decimates by 0, row 1 by 1. -/
def oneWordParams : Params := { Params.common with n := 1, k := 1 }

/-- The machine of log entry 9: Idle after a capture under row 1, so SKIPCNT is 1 as the last pixel left it, with row 0
pending and a block to consume whose code, 0, does not trigger. -/
def lowerSkipPending : State :=
  { State.resetWith oneWordParams with
    act := latchedCfg { resetPending oneWordParams with hscale := 1 } oneWordParams.vtabInit oneWordParams.htabInit
    skipcnt := 1
    mbox := ⟨⟨[0x800], true⟩, ⟨[0], false⟩⟩ }

theorem lowerSkipPending_inv : Inv lowerSkipPending := by
  have hreset : Inv (State.resetWith oneWordParams) := legalParametersStartLegal oneWordParams (by decide)
  have hpend := hreset.pend_legal
  exact { hreset with
    mbox_length := fun k => by cases k <;> rfl
    act_legal := latchedCfg_activeLegal ⟨hpend.vscale, by decide, hpend.pos, hpend.numavg⟩ hreset.vtab_legal hreset.htab_legal
    skip_le := fun h => Bool.noConfusion h }

/-- Refutes O60: the POLL latches row 0, so A_SKIP becomes 0, and leaves SKIPCNT at 1. -/
theorem not_skipcntNeverAboveSkip : ¬ Obligations.SkipcntNeverAboveSkip := by
  intro h
  have hkept : (poll lowerSkipPending).skipcnt ≤ (poll lowerSkipPending).act.skip :=
    h lowerSkipPending _ lowerSkipPending_inv (by decide) rfl
  have hlower : (poll lowerSkipPending).act.skip = 0 := by decide
  have hheld : (poll lowerSkipPending).skipcnt = 1 := by decide
  rw [hlower, hheld] at hkept
  exact absurd hkept (by decide)


/-! ## The read port -/

theorem getLsbD_fieldAt (lo : Nat) {w : Nat} (v : BitVec w) (i : Nat) :
    (fieldAt lo v).getLsbD i = (decide (i < 32) && decide (lo ≤ i) && v.getLsbD (i - lo)) := by
  simp only [fieldAt, BitVec.getLsbD_shiftLeft, BitVec.getLsbD_setWidth]
  by_cases h : i < 32
  · have : i - lo < 32 := by omega
    by_cases hlo : lo ≤ i <;> simp [h, this, hlo]
  · simp [h]

/-- A field reads back from where it is placed. -/
theorem extractLsb'_fieldAt {lo w : Nat} (v : BitVec w) (h : lo + w ≤ 32) : (fieldAt lo v).extractLsb' lo w = v := by
  apply BitVec.eq_of_getLsbD_eq
  intro i hi
  have : lo + i < 32 := by omega
  rw [BitVec.getLsbD_extractLsb', getLsbD_fieldAt, Nat.add_sub_cancel_left]
  simp [hi, this]

theorem getLsbD_fieldAt_apart {lo w i : Nat} (v : BitVec w) (h : i < lo ∨ lo + w ≤ i) :
    (fieldAt lo v).getLsbD i = false := by
  rw [getLsbD_fieldAt]
  obtain h | h := h
  · simp [Nat.not_le_of_lt h]
  · rw [BitVec.getLsbD_of_ge v _ (by omega), Bool.and_false]

/-- A field does not show in bits it does not cover. -/
theorem extractLsb'_fieldAt_apart {lo w start len : Nat} (v : BitVec w) (h : start + len ≤ lo ∨ lo + w ≤ start) :
    (fieldAt lo v).extractLsb' start len = 0#len := by
  apply BitVec.eq_of_getLsbD_eq
  intro i hi
  rw [BitVec.getLsbD_extractLsb', getLsbD_fieldAt_apart v (by omega), Bool.and_false, BitVec.getLsbD_zero]

/-- A flag reads back from where it is placed, and shows in no other bit. -/
theorem getLsbD_bitAt_same {lo : Nat} (b : Bool) (h : lo < 32) : (bitAt lo b).getLsbD lo = b := by
  rw [bitAt, getLsbD_fieldAt]
  simp [h]

theorem getLsbD_bitAt_apart {lo i : Nat} (b : Bool) (h : i < lo ∨ lo + 1 ≤ i) : (bitAt lo b).getLsbD i = false :=
  getLsbD_fieldAt_apart (BitVec.ofBool b) h

theorem extractLsb'_bitAt_apart {lo start len : Nat} (b : Bool) (h : start + len ≤ lo ∨ lo + 1 ≤ start) :
    (bitAt lo b).extractLsb' start len = 0#len :=
  extractLsb'_fieldAt_apart (BitVec.ofBool b) h

/-- A field shows no bit of a mask that has none of its bits. -/
theorem fieldAt_and_eq_zero {lo w : Nat} {m : BitVec 32} (v : BitVec w) (h : ∀ i : Fin w, m.getLsbD (lo + i) = false) :
    fieldAt lo v &&& m = 0#32 := by
  apply BitVec.eq_of_getLsbD_eq
  intro i _
  rw [BitVec.getLsbD_and, BitVec.getLsbD_zero]
  by_cases hi : i < lo ∨ lo + w ≤ i
  · rw [getLsbD_fieldAt_apart v hi, Bool.false_and]
  · obtain ⟨j, rfl⟩ := Nat.exists_eq_add_of_le (show lo ≤ i by omega)
    rw [h ⟨j, by omega⟩, Bool.and_false]

/-- The bits the map does not list read 0, address by address (R45, R46). -/
theorem readPort_and_unlisted (s : State) (a : BitVec 8) : readPort s a &&& ~~~(listedBits a) = 0 := by
  unfold readPort
  split <;> rename_i ha
  case h_24 => exact BitVec.zero_and
  case h_2 | h_3 | h_6 => simp [listedBits, ha]
  all_goals
    simp (disch := decide) only [listedBits, ha, readStatus, trigFields, selFields, halves, bitAt,
      BitVec.and_or_distrib_right, fieldAt_and_eq_zero, BitVec.or_zero]
  all_goals rfl

theorem readPort_beyond (s : State) (a : BitVec 8) (h : 0x17 ≤ a.toNat) : readPort s a = 0 := by
  unfold readPort
  split
  case h_24 => rfl
  all_goals omega

/-- Settles O54: in each word of the map the asked field is read from its own place, and the other fields lie apart from it. -/
theorem readPortShowsTheMap : Obligations.ReadPortShowsTheMap := by
  intro s
  refine ⟨readPort_and_unlisted s, readPort_beyond s, ?status, ?counters, ?trigger, ?selection, ?averaging, ?band, ?timebase⟩
  case counters =>
    refine ⟨fun h => ?_, fun h => ?_, ?_⟩
    · exact Nat.mod_eq_of_lt h
    · exact Nat.mod_eq_of_lt h
    · simp (disch := decide) only [readPort, BitVec.reduceToNat, halves, BitVec.extractLsb'_or, extractLsb'_fieldAt,
        extractLsb'_fieldAt_apart, BitVec.or_zero, BitVec.zero_or, and_self]
  case status | selection | averaging =>
    simp (disch := decide) only [readPort, BitVec.reduceToNat, readStatus, selFields, halves,
      BitVec.extractLsb'_or, extractLsb'_fieldAt, extractLsb'_fieldAt_apart, extractLsb'_bitAt_apart, BitVec.or_zero,
      BitVec.zero_or, BitVec.getLsbD_or, getLsbD_fieldAt_apart, getLsbD_bitAt_same, getLsbD_bitAt_apart, Bool.or_false,
      Bool.false_or, PerChannel.get_ch1, PerChannel.get_ch2, PerSlot.get_ping, PerSlot.get_pong, and_self]
  case trigger | band | timebase =>
    simp (disch := decide) only [readPort, BitVec.reduceToNat, trigFields, halves, BitVec.extractLsb'_or,
      extractLsb'_fieldAt, extractLsb'_fieldAt_apart, BitVec.or_zero, BitVec.zero_or, PerChannel.get_ch1,
      PerChannel.get_ch2, and_self]

end Sys2Proof.Machine
end

section
/-! PROOFS. The scheduler's step and the sample store's read (O8, O20): one equation per kind of scheduled event, and what an
index has to do with the slot it names. -/

namespace Sys2Proof.Machine

/-! ## The scheduler -/

theorem step_of_inputs_nil {s : State} (h : s.inputs = []) : step s = .next (poll s) := by
  simp only [step, nextStep, h]

/-- The scheduler's head event is taken off the list before it runs (R67). -/
theorem step_of_inputs_cons {s : State} {e : Event} {rest : List Event} (h : s.inputs = e :: rest) :
    step s = runEvent e { s with inputs := rest } := by
  simp only [step, nextStep, h]

theorem command_of_decode_ok {w : CmdWord} {i : Instr} (h : decode w = .ok i) (s : State) : command w s = exec i s := by
  simp only [command, h]

theorem command_of_decode_error {w : CmdWord} {e : DecodeError} (h : decode w = .error e) (s : State) :
    command w s = .next (setCmderr s) := by
  simp only [command, h, reservedWord]

theorem decodeTableWord_eq_some {nbits w : Nat} {i : Instr} :
    decodeTableWord nbits w = some i ↔ decode (tableWord nbits w) = .ok i := by
  unfold decodeTableWord
  cases decode (tableWord nbits w) <;> simp

/-- No register of the map shows the schedule (R46). -/
theorem readPort_withInputs (s : State) (rest : List Event) (a : BitVec 8) :
    readPort { s with inputs := rest } a = readPort s a := rfl

/-- A word of the opcode table runs as its command, with the schedule as it was before the word was sent. -/
theorem step_withFetchWord {nbits w : Nat} {i : Instr} (h : decodeTableWord nbits w = some i) (s : State) :
    step (s.withFetchWord nbits w) = exec i s := by
  have hsent : (s.withFetchWord nbits w).inputs = .command (tableWord nbits w) :: s.inputs := rfl
  exact (step_of_inputs_cons hsent).trans (command_of_decode_ok (decodeTableWord_eq_some.1 h) s)

/-- Settles O8: each kind of event at the schedule's head, the empty schedule, and a word sent from the opcode table. -/
theorem stepRunsTheNextEvent : Obligations.StepRunsTheNextEvent := by
  intro s rest
  refine ⟨fun w i hs hw => ?command, fun w e hs hw => ?reserved, fun k ws hs => ?deliver, fun hs => ?poll,
    fun a hs => ?read, step_of_inputs_nil, fun w i hw => step_withFetchWord hw s⟩
  case command => exact (step_of_inputs_cons hs).trans (command_of_decode_ok hw _)
  case reserved => exact (step_of_inputs_cons hs).trans (command_of_decode_error hw _)
  case deliver => exact step_of_inputs_cons hs
  case poll => exact step_of_inputs_cons hs
  case read => rw [step_of_inputs_cons hs, runEvent, readStep, readPort_withInputs]

/-! ## The store's read -/

/-- Two indices a whole number of capacities apart name one slot (R61). -/
theorem physicalSlot_add_mul (cap : Nat) (x m : Int) : physicalSlot cap (x + m * cap) = physicalSlot cap x := by
  rw [physicalSlot, Int.add_mul_emod_self_right, physicalSlot]

/-- Index -1 wraps to the last slot (R61). -/
theorem physicalSlot_neg_one {cap : Nat} (h : 0 < cap) : physicalSlot cap (-1) = cap - 1 := by
  have hlast : (-1 : Int) + 1 * cap = ((cap - 1 : Nat) : Int) := by omega
  rw [← physicalSlot_add_mul cap (-1) 1, hlast, physicalSlot_of_lt (by omega)]

theorem storeRead_resetWith (p : Params) (ch : Channel) (x : Int) : storeRead (State.resetWith p) ch x = 0 := by
  cases ch <;> rfl

/-- Settles O20: indices equal modulo the capacity name one slot, and those in [0, CAP) name themselves. -/
theorem storeReadResolvesModulo : Obligations.StoreReadResolvesModulo := by
  refine ⟨fun s ch x m hcap => ⟨?periodic, ?last, fun hx hlt => ?inRange⟩, storeRead_resetWith⟩
  case periodic => rw [storeRead, physicalSlot_add_mul, storeRead]
  case last => rw [storeRead, physicalSlot_neg_one hcap]
  case inRange =>
    obtain ⟨p, rfl⟩ := Int.eq_ofNat_of_zero_le hx
    rw [storeRead, physicalSlot_of_lt (Int.ofNat_lt.1 hlt), Int.toNat_natCast]

end Sys2Proof.Machine
end

section
/-! PROOFS. The command word (O1-O5): a word's fields under a mask, the decoder against the encoder, the rows of the opcode map,
the reserved encodings. -/

namespace Sys2Proof

/-! ## Fields under a mask -/

section
variable (w u : CmdWord)

theorem opOf_and : opOf (w &&& u) = opOf w &&& opOf u := BitVec.extractLsb'_and
theorem subOf_and : subOf (w &&& u) = subOf w &&& subOf u := BitVec.extractLsb'_and
theorem idxOf_and : idxOf (w &&& u) = idxOf w &&& idxOf u := BitVec.extractLsb'_and
theorem dataOf_and : dataOf (w &&& u) = dataOf w &&& dataOf u := BitVec.extractLsb'_and
theorem posOf_and : posOf (w &&& u) = posOf w &&& posOf u := BitVec.extractLsb'_and
theorem levelOf_and : levelOf (w &&& u) = levelOf w &&& levelOf u := BitVec.extractLsb'_and

end

/-- A mask of ones, in the spelling each field's mask has as a number. -/
theorem and_mask1 (x : BitVec 1) : x &&& 1#1 = x := BitVec.and_allOnes
theorem and_mask4 (x : BitVec 4) : x &&& 15#4 = x := BitVec.and_allOnes
theorem and_mask7 (x : BitVec 7) : x &&& 127#7 = x := BitVec.and_allOnes
theorem and_mask16 (x : BitVec 16) : x &&& 65535#16 = x := BitVec.and_allOnes

/-! ## One-bit operands -/

theorem ofBool_getLsbD (w : CmdWord) (i : Nat) : BitVec.ofBool (w.getLsbD i) = w.extractLsb' i 1 := by
  apply BitVec.eq_of_getLsbD_eq
  intro j hj
  obtain rfl : j = 0 := by omega
  simp

theorem channelBit_channelOfBit (b : Bool) : channelBit (channelOfBit b) = BitVec.ofBool b := by cases b <;> rfl
theorem edgeBit_edgeOfBit (b : Bool) : edgeBit (edgeOfBit b) = BitVec.ofBool b := by cases b <;> rfl
theorem modeBit_modeOfBit (b : Bool) : modeBit (modeOfBit b) = BitVec.ofBool b := by cases b <;> rfl

theorem channelBit_chOf (w : CmdWord) : channelBit (chOf w) = w.extractLsb' 23 1 := by
  rw [chOf, channelBit_channelOfBit, ofBool_getLsbD]

/-- `DATA[0]` is DATA with every other bit cleared. -/
theorem setWidth_flagOf (w : CmdWord) : (BitVec.ofBool (flagOf w)).setWidth 16 = dataOf w &&& 1#16 := by
  apply BitVec.eq_of_getLsbD_eq
  intro i _
  cases i with
  | zero => simp [flagOf, dataOf]
  | succ i => simp [BitVec.getLsbD_one]

/-- `DATA[2:0]` is DATA with every other bit cleared. -/
theorem setWidth_maskOf (w : CmdWord) : (maskOf w).setWidth 16 = dataOf w &&& 7#16 := by
  have h7 : (7#16).toNat = 2 ^ 3 - 1 := rfl
  apply BitVec.eq_of_toNat_eq
  rw [BitVec.toNat_and, h7, Nat.and_two_pow_sub_one_eq_mod, BitVec.toNat_setWidth, maskOf, dataOf, toNat_field, toNat_field]
  omega

/-! ## A word from its fields -/

/-- A word of format R is made of its five fields (R84). -/
theorem formatR_fields (w : CmdWord) : formatR (opOf w) (subOf w) (w.extractLsb' 23 1) (idxOf w) (dataOf w) = w := by
  apply BitVec.eq_of_toNat_eq
  have := w.isLt
  simp only [toNat_formatR, opOf, subOf, idxOf, dataOf, toNat_field]
  omega

/-- A word of format T is made of its fields when its ignored bits are 0 (R85). -/
theorem formatT_fields {w : CmdWord} (hop : opOf w = 2#4) (h25 : w.extractLsb' 25 1 = 0#1) (h12 : w.extractLsb' 12 4 = 0#4) :
    formatT (w.extractLsb' 27 1) (w.extractLsb' 26 1) (posOf w) (levelOf w) = w := by
  apply BitVec.eq_of_toNat_eq
  have := w.isLt
  have hop' : w.toNat / 2 ^ 28 % 2 ^ 4 = 2 := by rw [← toNat_field]; exact congrArg BitVec.toNat hop
  have h25' : w.toNat / 2 ^ 25 % 2 ^ 1 = 0 := by rw [← toNat_field]; exact congrArg BitVec.toNat h25
  have h12' : w.toNat / 2 ^ 12 % 2 ^ 4 = 0 := by rw [← toNat_field]; exact congrArg BitVec.toNat h12
  simp only [toNat_formatT, posOf, levelOf, toNat_field]
  omega

/-- A word under a mask that keeps OP and SUB is the word of format R with its other fields masked. -/
theorem formatR_eq_and {op sub : BitVec 4} {ch : BitVec 1} {idx : BitVec 7} {data : BitVec 16} {w u : CmdWord}
    (hop : (opOf w).toNat = op.toNat) (hsub : (subOf w).toNat = sub.toNat) (hopu : opOf u = 15#4) (hsubu : subOf u = 15#4)
    (hch : ch = w.extractLsb' 23 1 &&& u.extractLsb' 23 1) (hidx : idx = idxOf w &&& idxOf u)
    (hdata : data = dataOf w &&& dataOf u) : formatR op sub ch idx data = w &&& u := by
  have hop' : opOf w = op := BitVec.eq_of_toNat_eq hop
  have hsub' : subOf w = sub := BitVec.eq_of_toNat_eq hsub
  rw [← formatR_fields (w &&& u), opOf_and, subOf_and, idxOf_and, dataOf_and, BitVec.extractLsb'_and, hopu, hsubu, and_mask4,
    and_mask4, hop', hsub', hch, hidx, hdata]

/-- A word of the one row of format T, its ignored bits [25] and [15:12] cleared, is the encoded word of its fields. -/
theorem encode_setTrigger_fields {w : CmdWord} (hop : (opOf w).toNat = 2) :
    encode (.setTrigger (levelOf w) (posOf w) (edgeOf w) (srcOf w)) = w &&& 0xFDFF0FFF := by
  have hop' : opOf (w &&& 0xFDFF0FFF) = 2#4 :=
    (opOf_and w _).trans ((and_mask4 _).trans (BitVec.eq_of_toNat_eq hop))
  have h25 : (w &&& 0xFDFF0FFF).extractLsb' 25 1 = 0#1 := BitVec.extractLsb'_and.trans BitVec.and_zero
  have h12 : (w &&& 0xFDFF0FFF).extractLsb' 12 4 = 0#4 := BitVec.extractLsb'_and.trans BitVec.and_zero
  have h27 : (w &&& 0xFDFF0FFF).extractLsb' 27 1 = w.extractLsb' 27 1 := BitVec.extractLsb'_and.trans (and_mask1 _)
  have h26 : (w &&& 0xFDFF0FFF).extractLsb' 26 1 = w.extractLsb' 26 1 := BitVec.extractLsb'_and.trans (and_mask1 _)
  have hpos : posOf (w &&& 0xFDFF0FFF) = posOf w := (posOf_and w _).trans BitVec.and_allOnes
  have hlevel : levelOf (w &&& 0xFDFF0FFF) = levelOf w := (levelOf_and w _).trans BitVec.and_allOnes
  rw [← formatT_fields hop' h25 h12, h27, h26, hpos, hlevel, encode, edgeOf, srcOf, edgeBit_edgeOfBit,
    channelBit_channelOfBit, ofBool_getLsbD, ofBool_getLsbD]

/-! ## The decoder against the encoder -/

/-- The decoder reads back what the encoder wrote (R84-R86). -/
theorem decode_encode (i : Instr) : decode (encode i) = .ok i := by
  cases i with
  | setTrigger level pos edge src =>
    simp only [encode, decode, opOf_formatT, posOf_formatT, levelOf_formatT, edgeOf_formatT, srcOf_formatT,
      edgeOfBit_edgeBit, channelOfBit_channelBit, BitVec.reduceToNat, BitVec.ofNat_eq_ofNat]
  | _ =>
    simp only [encode, decode, opOf_formatR, subOf_formatR, idxOf_formatR, dataOf_formatR, chOf_formatR, flagOf_formatR,
      maskOf_formatR, channelOfBit_channelBit, getLsbD_flagData, modeOfBit_modeBit, extract_mask, BitVec.reduceToNat,
      BitVec.ofNat_eq_ofNat]

theorem encode_injective {i j : Instr} (h : encode i = encode j) : i = j := by
  have hij : (.ok i : Except DecodeError Instr) = .ok j := by rw [← decode_encode i, h, decode_encode j]
  exact Except.ok.inj hij

namespace Machine

/-- Every command uses the whole of OP. -/
theorem opOf_usedBits (i : Instr) : opOf (usedBits i) = 15#4 := by
  cases i <;> simp only [usedBits] <;> decide

/-- A word that decodes is the encoded word of its command but for the ignored bits (R89). -/
theorem encode_of_decode {w : CmdWord} {i : Instr} (h : decode w = .ok i) : encode i = w &&& usedBits i := by
  unfold decode at h
  split at h
  case h_9 hop => cases h; exact encode_setTrigger_fields hop
  case h_23 => cases h
  all_goals
    rename_i hop hsub
    cases h
    simp only [usedBits]
    refine formatR_eq_and hop hsub rfl rfl ?_ ?_ ?_
  all_goals
    simp [idxOf, dataOf, channelBit_chOf, modeBit_modeOfBit, flagData, setWidth_flagOf, setWidth_maskOf, and_mask1, and_mask7,
      and_mask16]

/-- A word with the used bits of an encoded command decodes, and to a command of the same row. -/
theorem exists_decode_of_used {w : CmdWord} {i : Instr} (h : encode i = w &&& usedBits i) :
    ∃ j, decode w = .ok j ∧ usedBits j = usedBits i := by
  have hop : opOf w = opOf (encode i) := by rw [h, opOf_and, opOf_usedBits, and_mask4]
  have hsub (hu : subOf (usedBits i) = 15#4) : subOf w = subOf (encode i) := by rw [h, subOf_and, hu, and_mask4]
  cases i with
  | setTrigger level pos edge src =>
    refine ⟨_, by rw [decode, hop, encode, opOf_formatT]; rfl, ?_⟩
    rfl
  | _ =>
    have hsub' := hsub (by simp only [usedBits]; decide)
    refine ⟨_, by rw [decode, hop, hsub', encode, opOf_formatR, subOf_formatR]; rfl, ?_⟩
    rfl

/-- A word decodes to a command exactly when its used bits are the command's encoded word. -/
theorem decode_eq_ok_iff {w : CmdWord} {i : Instr} : decode w = .ok i ↔ encode i = w &&& usedBits i := by
  refine ⟨encode_of_decode, fun h => ?_⟩
  obtain ⟨j, hj, hused⟩ := exists_decode_of_used h
  have hij : encode j = encode i := by rw [encode_of_decode hj, hused, h]
  rw [hj, encode_injective hij]

/-- Settles O1: the decoder reads back what the encoder writes, and masks by its command's used bits. -/
theorem encodeAndDecodeAgree : Obligations.EncodeAndDecodeAgree :=
  ⟨decode_encode, fun _ _ => encode_of_decode⟩

/-! ## The rows of the opcode map -/

/-- A word that matches a row of format R has the row's OP and SUB. -/
theorem op_sub_of_accepts {w v : CmdWord} {m : String} (h : OpcodeRow.accepts ⟨m, 0xFF000000, v⟩ w = true) :
    opOf w = opOf v ∧ subOf w = subOf v := by
  have hv : w &&& 0xFF000000 = v := beq_iff_eq.1 h
  have hop : opOf (w &&& 0xFF000000) = opOf w := (opOf_and w _).trans (and_mask4 _)
  have hsub : subOf (w &&& 0xFF000000) = subOf w := (subOf_and w _).trans (and_mask4 _)
  rw [← hop, ← hsub, hv]
  exact ⟨rfl, rfl⟩

/-- A word that matches the row of format T has the row's OP. -/
theorem op_of_accepts {w v : CmdWord} {m : String} (h : OpcodeRow.accepts ⟨m, 0xF0000000, v⟩ w = true) :
    opOf w = opOf v := by
  have hv : w &&& 0xF0000000 = v := beq_iff_eq.1 h
  have hop : opOf (w &&& 0xF0000000) = opOf w := (opOf_and w _).trans (and_mask4 _)
  rw [← hop, hv]

/-- A word that matches a row decodes to the row's command (R86). -/
theorem decode_of_accepts {w : CmdWord} {r : OpcodeRow} (hr : r ∈ opcodeMap) (h : r.accepts w = true) :
    ∃ i, decode w = .ok i ∧ i.mnemonic = r.mnemonic := by
  simp only [opcodeMap, List.cons_append, List.nil_append, List.mem_cons, List.not_mem_nil, or_false] at hr
  obtain rfl | rfl | rfl | rfl | rfl | rfl | rfl | rfl | rfl | rfl | rfl | rfl | rfl | rfl | rfl | rfl | rfl | rfl | rfl |
    rfl | rfl | rfl := hr
  on_goal 9 =>
    have hop := op_of_accepts h
    refine ⟨_, by rw [decode, hop]; rfl, ?_⟩
    rfl
  all_goals
    obtain ⟨hop, hsub⟩ := op_sub_of_accepts h
    refine ⟨_, by rw [decode, hop, hsub]; rfl, ?_⟩
    rfl

/-- Any two rows differ in a bit that both masks cover. -/
theorem opcodeMap_apart : ∀ r ∈ opcodeMap, ∀ r' ∈ opcodeMap, r.value &&& r'.mask = r'.value &&& r.mask → r = r' := by
  decide

theorem accepts_unique {w : CmdWord} {r r' : OpcodeRow} (hr : r ∈ opcodeMap) (hr' : r' ∈ opcodeMap)
    (h : r.accepts w = true) (h' : r'.accepts w = true) : r = r' := by
  have hv : w &&& r.mask = r.value := beq_iff_eq.1 h
  have hv' : w &&& r'.mask = r'.value := beq_iff_eq.1 h'
  refine opcodeMap_apart r hr r' hr' ?_
  rw [← hv, ← hv', BitVec.and_assoc, BitVec.and_assoc, BitVec.and_comm r.mask]

/-- A command's row masks used bits only. -/
theorem mask_and_usedBits (i : Instr) : ∀ r ∈ opcodeMap, r.mnemonic = i.mnemonic → r.mask &&& usedBits i = r.mask := by
  cases i <;> simp only [Instr.mnemonic, usedBits] <;> decide

/-- The encoded word of every command matches a row of its mnemonic. -/
theorem inItsRow : (i : Instr) → Laws.InItsRow.Statement i
  | .nop => Laws.InItsRow.nop
  | .calibrate => Laws.InItsRow.calibrate
  | .setRun run => Laws.InItsRow.setRun run
  | .setMode mode => Laws.InItsRow.setMode mode
  | .clearStatus mask => Laws.InItsRow.clearStatus mask
  | .setVscale ch idx => Laws.InItsRow.setVscale ch idx
  | .setHscale idx => Laws.InItsRow.setHscale idx
  | .setChen ch en => Laws.InItsRow.setChen ch en
  | .setTrigger level pos edge src => Laws.InItsRow.setTrigger level pos edge src
  | .loadVdiv idx data => Laws.InItsRow.loadVdiv idx data
  | .loadVmvpp idx data => Laws.InItsRow.loadVmvpp idx data
  | .loadVmid ch idx data => Laws.InItsRow.loadVmid ch idx data
  | .loadHskip idx data => Laws.InItsRow.loadHskip idx data
  | .loadHsppn idx data => Laws.InItsRow.loadHsppn idx data
  | .loadHsppd idx data => Laws.InItsRow.loadHsppd idx data
  | .setYmin data => Laws.InItsRow.setYmin data
  | .setYmax data => Laws.InItsRow.setYmax data
  | .setNumavg data => Laws.InItsRow.setNumavg data
  | .setHalve halve => Laws.InItsRow.setHalve halve
  | .setFrThresh data => Laws.InItsRow.setFrThresh data
  | .setFrCap data => Laws.InItsRow.setFrCap data
  | .setFrEn en => Laws.InItsRow.setFrEn en

/-- A word that decodes matches its command's row: ignored bits lie outside the row's mask. -/
theorem accepts_of_decode {w : CmdWord} {i : Instr} (h : decode w = .ok i) :
    ∃ r ∈ opcodeMap, r.accepts w = true ∧ r.mnemonic = i.mnemonic := by
  obtain ⟨r, hr, hm, hacc⟩ := inItsRow i
  have hvalue : encode i &&& r.mask = r.value := beq_iff_eq.1 hacc
  refine ⟨r, hr, beq_iff_eq.2 ?_, hm⟩
  rw [← hvalue, encode_of_decode h, BitVec.and_assoc, BitVec.and_comm (usedBits i), mask_and_usedBits i r hr hm]

/-- Settles O2: rows lie apart, and a match of a row and a command of its mnemonic go together. -/
theorem everyWordMatchesOneRowOrNone : Obligations.EveryWordMatchesOneRowOrNone := fun _ =>
  ⟨fun _ hr _ hr' => accepts_unique hr hr', fun _ => decode_of_accepts, fun _ => accepts_of_decode⟩

/-! ## Ignored bits and reserved words -/

/-- No command sets CMDERR (R305). -/
theorem exec_cmderr {s t : State} {i : Instr} (ht : exec i s = .next t) (hs : s.cmderr = false) : t.cmderr = false := by
  have hv (idx : BitVec 7) (bad : Bool) (f : VRow → VRow) : (loadVrow idx bad f s).cmderr = false := by
    obtain ⟨-, h⟩ | ⟨-, -, h⟩ := loadVrow_cases idx bad f s <;> rw [h] <;> exact hs
  have hh (idx : BitVec 7) (bad : Bool) (f : HRow → HRow) : (loadHrow idx bad f s).cmderr = false := by
    obtain ⟨-, h⟩ | ⟨-, -, h⟩ := loadHrow_cases idx bad f s <;> rw [h] <;> exact hs
  cases i with
  | calibrate =>
    cases ht
    split
    · rw [calibrateChannel_cmderr, calibrateChannel_cmderr, hs]
    · exact hs
  | clearStatus mask => cases ht; rw [clearSticky_cmderr, hs, Bool.false_and]
  | setNumavg data => cases ht; split <;> exact hs
  | loadVdiv | loadVmvpp | loadVmid => cases ht; exact hv ..
  | loadHskip | loadHsppn | loadHsppd => cases ht; exact hh ..
  | _ => cases ht; exact hs

/-- Settles O3: the used bits alone decide the command, and the encoder writes no others. -/
theorem ignoredBitsHaveNoEffect : Obligations.IgnoredBitsHaveNoEffect := by
  refine ⟨fun w w' i hw hused => ?_, fun i => ?_⟩
  · have hw' : decode w' = .ok i := decode_eq_ok_iff.2 ((encode_of_decode hw).trans hused)
    refine ⟨hw', fun s => ⟨?_, fun t ht hs => ?_⟩⟩
    · rw [command_of_decode_ok hw', command_of_decode_ok hw]
    · rw [command_of_decode_ok hw'] at ht
      exact exec_cmderr ht hs
  · rw [encode_of_decode (decode_encode i), BitVec.and_assoc, BitVec.and_not_self]
    exact BitVec.and_zero

/-- The decoder refuses a word exactly when its OP and SUB are among those R88 lists. -/
theorem decode_error_iff (w : CmdWord) :
    (∃ e, decode w = .error e) ↔ reservedEncoding (opOf w).toNat (subOf w).toNat = true := by
  unfold decode
  split
  case h_23 =>
    simp only [reservedEncoding, Bool.or_eq_true, Bool.and_eq_true, decide_eq_true_eq, beq_iff_eq]
    exact ⟨fun _ => by grind, fun _ => ⟨_, rfl⟩⟩
  all_goals simp [*, reservedEncoding]

/-- Settles O4: OP and SUB decide, and a refused word sets CMDERR alone. -/
theorem reservedWordsSetOnlyCmderr : Obligations.ReservedWordsSetOnlyCmderr := by
  intro w
  have hop : (opOf w).toNat = w.toNat / 2 ^ 28 := by
    have := w.isLt
    rw [opOf, toNat_field]
    omega
  have hsub : (subOf w).toNat = w.toNat / 2 ^ 24 % 16 := toNat_field w 24 4
  rw [← hop, ← hsub]
  refine ⟨decode_error_iff w, fun hres s => ?_⟩
  obtain ⟨e, he⟩ := (decode_error_iff w).2 hres
  exact command_of_decode_error he s

/-- Settles O5: eleven closed words each way. -/
theorem specEncodingExamples : Obligations.SpecEncodingExamples := by
  unfold Obligations.SpecEncodingExamples
  decide

end Machine
end Sys2Proof
end

section
/-! PROOFS. The assembler (O6, O7) and the Sample Decoder's field (O18): what a line's operand must fit and what number its
field then holds; the STEP forms; offset binary. -/

namespace Sys2Proof.Machine

/-! ## Operands of a line -/

/-- The field `x` of an operand for which the assembler's check answers `fits`: the check is the bound `P`, and within it the
field holds what `Q` says (R87, R93). -/
def OperandOk {α : Type} (fits : Bool) (x : α) (P : Prop) (Q : α → Prop) : Prop := (fits = true ↔ P) ∧ (P → Q x)

theorem toNat_ofInt {w : Nat} {v : Int} (h0 : 0 ≤ v) (hlt : v < 2 ^ w) : ((BitVec.ofInt w v).toNat : Int) = v := by
  have hlt' : v < (2 ^ w : Nat) := by exact_mod_cast hlt
  rw [BitVec.toNat_ofInt, Int.toNat_of_nonneg (Int.emod_nonneg _ (by omega)), Int.emod_eq_of_lt h0 hlt']

/-- An operand of an unsigned field of `w` bits. -/
theorem operandOk_unsigned (w : Nat) {max : Int} (hmax : max + 1 = 2 ^ w) (v : Int) :
    OperandOk (fitsUnsigned w v) (BitVec.ofInt w v) (0 ≤ v ∧ v ≤ max) fun x => (x.toNat : Int) = v := by
  refine ⟨?_, fun ⟨h0, hle⟩ => toNat_ofInt h0 (by omega)⟩
  rw [fitsUnsigned, Bool.and_eq_true, decide_eq_true_eq, decide_eq_true_eq, ← hmax, Int.lt_add_one_iff]

/-- An operand of the signed DATA field. -/
theorem operandOk_signed16 (v : Int) :
    OperandOk (fitsSigned16 v) (BitVec.ofInt 16 v) (-32768 ≤ v ∧ v ≤ 32767) fun y => y.toInt = v := by
  refine ⟨?_, fun ⟨hlo, hhi⟩ => BitVec.toInt_ofInt_eq_self (by decide) hlo (Int.lt_add_one_of_le hhi)⟩
  rw [fitsSigned16, Bool.and_eq_true, decide_eq_true_eq, decide_eq_true_eq]

/-- A 1-bit operand. -/
theorem operandOk_flag (v : Int) :
    OperandOk (fitsUnsigned 1 v) (lineFlag v) (0 ≤ v ∧ v ≤ 1) fun b => b = true ↔ v = 1 :=
  ⟨(operandOk_unsigned 1 rfl v).1, fun _ => beq_iff_eq⟩

/-- An assembled line decodes to its command, so only its check and its command are left to compare (R93). -/
theorem assemblesTo_of_instr {l : Line} {fits : Prop} {means : Instr → Prop} (hfits : l.wellFormed = true ↔ fits)
    (hmeans : fits → means l.instr) : AssemblesTo l fits means := by
  unfold AssemblesTo assemble
  by_cases h : l.wellFormed = true
  · have hf : fits := hfits.1 h
    rw [if_pos h]
    refine ⟨⟨fun _ => hf, fun _ => ⟨_, rfl⟩⟩, fun w hw => ⟨l.instr, ?_, hmeans hf⟩⟩
    rw [← Option.some.inj hw, decode_encode]
  · rw [if_neg h]
    exact ⟨⟨fun ⟨_, hw⟩ => absurd hw (Option.some_ne_none _).symm, fun hf => absurd (hfits.2 hf) h⟩,
      fun _ hw => absurd hw (Option.some_ne_none _).symm⟩

theorem assemblesTo_none {l : Line} {i : Instr} (hwf : l.wellFormed = true) (hi : l.instr = i) :
    AssemblesTo l True (· = i) := assemblesTo_of_instr (iff_of_true hwf trivial) fun _ => hi

theorem assemblesTo_one {α : Type} {l : Line} {c : α → Instr} {fits : Bool} {x : α} {P : Prop} {Q : α → Prop}
    (hx : OperandOk fits x P Q) (hwf : l.wellFormed = fits) (hi : l.instr = c x) :
    AssemblesTo l P fun i => ∃ x, i = c x ∧ Q x := by
  obtain ⟨hfits, hval⟩ := hx
  exact assemblesTo_of_instr (hwf ▸ hfits) fun hP => ⟨x, hi, hval hP⟩

theorem assemblesTo_two {α β : Type} {l : Line} {c : α → β → Instr} {fits fits' : Bool} {x : α} {y : β} {P P' : Prop}
    {Q : α → Prop} {Q' : β → Prop} (hx : OperandOk fits x P Q) (hy : OperandOk fits' y P' Q')
    (hwf : l.wellFormed = (fits && fits')) (hi : l.instr = c x y) :
    AssemblesTo l (P ∧ P') fun i => ∃ x y, i = c x y ∧ Q x ∧ Q' y := by
  obtain ⟨hfits, hval⟩ := hx
  obtain ⟨hfits', hval'⟩ := hy
  refine assemblesTo_of_instr ?_ fun ⟨hP, hP'⟩ => ⟨x, y, hi, hval hP, hval' hP'⟩
  rw [hwf, Bool.and_eq_true, hfits, hfits']

/-- Settles O6: each line of no, one or two checked operands, by the kind of each operand. -/
theorem assembledLineDecodesToItsOperands : Obligations.AssembledLineDecodesToItsOperands := by
  have idx := operandOk_unsigned 7 (max := 127) rfl
  have data := operandOk_unsigned 16 (max := 65535) rfl
  refine ⟨⟨assemblesTo_none rfl rfl, assemblesTo_none rfl rfl, fun v => assemblesTo_one (operandOk_flag v) rfl rfl,
      fun m => assemblesTo_none rfl rfl, fun v => assemblesTo_one (operandOk_unsigned 3 rfl v) rfl rfl⟩,
    ⟨fun ch n => assemblesTo_one (idx n) rfl rfl, fun n => assemblesTo_one (idx n) rfl rfl,
      fun ch v => assemblesTo_one (operandOk_flag v) rfl rfl,
      fun l p e ch => assemblesTo_two (c := fun x y => .setTrigger x y e ch) (operandOk_unsigned 12 rfl l)
        (operandOk_unsigned 9 rfl p) rfl rfl⟩,
    fun n v => ⟨?vdiv, ?vmvpp, fun ch => ?vmid, ?hskip, ?hsppn, ?hsppd⟩,
    fun v => ⟨?ymin, ?ymax, ?numavg, ?halve, ?frThresh, ?frCap, ?frEn⟩⟩
  case vdiv | vmvpp | hskip | hsppn | hsppd => exact assemblesTo_two (idx n) (data v) rfl rfl
  case vmid => exact assemblesTo_two (idx n) (operandOk_signed16 v) rfl rfl
  case ymin | ymax => exact assemblesTo_one (operandOk_signed16 v) rfl rfl
  case numavg | frThresh | frCap => exact assemblesTo_one (data v) rfl rfl
  case halve | frEn => exact assemblesTo_one (operandOk_flag v) rfl rfl

/-! ## The STEP forms -/

/-- An index within the table is not clamped (R267, R268). -/
theorem clampIndex_of_lt {idx : BitVec 7} {rows : Nat} (h : idx.toNat < rows) : clampIndex idx rows = idx := by
  rw [clampIndex, Nat.min_eq_left (by omega), BitVec.ofNat_toNat, BitVec.setWidth_eq]

/-- A stepped index lies in its table (R94). -/
theorem steppedIndex_mem {rows : Nat} (h : 0 < rows) (cur : BitVec 7) (up : Bool) :
    0 ≤ steppedIndex cur up rows ∧ steppedIndex cur up rows < rows := by
  unfold steppedIndex clampInt
  omega

/-- The operand of a STEP form fits IDX, and the field holds a row of the table (R9: at most 128 rows). -/
theorem steppedIndex_field {rows : Nat} (h0 : 0 < rows) (h128 : rows ≤ 128) (cur : BitVec 7) (up : Bool) :
    fitsUnsigned 7 (steppedIndex cur up rows) = true ∧
    ((BitVec.ofInt 7 (steppedIndex cur up rows)).toNat : Int) = steppedIndex cur up rows ∧
    clampIndex (BitVec.ofInt 7 (steppedIndex cur up rows)) rows = BitVec.ofInt 7 (steppedIndex cur up rows) := by
  obtain ⟨hlo, hhi⟩ := steppedIndex_mem h0 cur up
  obtain ⟨hfits, hval⟩ := operandOk_unsigned 7 (max := 127) rfl (steppedIndex cur up rows)
  have hbound : 0 ≤ steppedIndex cur up rows ∧ steppedIndex cur up rows ≤ 127 := by omega
  refine ⟨hfits.2 hbound, hval hbound, clampIndex_of_lt ?_⟩
  have := hval hbound
  omega

/-- A legal state has between 1 and 128 rows in each table (R9, R48). -/
theorem Inv.rows_bounds {s : State} (h : Inv s) : (0 < s.nv ∧ s.nv ≤ 128) ∧ 0 < s.nh ∧ s.nh ≤ 128 := by
  obtain ⟨-, -, hv1, hv128, -, hh1, hh128, -, -⟩ := (Params.legal_iff s.par).1 h.params
  rw [h.vtab_length, h.htab_length]
  exact ⟨⟨hv1, hv128⟩, hh1, hh128⟩

/-- A pseudo-command of one line that assembles is issued as that line's word. -/
theorem events_of_expand {s : State} {p : Pseudo} {l : Line} (hexp : p.expand s = [l]) (hwf : l.wellFormed = true) :
    (ProgLine.pseudo p).events s = some [.command (encode l.instr)] := by
  simp [ProgLine.events, hexp, assemble, hwf]

/-- Settles O7: the expansions by definition; a STEP form's operand is a row of the table, so neither the assembler refuses
it nor the command clamps it. -/
theorem pseudoCommandsExpand : Obligations.PseudoCommandsExpand := by
  refine ⟨fun _ _ _ _ _ _ => ⟨rfl, rfl, rfl, rfl, rfl, rfl, rfl⟩, fun s ch up hs => ?_⟩
  obtain ⟨⟨hv0, hv128⟩, hh0, hh128⟩ := hs.rows_bounds
  obtain ⟨hvfits, hvval, hvclamp⟩ := steppedIndex_field hv0 hv128 (s.pend.vscale.get ch) up
  obtain ⟨hhfits, hhval, hhclamp⟩ := steppedIndex_field hh0 hh128 s.pend.hscale up
  refine ⟨⟨_, _, events_of_expand rfl hvfits, ?vscale, hvval⟩, ⟨_, _, events_of_expand rfl hhfits, ?hscale, hhval⟩⟩
  case vscale =>
    rw [command_of_decode_ok (decode_encode _)]
    simp only [Line.instr, exec, execSetVscale, hvclamp, withPending]
  case hscale =>
    rw [command_of_decode_ok (decode_encode _)]
    simp only [Line.instr, exec, execSetHscale, hhclamp, withPending]

/-! ## Offset binary -/

/-- The sign and magnitude algorithm adds 2048 modulo 4096 (R110). -/
theorem toNat_decodeField (f : BitVec 12) : (decodeField f).toNat = (f.toNat + 2048) % 4096 := by
  have hf := f.isLt
  have hmag : (f.extractLsb' 0 11).toNat = f.toNat % 2048 := by simp
  have hnot : (~~~f.extractLsb' 0 11).toNat = 2047 - f.toNat % 2048 := by rw [BitVec.toNat_not, hmag]
  have hsign : f.getLsbD 11 = decide (f.toNat / 2 ^ 11 % 2 = 1) := getLsbD_eq f 11
  simp only [decodeField, hsign, hmag, hnot, decide_eq_true_eq]
  split <;> simp only [BitVec.toNat_ofNat] <;> omega

theorem toNat_append_low (a : BitVec 1) (m : BitVec 11) : (a ++ m).toNat = a.toNat * 2 ^ 11 + m.toNat := by
  rw [BitVec.toNat_append, ← Nat.shiftLeft_add_eq_or_of_lt m.isLt, Nat.shiftLeft_eq]

/-- In the sign bit alone, a sum is an exclusive or: the carry out of it is lost. -/
theorem append_xor_signBit (a : BitVec 1) (m : BitVec 11) : (a ++ m) ^^^ 0x800#12 = (a ++ m) + 0x800#12 :=
  calc (a ++ m) ^^^ 0x800#12 = (a ^^^ 1#1) ++ (m ^^^ 0#11) := BitVec.xor_append (x₂ := 1#1) (y₂ := 0#11)
    _ = (a + 1#1) ++ m := by rw [BitVec.add_eq_xor, BitVec.xor_zero]
    _ = (a ++ m) + 0x800#12 := by
      have ha := a.isLt
      have hm := m.isLt
      apply BitVec.eq_of_toNat_eq
      simp only [BitVec.toNat_add, toNat_append_low, BitVec.toNat_ofNat]
      omega

theorem xor_signBit (f : BitVec 12) : f ^^^ 0x800#12 = f + 0x800#12 := by
  have hsplit : f.extractLsb' 11 1 ++ f.extractLsb' 0 11 = f := by
    have hf := f.isLt
    apply BitVec.eq_of_toNat_eq
    simp only [toNat_append_low, BitVec.extractLsb'_toNat, Nat.shiftRight_eq_div_pow]
    omega
  rw [← hsplit]
  exact append_xor_signBit _ _

/-- DECODE_FIELD inverts the sign bit (R111). -/
theorem decodeField_eq_xor (f : BitVec 12) : decodeField f = f ^^^ 0x800 := by
  have hadd : decodeField f = f + 0x800#12 :=
    BitVec.eq_of_toNat_eq ((toNat_decodeField f).trans (BitVec.toNat_add f 0x800#12).symm)
  exact hadd.trans (xor_signBit f).symm

/-- A channel's field lies below the top byte of the raw word (R80). -/
theorem channelField_congr {w w' : RawWord} (h : w.extractLsb' 0 24 = w'.extractLsb' 0 24) (ch : Channel) :
    channelField w ch = channelField w' ch := by
  cases ch
  case ch1 =>
    calc w.extractLsb' 0 12 = (w.extractLsb' 0 24).extractLsb' 0 12 := (BitVec.extractLsb'_extractLsb'_of_le (by decide)).symm
      _ = w'.extractLsb' 0 12 := by rw [h, BitVec.extractLsb'_extractLsb'_of_le (by decide)]
  case ch2 =>
    calc w.extractLsb' 12 12 = (w.extractLsb' 0 24).extractLsb' 12 12 :=
          (BitVec.extractLsb'_extractLsb'_of_le (by decide)).symm
      _ = w'.extractLsb' 12 12 := by rw [h, BitVec.extractLsb'_extractLsb'_of_le (by decide)]

/-- Settles O18: an inverted sign bit is 2048 added to the field's two's-complement value, and inverted twice it is as it was. -/
theorem decoderIsOffsetBinary : Obligations.DecoderIsOffsetBinary := by
  refine ⟨fun f => ⟨decodeField_eq_xor f, ?value⟩, fun c => ?roundTrip, fun w => ⟨rfl, rfl⟩, fun w w' h => ?topByte⟩
  case value =>
    have hf := f.isLt
    rw [toNat_decodeField, BitVec.toInt_eq_toNat_cond]
    split <;> omega
  case roundTrip => rw [decodeField_eq_xor, BitVec.xor_assoc, BitVec.xor_self, BitVec.xor_zero]
  case topByte => simp only [decodeWord, channelField_congr h]

end Sys2Proof.Machine
end

section
/-! PROOFS. An accumulation cycle with equal weighting (O32): what one occurrence has summed when the codes up to a column have
been stepped, the occurrence as one step of the cycle, and the cycle's published mean. -/

namespace Sys2Proof.Machine

/-! ## One occurrence, column by column -/

/-- The accumulators of one channel when the columns below `p` of an occurrence triggered at `T` have been added (R171, R173,
with A_HALVE = 0). -/
def summedBelow (s : State) (T p : Nat) (ch : Channel) : Vector (BitVec 32) FL :=
  Vector.ofFn fun k : Fin FL =>
    if k.val < p then accumulate ((occurrenceBase s).get ch)[k] (storeRead s ch (pixelIndex s.act T k.val))
    else ((occurrenceBase s).get ch)[k]

/-- An occurrence started in `s` when its next column is `p` and `c` codes are to be skipped before it. -/
def occurrenceAt (T : Nat) (forced : Bool) (s : State) (p : Nat) (c : BitVec 16) : State :=
  { s with
    cstate := .accumulating
    trigIdx := T
    forced := (if s.avgcnt = 0 then false else s.forced) || forced
    acc := .tabulate (summedBelow s T p)
    pix := BitVec.ofNat 9 p
    skipcnt := c }

/-- From the trigger on, a column is read a whole number of decimation steps after the trigger index (R155). -/
theorem pixelIndex_forward (a : ActiveCfg) (T j : Nat) :
    pixelIndex a T (a.pos.toNat + j) = ((T + j * (a.skip.toNat + 1) : Nat) : Int) := by
  rw [pixelIndex, if_neg (by omega)]
  push_cast
  ring

theorem toNat_ofNat_pix {p : Nat} (h : p ≤ FL) : (BitVec.ofNat 9 p).toNat = p := by
  have hFL : FL = 319 := rfl
  rw [BitVec.toNat_ofNat, Nat.mod_eq_of_lt (by omega)]

section
variable {s : State} (T : Nat) (forced : Bool)

/-- With equal weighting the backfill and the trigger sample are the columns up to the trigger position, each added once. -/
theorem occurrenceStarted_eq_at (hhalve : s.act.halve = false) :
    occurrenceStarted T forced s = occurrenceAt T forced s (s.act.pos.toNat + 1) s.act.skip := by
  have hequal (a : BitVec 32) (b : Code) : backfillAccumulate s.act.halve a b = accumulate a b := by
    rw [hhalve]
    rfl
  have hacc : backfillAccumulated s T = summedBelow s T (s.act.pos.toNat + 1) := by
    funext ch
    apply Vector.ext
    intro k hk
    simp only [backfillAccumulated, summedBelow, Vector.getElem_ofFn]
    obtain hlt | rfl | hgt := Nat.lt_trichotomy k s.act.pos.toNat
    · rw [if_pos hlt, if_pos (by omega), pixelIndex, if_pos hlt, hequal]
    · have htrig : pixelIndex s.act T s.act.pos.toNat = T := by simpa using pixelIndex_forward s.act T 0
      rw [if_neg (by omega), if_pos rfl, if_pos (by omega), htrig]
    · rw [if_neg (by omega), if_neg (by omega), if_neg (by omega)]
  have hpix : s.act.pos + 1 = BitVec.ofNat 9 (s.act.pos.toNat + 1) := by
    rw [BitVec.ofNat_add, BitVec.ofNat_toNat, BitVec.setWidth_eq]
    rfl
  rw [occurrenceStarted, hacc, hpix]
  rfl

theorem codeStep_occurrenceAt (p : Nat) (c : BitVec 16) (i : Nat) (fired : Bool) :
    codeStep i (occurrenceAt T forced s p c, fired) = (accumulateStep i (occurrenceAt T forced s p c), fired) := rfl

/-- The codes between two columns are skipped (R173). -/
theorem codeSteps_skip (p : Nat) (c : BitVec 16) (b : Nat) (fired : Bool) :
    codeSteps b c.toNat (occurrenceAt T forced s p c, fired) = (occurrenceAt T forced s p 0, fired) := by
  induction hn : c.toNat generalizing b c with
  | zero =>
    obtain rfl : c = 0 := BitVec.eq_of_toNat_eq hn
    rfl
  | succ n ih =>
    have hne : c ≠ 0 := by rintro rfl; cases hn
    have hstep : accumulateStep b (occurrenceAt T forced s p c) = occurrenceAt T forced s p (c - 1) := if_pos hne
    rw [codeSteps, codeStep_occurrenceAt, hstep]
    exact ih (c - 1) (b + 1) (by rw [toNat_pred hne, hn]; rfl)

/-- The code read at the place of column `p` is added to it (R173). -/
theorem pixelAccumulated_occurrenceAt {p : Nat} (hp : p < FL) {i : Nat} (hi : pixelIndex s.act T p = i) :
    pixelAccumulated i (occurrenceAt T forced s p 0) = occurrenceAt T forced s (p + 1) s.act.skip := by
  have hpix : (BitVec.ofNat 9 p).toNat = p := toNat_ofNat_pix hp.le
  have hacc : (fun ch => accumulateAt (summedBelow s T p ch) p (storeRead s ch i)) = summedBelow s T (p + 1) := by
    funext ch
    apply Vector.ext
    intro k hk
    simp only [accumulateAt_eq_ofFn, summedBelow, Vector.getElem_ofFn, Fin.getElem_fin]
    obtain hlt | rfl | hgt := Nat.lt_trichotomy k p
    · rw [if_neg (by omega), if_pos hlt, if_pos (by omega)]
    · rw [if_pos rfl, if_neg (by omega), if_pos (by omega), hi]
    · rw [if_neg (by omega), if_neg (by omega), if_neg (by omega)]
  have hsucc : BitVec.ofNat 9 p + 1 = BitVec.ofNat 9 (p + 1) := (BitVec.ofNat_add p 1).symm
  simp only [pixelAccumulated, occurrenceAt, hpix, hsucc, PerChannel.get_tabulate, ← hacc]
  rfl

theorem codeSteps_add (b m n : Nat) (q : State × Bool) : codeSteps b (m + n) q = codeSteps (b + m) n (codeSteps b m q) := by
  induction m generalizing b q with
  | zero => simp [codeSteps]
  | succ m ih => rw [Nat.succ_add, codeSteps, codeSteps, ih, Nat.succ_add_eq_add_succ]

/-- `A_SKIP + 1` codes take an occurrence from one forward column to the next. -/
theorem codeSteps_column {j : Nat} (hj : s.act.pos.toNat + 1 + j < FL) (fired : Bool) :
    codeSteps (T + 1 + j * (s.act.skip.toNat + 1)) (s.act.skip.toNat + 1)
        (occurrenceAt T forced s (s.act.pos.toNat + 1 + j) s.act.skip, fired) =
      (occurrenceIfFull (occurrenceAt T forced s (s.act.pos.toNat + 1 + (j + 1)) s.act.skip), fired) := by
  have hi : pixelIndex s.act T (s.act.pos.toNat + 1 + j) =
      ((T + 1 + j * (s.act.skip.toNat + 1) + s.act.skip.toNat : Nat) : Int) := by
    rw [Nat.add_assoc, Nat.add_comm 1 j, pixelIndex_forward]
    congr 1
    ring
  rw [codeSteps_add, codeSteps_skip, codeSteps, codeSteps, codeStep_occurrenceAt, accumulateStep, if_neg (by simp [occurrenceAt]),
    pixelAccumulated_occurrenceAt T forced hj hi]
  rfl

/-- The codes of the `n` columns left complete the occurrence. -/
theorem codeSteps_columns {n j : Nat} (hn : s.act.pos.toNat + 1 + j + n = FL) (fired : Bool) :
    codeSteps (T + 1 + j * (s.act.skip.toNat + 1)) (n * (s.act.skip.toNat + 1))
        (occurrenceIfFull (occurrenceAt T forced s (s.act.pos.toNat + 1 + j) s.act.skip), fired) =
      (occurrenceComplete (occurrenceAt T forced s FL s.act.skip), fired) := by
  have hpix : (occurrenceAt T forced s (s.act.pos.toNat + 1 + j) s.act.skip).pix.toNat = s.act.pos.toNat + 1 + j :=
    toNat_ofNat_pix (by omega)
  induction n generalizing j with
  | zero =>
    rw [Nat.add_zero] at hn
    rw [occurrenceIfFull, hpix, if_pos hn, Nat.zero_mul, codeSteps, hn]
  | succ n ih =>
    have hnext := ih (j := j + 1) (by omega) (toNat_ofNat_pix (by omega))
    rw [occurrenceIfFull, hpix, if_neg (by omega), Nat.succ_mul, Nat.add_comm (n * _), codeSteps_add,
      codeSteps_column T forced (by omega), ← hnext]
    congr 1
    ring

/-- An Average-mode capture with equal weighting adds every column of its trigger's frame once and then completes
(R171-R175). -/
theorem captureScan_average (hmode : s.act.mode = .average) (hhalve : s.act.halve = false) (hpos : s.act.pos.toNat < FL) :
    captureScan T forced s = occurrenceComplete (occurrenceAt T forced s FL s.act.skip) := by
  have hstart : startCapture T forced s = occurrenceIfFull (occurrenceAt T forced s (s.act.pos.toNat + 1 + 0) s.act.skip) := by
    rw [startCapture, hmode]
    exact congrArg occurrenceIfFull (occurrenceStarted_eq_at T forced hhalve)
  have hrun := codeSteps_columns T forced (s := s) (n := FL - 1 - s.act.pos.toNat) (j := 0) (by omega) true
  rw [Nat.zero_mul, Nat.add_zero] at hrun
  rw [captureScan, hstart, codesToComplete, hrun]

end

/-! ## The cycle -/

/-- What an accumulation cycle with equal weighting keeps from one occurrence to the next while `RUN = 1`: no sum exceeds 4095
for each occurrence completed (R34). -/
structure CycleOpen (s : State) : Prop where
  mode : s.act.mode = .average
  halve : s.act.halve = false
  run : s.run = true
  pos : s.act.pos.toNat < FL
  base : ∀ ch (k : Nat) (h : k < FL), (((occurrenceBase s).get ch)[k]).toNat ≤ s.avgcnt.toNat * 4095

/-- The state in which the occurrence `o` completes: every column of its trigger's frame added. -/
def occurrenceSummed (o : Occurrence) (s : State) : State :=
  occurrenceAt o.index o.forced { s with store := o.store } FL s.act.skip

/-- An occurrence adds the frame of its trigger, read from its own store. -/
theorem CycleOpen.toNat_summed {s : State} (h : CycleOpen s) (hcnt : s.avgcnt < s.act.numavg) (o : Occurrence) (ch : Channel)
    {k : Nat} (hk : k < FL) :
    (((occurrenceSummed o s).acc.get ch)[k]).toNat = (((occurrenceBase s).get ch)[k]).toNat +
      (storeRead { s with store := o.store } ch (pixelIndex s.act o.index k)).toNat := by
  have hlt : s.avgcnt.toNat < s.act.numavg.toNat := hcnt
  have hmax := s.act.numavg.isLt
  have hbase := h.base ch k hk
  have hentry : ((occurrenceSummed o s).acc.get ch)[k] = accumulate ((occurrenceBase s).get ch)[k]
      (storeRead { s with store := o.store } ch (pixelIndex s.act o.index k)) := by
    simp only [occurrenceSummed, occurrenceAt, PerChannel.get_tabulate, summedBelow, Vector.getElem_ofFn, if_pos hk]
    rfl
  obtain ⟨-, -, hsum⟩ := toNat_accumulate (storeRead { s with store := o.store } ch (pixelIndex s.act o.index k))
    (hbase.trans (Nat.mul_le_mul_right 4095 (by omega : s.avgcnt.toNat ≤ 65534)))
  rw [hentry, hsum]

/-- The state between an occurrence `o` and the next one of its cycle. -/
def occurrenceClosed (o : Occurrence) (s : State) : State := withCState .idle (occurrenceCounted (occurrenceSummed o s))

/-- A capture with occurrences of its cycle still to come leaves the engine armed, its sums kept (R175). -/
theorem CycleOpen.captureScan_of_more {s : State} (h : CycleOpen s) (hmore : s.avgcnt.toNat + 1 < s.act.numavg.toNat)
    (o : Occurrence) : captureScan o.index o.forced { s with store := o.store } = occurrenceClosed o s := by
  have hcnt : (occurrenceSummed o s).avgcnt < (occurrenceSummed o s).act.numavg := Nat.lt_of_succ_lt hmore
  have hmore' : (occurrenceSummed o s).avgcnt.toNat + 1 < (occurrenceSummed o s).act.numavg.toNat := hmore
  rw [captureScan_average (s := { s with store := o.store }) o.index o.forced h.mode h.halve h.pos]
  exact (occurrenceComplete_eq hcnt).trans (if_pos hmore')

/-- The last capture of a cycle closes it with the mean (R175, R176). -/
theorem CycleOpen.captureScan_of_last {s : State} (h : CycleOpen s) (hlast : s.avgcnt.toNat + 1 = s.act.numavg.toNat)
    (o : Occurrence) :
    captureScan o.index o.forced { s with store := o.store } = average (occurrenceCounted (occurrenceSummed o s)) := by
  have hcnt : (occurrenceSummed o s).avgcnt < (occurrenceSummed o s).act.numavg := Nat.lt_of_succ_le hlast.le
  have hlast' : ¬ (occurrenceSummed o s).avgcnt.toNat + 1 < (occurrenceSummed o s).act.numavg.toNat := hlast.not_lt
  rw [captureScan_average (s := { s with store := o.store }) o.index o.forced h.mode h.halve h.pos]
  exact (occurrenceComplete_eq hcnt).trans (if_neg hlast')

theorem occurrenceClosed_avgcnt {s : State} (hcnt : s.avgcnt < s.act.numavg) (o : Occurrence) :
    (occurrenceClosed o s).avgcnt.toNat = s.avgcnt.toNat + 1 := by
  have hlt : s.avgcnt.toNat < s.act.numavg.toNat := hcnt
  have hmax := s.act.numavg.isLt
  exact toNat_succ (x := s.avgcnt) (by omega)

theorem occurrenceClosed_avgcnt_ne {s : State} (hcnt : s.avgcnt < s.act.numavg) (o : Occurrence) :
    (occurrenceClosed o s).avgcnt ≠ 0 := by
  intro h0
  have h1 := occurrenceClosed_avgcnt hcnt o
  rw [h0] at h1
  cases h1

/-- The next occurrence adds onto the sums of this one. -/
theorem occurrenceBase_occurrenceClosed {s : State} (hcnt : s.avgcnt < s.act.numavg) (o : Occurrence) :
    occurrenceBase (occurrenceClosed o s) = (occurrenceSummed o s).acc := if_neg (occurrenceClosed_avgcnt_ne hcnt o)

theorem CycleOpen.next {s : State} (h : CycleOpen s) (hcnt : s.avgcnt < s.act.numavg) (o : Occurrence) :
    CycleOpen (occurrenceClosed o s) where
  mode := h.mode
  halve := h.halve
  run := h.run
  pos := h.pos
  base ch k hk := by
    have hbase := h.base ch k hk
    have hcode := (storeRead { s with store := o.store } ch (pixelIndex s.act o.index k)).isLt
    rw [occurrenceBase_occurrenceClosed hcnt, h.toNat_summed hcnt o ch hk, occurrenceClosed_avgcnt hcnt]
    omega

/-- The sum of the frames reads of a state its active set and its capacity alone. -/
theorem frameSum_congr {s t : State} (ha : t.act = s.act) (hp : t.par = s.par) (ch : Channel) (k : Nat) (os : List Occurrence) :
    frameSum t ch k os = frameSum s ch k os := by
  induction os with
  | nil => rfl
  | cons o os ih => simp only [frameSum, storeRead, ih, ha, hp]

/-- A mean of codes is a code: the division by NumAvg loses nothing of it (R176). -/
theorem toNat_averageEntry {n : BitVec 16} {a : BitVec 32} (h : a.toNat ≤ n.toNat * 4095) :
    (averageEntry n a).toNat = a.toNat / n.toNat := by
  have hle : a.toNat / n.toNat ≤ 4095 := Nat.div_le_of_le_mul h
  rw [averageEntry, BitVec.toNat_ofNat, Nat.mod_eq_of_lt (by omega)]

/-- The record `r` is the frame of the cycle that the occurrences `os` complete from `s` (R90, R177). -/
structure IsCycleFrame (s : State) (os : List Occurrence) (r : FrameRecord) : Prop where
  mode : r.mode = .average
  seq : r.seq = s.frameseq
  chen : r.chen = s.act.chen
  forced : r.forced = ((if s.avgcnt = 0 then false else s.forced) || os.any (·.forced))
  trig : ∀ o, os.getLast? = some o → r.trig = o.index
  data : ∀ ch (k : Nat) (h : k < FL),
    ((r.data.get ch)[k]).toNat = ((((occurrenceBase s).get ch)[k]).toNat + frameSum s ch k os) / s.act.numavg.toNat

/-- A cycle that closes while `RUN = 1` delivers one frame, of the mean (R157, R176). -/
theorem average_frameOut {u : State} (h : u.run = true) :
    (average u).frameOut = u.frameOut ++ [frameRecord (cycleClosed u) (averagedFrame u)] :=
  (publish_frameOut (averagedFrame u) (cycleClosed u)).trans (if_pos h)

theorem getElem_averagedFrame (u : State) (ch : Channel) {k : Nat} (hk : k < FL) :
    ((averagedFrame u).get ch)[k] = averageEntry u.act.numavg (u.acc.get ch)[k] := by
  simp only [averagedFrame, PerChannel.get_tabulate, getElem_mapCols]

/-- The last occurrence of a cycle publishes the floor mean of the sums (R175, R176). -/
theorem CycleOpen.last {s : State} (h : CycleOpen s) {o : Occurrence} (hlast : s.avgcnt.toNat + 1 = s.act.numavg.toNat) :
    ∃ r, (captureCycle [o] s).frameOut = s.frameOut ++ [r] ∧ IsCycleFrame s [o] r := by
  have hcycle : captureCycle [o] s = average (occurrenceCounted (occurrenceSummed o s)) := by
    rw [captureCycle, captureCycle, h.captureScan_of_last hlast]
  refine ⟨_, (congrArg State.frameOut hcycle).trans (average_frameOut (u := occurrenceCounted (occurrenceSummed o s)) h.run),
    ⟨h.mode, rfl, rfl, ?forced, ?trig, ?data⟩⟩
  case forced => simp [frameRecord, occurrenceSummed, occurrenceAt]
  case trig =>
    intro o' ho'
    cases ho'
    rfl
  case data =>
    intro ch k hk
    have hcnt : s.avgcnt < s.act.numavg := Nat.lt_of_succ_le hlast.le
    have hsum := h.toNat_summed hcnt o ch hk
    have hbase := h.base ch k hk
    have hcode := (storeRead { s with store := o.store } ch (pixelIndex s.act o.index k)).isLt
    have hmean := toNat_averageEntry (n := s.act.numavg) (a := ((occurrenceSummed o s).acc.get ch)[k]) (by omega)
    rw [hsum] at hmean
    exact (congrArg BitVec.toNat (getElem_averagedFrame (occurrenceCounted (occurrenceSummed o s)) ch hk)).trans hmean

/-- From any occurrence of a cycle on, the occurrences left add their frames to the sums so far, and the last one publishes. -/
theorem CycleOpen.publishes_mean {os : List Occurrence} (hne : os ≠ []) {s : State} (h : CycleOpen s)
    (hlen : s.avgcnt.toNat + os.length = s.act.numavg.toNat) :
    ∃ r, (captureCycle os s).frameOut = s.frameOut ++ [r] ∧ IsCycleFrame s os r := by
  induction os generalizing s with
  | nil => exact absurd rfl hne
  | cons o os ih =>
    cases os with
    | nil => exact h.last hlen
    | cons o' os =>
      simp only [List.length_cons] at hlen
      have hcnt : s.avgcnt < s.act.numavg := by rw [BitVec.lt_def]; omega
      have hcycle : captureCycle (o :: o' :: os) s = captureCycle (o' :: os) (occurrenceClosed o s) := by
        rw [captureCycle, h.captureScan_of_more (by omega)]
      have hclosed : (occurrenceClosed o s).avgcnt.toNat + (o' :: os).length =
          (occurrenceClosed o s).act.numavg.toNat := by
        rw [occurrenceClosed_avgcnt hcnt, List.length_cons]
        show s.avgcnt.toNat + 1 + (os.length + 1) = s.act.numavg.toNat
        omega
      obtain ⟨r, hout, hr⟩ := ih (List.cons_ne_nil o' os) (h.next hcnt o) hclosed
      refine ⟨r, hcycle ▸ hout, ⟨hr.mode, hr.seq, hr.chen, ?forced, ?trig, ?data⟩⟩
      case forced =>
        rw [hr.forced, if_neg (occurrenceClosed_avgcnt_ne hcnt o), List.any_cons (a := o), ← Bool.or_assoc]
        rfl
      case trig =>
        intro o'' ho''
        exact hr.trig o'' (by rwa [List.getLast?_cons_cons] at ho'')
      case data =>
        intro ch k hk
        rw [hr.data ch k hk, occurrenceBase_occurrenceClosed hcnt, h.toNat_summed hcnt o ch hk,
          frameSum_congr (s := s) (t := occurrenceClosed o s) rfl rfl, Nat.add_assoc]
        rfl

/-- Settles O32: a cycle that starts with clear sums publishes the mean of its occurrences' frames. -/
theorem averagedFrameIsTheFloorMean : Obligations.AveragedFrameIsTheFloorMean := by
  intro s os hs _ hmode hhalve hcnt hrun hlen
  have hzero : occurrenceBase s = ⟨Vector.replicate FL 0, Vector.replicate FL 0⟩ := if_pos hcnt
  have hbase (ch : Channel) (k : Nat) (hk : k < FL) : (((occurrenceBase s).get ch)[k]).toNat = 0 := by
    rw [hzero]
    cases ch <;> simp
  have hopen : CycleOpen s := ⟨hmode, hhalve, hrun, hs.act_legal.pos, fun ch k hk => by rw [hbase]; omega⟩
  have hne : os ≠ [] := by
    rintro rfl
    exact hs.act_legal.numavg (BitVec.eq_of_toNat_eq hlen.symm)
  obtain ⟨r, hout, hr⟩ := hopen.publishes_mean hne (by rw [hcnt, hlen]; exact Nat.zero_add _)
  refine ⟨r, hout, hr.mode, hr.seq, hr.chen, ?_, hr.trig, fun ch k hk => ?_⟩
  · rw [hr.forced, if_pos hcnt, Bool.false_or]
  · rw [hr.data ch k hk, hbase, Nat.zero_add]

end Sys2Proof.Machine
end

section
/-! PROOFS. The append of a block (O19): what it leaves of the store, read through StoreRead, and of the write pointer. -/

namespace Sys2Proof.Machine

/-! ## APPEND -/

/-- StoreRead of an index in [0, CAP) reads the slot of that number (R61). -/
theorem storeRead_of_lt {s : State} {p : Nat} (h : p < s.par.cap) (ch : Channel) :
    storeRead s ch p = (s.store.get ch).read p := by
  rw [storeRead, physicalSlot_of_lt h]

/-- APPEND puts the code of the block's `j`-th word at index `WP + j` (R114). -/
theorem storeRead_decodeBlock_mem {s : State} {words : List RawWord} {j : Nat} (h : Inv s)
    (hlen : words.length = s.par.n) (hj : j < words.length) (ch : Channel) :
    storeRead (decodeBlock words s) ch ((s.wp + j : Nat) : Int) = (decodeWord words[j]).get ch := by
  have hfit := block_fits h
  have hcap : s.wp + j < (decodeBlock words s).par.cap := by
    rw [decodeBlock_par]
    omega
  rw [storeRead_of_lt hcap, decodeBlock_store, read_storeBlock_mem h.store_wf hj]

/-- APPEND writes no slot outside the block (R122). -/
theorem storeRead_decodeBlock_other {s : State} {words : List RawWord} {p : Nat} (hp : p < s.par.cap)
    (hout : p < s.wp ∨ s.wp + words.length ≤ p) (ch : Channel) :
    storeRead (decodeBlock words s) ch p = storeRead s ch p := by
  have hp' : p < (decodeBlock words s).par.cap := by rwa [decodeBlock_par]
  rw [storeRead_of_lt hp', decodeBlock_store, read_storeBlock_other hout, storeRead_of_lt hp]

/-- A block ends at the capacity at the latest, so the pointer wraps to 0 or does not wrap (R123). -/
theorem decodeBlock_wp_eq_ite {s : State} (h : Inv s) (words : List RawWord) :
    (decodeBlock words s).wp = if s.wp + s.par.n = s.par.cap then 0 else s.wp + s.par.n := by
  rw [decodeBlock_wp]
  split
  case isTrue hend => rw [hend, Nat.mod_self]
  case isFalse hend => exact Nat.mod_eq_of_lt (Nat.lt_of_le_of_ne (block_fits h) hend)

/-- A store of one block has its pointer at slot 0. -/
theorem Inv.wp_eq_zero {s : State} (h : Inv s) (hk : s.par.k = 1) : s.wp = 0 := by
  have hlt : s.wp < s.par.n := by simpa [Params.cap, hk] using h.wp_lt
  rw [← h.wp_aligned, Nat.mod_eq_of_lt hlt]

/-- A store of one block is rewritten whole by every APPEND: the pointer is 0 and wraps at once. -/
theorem decodeBlock_wp_of_one_block {s : State} (h : Inv s) (hk : s.par.k = 1) (words : List RawWord) :
    (decodeBlock words s).wp = s.wp := by
  rw [decodeBlock_wp, h.wp_eq_zero hk, Params.cap, hk, Nat.zero_add, Nat.one_mul, Nat.mod_self]

/-- Settles O19: the block fits below the capacity, so its slots are `WP + j` unwrapped and only the pointer can wrap. -/
theorem appendStoresTheBlock : Obligations.AppendStoresTheBlock := by
  intro s words h hlen
  refine ⟨rfl, fun j w ch hw => ?stored, fun p ch hp hout => ?other, decodeBlock_wp_eq_ite h words,
    fun hk => decodeBlock_wp_of_one_block h hk words⟩
  case stored =>
    obtain ⟨hj, rfl⟩ := List.getElem?_eq_some_iff.1 hw
    exact storeRead_decodeBlock_mem h hlen hj ch
  case other => exact storeRead_decodeBlock_other hp (hlen ▸ hout) ch

end Sys2Proof.Machine
end

section
/-! PROOFS. The store's history (O21): the codes behind the write pointer after one APPEND, and after a run of them. -/

namespace Sys2Proof.Machine

/-! ## The codes behind the write pointer -/

/-- The store of `s` shows the codes of `words` behind the write pointer, the newest one at `WP − 1` (R125). -/
def HoldsNewest (words : List RawWord) (s : State) : Prop :=
  ∀ (d : Nat) (w : RawWord) ch, words.reverse[d]? = some w → storeRead s ch ((s.wp : Int) - 1 - d) = (decodeWord w).get ch

theorem holdsNewest_nil (s : State) : HoldsNewest [] s := fun _ _ _ hw => nomatch hw

/-- Indices modulo the capacity do not see the pointer wrap: what is read behind the new pointer is read behind
`WP + N` (R61, R123). -/
theorem storeRead_decodeBlock_behind (words : List RawWord) (s : State) (ch : Channel) (d : Nat) :
    storeRead (decodeBlock words s) ch (((decodeBlock words s).wp : Int) - 1 - d) =
      storeRead (decodeBlock words s) ch (((s.wp + s.par.n : Nat) : Int) - 1 - d) := by
  rw [storeRead, storeRead, physicalSlot, physicalSlot, decodeBlock_wp, decodeBlock_par, Int.natCast_emod, Int.sub_sub,
    Int.sub_sub, Int.emod_sub_emod]

/-- APPEND leaves the block's last word at `WP − 1` and the `d`-th before it at `WP − 1 − d`. -/
theorem storeRead_decodeBlock_newest {s : State} {words : List RawWord} (h : Inv s) (hlen : words.length = s.par.n)
    {d : Nat} (hd : d < words.length) (ch : Channel) :
    storeRead (decodeBlock words s) ch (((decodeBlock words s).wp : Int) - 1 - d) =
      (decodeWord words[words.length - 1 - d]).get ch := by
  have hslot : ((s.wp + s.par.n : Nat) : Int) - 1 - d = ((s.wp + (words.length - 1 - d) : Nat) : Int) := by omega
  rw [storeRead_decodeBlock_behind, hslot, storeRead_decodeBlock_mem h hlen]

/-- The slots that are not written lie behind the old pointer, below it or wrapped above the block. -/
theorem exists_slot_behind {wp n cap e : Nat} (hwp : wp < cap) (he : n + e < cap) :
    ∃ p, p < cap ∧ (p < wp ∨ wp + n ≤ p) ∧ physicalSlot cap ((wp : Int) - 1 - e) = p := by
  by_cases hlt : e < wp
  case pos =>
    have hp : (wp : Int) - 1 - e = ((wp - 1 - e : Nat) : Int) := by omega
    exact ⟨wp - 1 - e, by omega, by omega, by rw [hp, physicalSlot_of_lt (by omega)]⟩
  case neg =>
    have hp : (wp : Int) - 1 - e + 1 * cap = ((wp + cap - 1 - e : Nat) : Int) := by omega
    exact ⟨wp + cap - 1 - e, by omega, by omega, by rw [← physicalSlot_add_mul _ _ 1, hp, physicalSlot_of_lt (by omega)]⟩

/-- APPEND moves every older code N places back, as long as the store reaches that far (R122, R123). -/
theorem storeRead_decodeBlock_older {s : State} {words : List RawWord} (h : Inv s) (hlen : words.length = s.par.n)
    {e : Nat} (he : s.par.n + e < s.par.cap) (ch : Channel) :
    storeRead (decodeBlock words s) ch (((decodeBlock words s).wp : Int) - 1 - (s.par.n + e : Nat)) =
      storeRead s ch ((s.wp : Int) - 1 - e) := by
  have hback : ((s.wp + s.par.n : Nat) : Int) - 1 - (s.par.n + e : Nat) = (s.wp : Int) - 1 - e := by omega
  obtain ⟨p, hp, hout, hslot⟩ := exists_slot_behind h.wp_lt he
  rw [storeRead_decodeBlock_behind, hback, storeRead, storeRead, decodeBlock_par, hslot, decodeBlock_store,
    read_storeBlock_other (hlen ▸ hout)]

/-- A block appended to a history that leaves it room in the store extends the history. -/
theorem HoldsNewest.decodeBlock {s : State} {past words : List RawWord} (hpast : HoldsNewest past s) (h : Inv s)
    (hlen : words.length = s.par.n) (hroom : past.length + s.par.n ≤ s.par.cap) :
    HoldsNewest (past ++ words) (decodeBlock words s) := by
  intro d w ch hw
  rw [List.reverse_append] at hw
  by_cases hd : d < words.length
  case pos =>
    rw [List.getElem?_append_left (by simpa using hd), List.getElem?_reverse hd] at hw
    obtain ⟨-, rfl⟩ := List.getElem?_eq_some_iff.1 hw
    exact storeRead_decodeBlock_newest h hlen hd ch
  case neg =>
    obtain ⟨e, rfl⟩ := Nat.exists_eq_add_of_le (hlen ▸ Nat.le_of_not_lt hd : s.par.n ≤ d)
    rw [List.getElem?_append_right (by simp [hlen]), List.length_reverse, hlen, Nat.add_sub_cancel_left] at hw
    have he : e < past.length := by simpa using (List.getElem?_eq_some_iff.1 hw).1
    rw [storeRead_decodeBlock_older h hlen (by omega), hpast e w ch hw]

/-! ## A run of APPENDs -/

/-- A run of blocks that fits the store beside the history extends the history. -/
theorem HoldsNewest.foldl_decodeBlock {blocks : List (List RawWord)} {s : State} {past : List RawWord}
    (hpast : HoldsNewest past s) (h : Inv s) (hlen : ∀ b ∈ blocks, b.length = s.par.n)
    (hroom : past.length + blocks.length * s.par.n ≤ s.par.cap) :
    HoldsNewest (past ++ blocks.flatten) (blocks.foldl (fun u b => Machine.decodeBlock b u) s) := by
  induction blocks generalizing s past with
  | nil => simpa using hpast
  | cons b bs ih =>
    obtain ⟨hb, hbs⟩ := List.forall_mem_cons.1 hlen
    rw [List.length_cons, Nat.succ_mul] at hroom
    rw [List.flatten_cons, ← List.append_assoc, List.foldl_cons]
    refine ih (hpast.decodeBlock h hb (by omega)) (decodeBlock_inv h hb) hbs ?_
    rw [decodeBlock_par, List.length_append, hb]
    omega

/-- A run of blocks advances the pointer by N each, modulo the capacity (R123). -/
theorem foldl_decodeBlock_wp (blocks : List (List RawWord)) {s : State} (h : s.wp < s.par.cap) :
    (blocks.foldl (fun u b => decodeBlock b u) s).wp = (s.wp + blocks.length * s.par.n) % s.par.cap := by
  induction blocks generalizing s with
  | nil => simp [Nat.mod_eq_of_lt h]
  | cons b bs ih =>
    have hlt : (decodeBlock b s).wp < (decodeBlock b s).par.cap := Nat.mod_lt _ (Nat.zero_lt_of_lt h)
    rw [List.foldl_cons, ih hlt, decodeBlock_wp, decodeBlock_par, Nat.mod_add_mod, List.length_cons, Nat.succ_mul]
    congr 1
    omega

/-- Settles O21: K blocks fill the capacity exactly, so no code of theirs is overwritten and the pointer comes round to where
it was. -/
theorem storeHoldsTheLastCapCodes : Obligations.StoreHoldsTheLastCapCodes := by
  intro s blocks h hk hlen
  have hfull : blocks.length * s.par.n = s.par.cap := by rw [hk, Params.cap]
  refine ⟨?pointer, ?history⟩
  case pointer => rw [foldl_decodeBlock_wp blocks h.wp_lt, hfull, Nat.add_mod_right, Nat.mod_eq_of_lt h.wp_lt]
  case history => exact (holdsNewest_nil s).foldl_decodeBlock h hlen (by simp [hfull])

end Sys2Proof.Machine
end

section
/-! PROOFS. The trigger (O22-O26): the edge comparator on two codes and on a monotonic run of them, the count of misses, the
forced capture, and the pass in which an armed detector meets no edge. -/

namespace Sys2Proof.Machine

/-! ## The edge comparator -/

theorem triggerCompare_rising_iff (prev curr level : Code) :
    triggerCompare prev curr level .rising = true ↔ prev.toNat ≤ level.toNat ∧ level.toNat ≤ curr.toNat := by
  simp [triggerCompare, BitVec.le_def]

theorem triggerCompare_falling_iff (prev curr level : Code) :
    triggerCompare prev curr level .falling = true ↔ level.toNat ≤ prev.toNat ∧ curr.toNat ≤ level.toNat := by
  simp [triggerCompare, BitVec.le_def]

/-- Settles O22: codes are compared as the numbers they are. -/
theorem triggerCompareIsInclusive : Obligations.TriggerCompareIsInclusive :=
  fun prev curr level => ⟨triggerCompare_rising_iff prev curr level, triggerCompare_falling_iff prev curr level⟩

/-- Between rising codes there is no falling edge. -/
theorem triggerCompare_falling_of_lt {prev curr : Code} (h : prev < curr) (level : Code) :
    triggerCompare prev curr level .falling = false := by
  rw [Bool.eq_false_iff, ne_eq, triggerCompare_falling_iff]
  exact fun ⟨hprev, hcurr⟩ => absurd (hcurr.trans hprev) (BitVec.lt_def.1 h).not_ge

/-- Between falling codes there is no rising edge. -/
theorem triggerCompare_rising_of_gt {prev curr : Code} (h : curr < prev) (level : Code) :
    triggerCompare prev curr level .rising = false := by
  rw [Bool.eq_false_iff, ne_eq, triggerCompare_rising_iff]
  exact fun ⟨hprev, hcurr⟩ => absurd (hprev.trans hcurr) (BitVec.lt_def.1 h).not_ge

/-! ## A monotonic run

A run that falls is one that rises in the opposite order of the numbers, where the two edges change places. -/

section
variable {α : Type*} [LinearOrder α] {f : ℕ → α} {n k i : ℕ} {level : α}

/-- A strictly rising run that steps over the level encloses it between two neighbours once. -/
theorem encloses_iff_of_crossing (hf : StrictMonoOn f (Set.Iic n)) (hk : k < n) (hi : i < n) (hbelow : f k < level)
    (habove : level < f (k + 1)) : (f i ≤ level ∧ level ≤ f (i + 1)) ↔ i = k := by
  constructor
  case mp =>
    intro ⟨hprev, hcurr⟩
    have hik : i < k + 1 := (hf.lt_iff_lt hi.le hk).1 (hprev.trans_lt habove)
    have hki : k < i + 1 := (hf.lt_iff_lt hk.le hi).1 (hbelow.trans_le hcurr)
    omega
  case mpr =>
    rintro rfl
    exact ⟨hbelow.le, habove.le⟩

/-- A strictly rising run that takes the level as a value encloses it before and after that value. -/
theorem encloses_iff_of_hit (hf : StrictMonoOn f (Set.Iic n)) (hk : k < n) (hi : i < n) (hbelow : f k < level)
    (hhit : level = f (k + 1)) : (f i ≤ level ∧ level ≤ f (i + 1)) ↔ i = k ∨ i = k + 1 := by
  constructor
  case mp =>
    intro ⟨hprev, hcurr⟩
    have hik : i ≤ k + 1 := (hf.le_iff_le hi.le hk).1 (hhit ▸ hprev)
    have hki : k < i + 1 := (hf.lt_iff_lt hk.le hi).1 (hbelow.trans_le hcurr)
    omega
  case mpr =>
    rintro (rfl | rfl)
    · exact ⟨hbelow.le, hhit.le⟩
    · exact ⟨hhit.ge, hhit.le.trans ((hf.le_iff_le hi.le hi).2 (Nat.le_succ _))⟩

end

/-- Settles O23: the comparator of a run's own edge asks whether two neighbours enclose the level; the other edge is against
the run's order. -/
theorem monotonicRunTriggersAtTheCrossing : Obligations.MonotonicRunTriggersAtTheCrossing := by
  intro n f level
  refine ⟨fun hup => ?rising, fun hdown => ?falling⟩
  case rising =>
    have hmono : StrictMonoOn (fun i => (f i).toNat) (Set.Iic n) := fun i _ j hj hij => hup i j hij hj
    refine ⟨fun k hk hbelow habove i hi => ?_, fun k hk hbelow hhit i hi => ?_, fun i hi => ?_⟩
    · exact (triggerCompare_rising_iff ..).trans (encloses_iff_of_crossing hmono hk hi hbelow habove)
    · exact (triggerCompare_rising_iff ..).trans (encloses_iff_of_hit hmono hk hi hbelow (congrArg BitVec.toNat hhit))
    · exact triggerCompare_falling_of_lt (hup i (i + 1) (Nat.lt_succ_self i) hi) level
  case falling =>
    have hmono : StrictMonoOn (fun i => OrderDual.toDual (f i).toNat) (Set.Iic n) :=
      fun i _ j hj hij => hdown i j hij hj
    refine ⟨fun k hk habove hbelow i hi => ?_, fun k hk habove hhit i hi => ?_, fun i hi => ?_⟩
    · exact (triggerCompare_falling_iff ..).trans (encloses_iff_of_crossing hmono hk hi habove hbelow)
    · exact (triggerCompare_falling_iff ..).trans (encloses_iff_of_hit hmono hk hi habove
        (congrArg (fun c : Code => OrderDual.toDual c.toNat) hhit))
    · exact triggerCompare_rising_of_gt (hdown i (i + 1) (Nat.lt_succ_self i) hi) level

/-! ## The miss counter -/

/-- MISS counted up by one, saturating at the cap, as MISS_ACCOUNT writes it. -/
def missCounted (s : State) : BitVec 16 := BitVec.ofNat 16 (min (s.miss.toNat + 1) s.act.frCap.toNat)

theorem toNat_missCounted (s : State) : (missCounted s).toNat = min (s.miss.toNat + 1) s.act.frCap.toNat := by
  have hcap := s.act.frCap.isLt
  rw [missCounted, BitVec.toNat_ofNat, Nat.mod_eq_of_lt (by omega)]

/-- A pass without a fire that ends armed is counted, any other one is not (R133). -/
theorem missAccount_eq_ite (fired : Bool) (s : State) :
    missAccount fired s = if fired = false ∧ s.cstate = .idle then withMiss (missCounted s) s else s := by
  simp [missAccount, missCounted]

/-- Settles O24: a pass that counts writes MISS, any other one writes nothing. -/
theorem missCountSaturates : Obligations.MissCountSaturates := by
  intro fired s
  rw [missAccount_eq_ite]
  by_cases hmiss : fired = false ∧ s.cstate = .idle
  case pos =>
    rw [if_pos hmiss, if_pos hmiss, withMiss_miss, BitVec.le_def, toNat_missCounted]
    exact ⟨rfl, rfl, fun _ _ => Nat.min_le_right ..⟩
  case neg =>
    rw [if_neg hmiss, if_neg hmiss]
    exact ⟨rfl, rfl, fun hfired hidle => absurd ⟨hfired, hidle⟩ hmiss⟩

/-! ## The forced capture -/

theorem startCaptureNormal_trigger (T : Nat) (forced : Bool) (s : State) :
    (startCaptureNormal T forced s).trigIdx = T ∧ (startCaptureNormal T forced s).forced = forced ∧
      (startCaptureNormal T forced s).miss = s.miss := by
  unfold startCaptureNormal completeIfFull frameCompleteNormal
  split <;> simp [normalStarted]

theorem occurrenceIfFull_trigger (s : State) :
    (occurrenceIfFull s).trigIdx = s.trigIdx ∧ (occurrenceIfFull s).forced = s.forced ∧
      (occurrenceIfFull s).miss = s.miss := by
  unfold occurrenceIfFull occurrenceComplete average
  split
  · split <;> simp
  · simp

/-- A forced capture marks its frame as forced and leaves MISS, whichever mode it starts in and also where it completes at
once (R134, R151, R171). -/
theorem startCapture_forced (T : Nat) (s : State) :
    (startCapture T true s).trigIdx = T ∧ (startCapture T true s).forced = true ∧
      (startCapture T true s).miss = s.miss := by
  unfold startCapture
  split
  case h_1 => exact startCaptureNormal_trigger T true s
  case h_2 =>
    obtain ⟨htrig, hforced, hmiss⟩ := occurrenceIfFull_trigger (occurrenceStarted T true s)
    exact ⟨htrig, hforced.trans (Bool.or_true _), hmiss⟩

/-- The free-run check (R134). -/
theorem forceFire_eq_ite (fired : Bool) (last : Nat) (s : State) :
    forceFire fired last s =
      if fired = false ∧ s.cstate = .idle ∧ s.act.frEn = true ∧ s.act.frThresh.toNat ≤ s.miss.toNat then
        startCapture last true s
      else s := by
  simp [forceFire, and_assoc, BitVec.le_def]

/-- Settles O25: the free-run check starts a forced capture or does nothing. -/
theorem forceFireAtTheThreshold : Obligations.ForceFireAtTheThreshold := by
  intro fired last s
  rw [forceFire_eq_ite]
  split
  case isTrue => exact ⟨rfl, startCapture_forced last s⟩
  case isFalse => rfl

/-! ## A pass without an edge -/

/-- An armed detector lets a code pass that makes no edge (R131, R242). -/
theorem codeStep_of_not_triggered {s : State} {i : Nat} (hidle : s.cstate = .idle) (hquiet : triggered i s = false)
    (fired : Bool) : codeStep i (s, fired) = (s, fired) := by
  simp [codeStep, hidle, triggerStep, hquiet]

/-- An armed detector lets a run of codes pass that makes no edge. -/
theorem codeSteps_of_not_triggered {s : State} (hidle : s.cstate = .idle) (fired : Bool) {n b : Nat}
    (hquiet : ∀ j, j < n → triggered (b + j) s = false) : codeSteps b n (s, fired) = (s, fired) := by
  induction n generalizing b with
  | zero => rfl
  | succ n ih =>
    rw [codeSteps, codeStep_of_not_triggered hidle (by simpa using hquiet 0 n.succ_pos)]
    refine ih fun j hj => ?_
    rw [Nat.add_assoc, Nat.add_comm 1 j]
    exact hquiet (j + 1) (Nat.succ_lt_succ hj)

/-- Neither the latch nor the append disarms the detector. -/
@[simp] theorem passLoaded_cstate (words : List RawWord) (s : State) : (passLoaded words s).cstate = s.cstate := by
  rw [passLoaded, decodeBlock_cstate, latchIfBoundary_cstate]

/-- Settles O26: the scan leaves the loaded state armed and unfired, so the pass is counted as a miss. -/
theorem quietPassCountsOneMiss : Obligations.QuietPassCountsOneMiss := by
  intro s words hidle u hquiet
  have harmed : u.cstate = .idle := (passLoaded_cstate words s).trans hidle
  have hscan : passScanned words s = (u, false) := codeSteps_of_not_triggered harmed false hquiet
  have hmiss : missAccount false u = withMiss (missCounted u) u := by rw [missAccount_eq_ite, if_pos ⟨rfl, harmed⟩]
  refine ⟨hscan, ?_⟩
  rw [processPass, hscan, hmiss]
  rfl

end Sys2Proof.Machine
end

section
/-! PROOFS. RUN and the capture (O38): the state with all that RUN decides blanked out, and that every step of a POLL commutes
with the blanking. -/

namespace Sys2Proof.Machine

/-! ## The muted unit -/

/-- `s` with RUN at 0 and what only a delivered frame writes blank: the rest is the capture side of the state, which is what
R250 speaks of. -/
def muted (s : State) : State :=
  { s with
    run := false
    lfValid := false
    lfData := ⟨Vector.replicate FL 0, Vector.replicate FL 0⟩
    lfChen := ⟨false, false⟩
    frameseq := 0
    ry := ⟨Vector.replicate FL 0, Vector.replicate FL 0⟩
    ryValid := ⟨false, false⟩
    fset := ⟨Vector.replicate MEASURE_AVG 0, Vector.replicate MEASURE_AVG 0⟩
    fcnt := ⟨0, 0⟩
    out := [] }

theorem sameCapture_iff_muted_eq (s t : State) : SameCapture s t ↔ muted t = muted s := by
  cases s; cases t; simp [SameCapture, muted]

/-! ## Publication -/

theorem muted_latchIfBoundary (s : State) : muted (latchIfBoundary s) = latchIfBoundary (muted s) := by
  unfold latchIfBoundary
  rw [apply_ite muted]
  rfl

/-- A delivered frame writes nothing of the capture side (R157). -/
theorem muted_deliverFrame (frame : PerChannel Frame) (s : State) : muted (deliverFrame frame s) = muted s := by
  rw [deliverFrame_eq]
  rfl

/-- Delivered or discarded, a frame leaves the same capture side (R157, R250). -/
theorem muted_publish (frame : PerChannel Frame) (s : State) : muted (publish frame s) = publish frame (muted s) := by
  have hmuted : publish frame (muted s) = latchIfBoundary (withCState .idle (muted (withCState .publishing s))) :=
    publish_stopped (s := muted s) rfl frame
  have hidle (u : State) : muted (withCState .idle u) = withCState .idle (muted u) := rfl
  rw [hmuted]
  cases hr : s.run
  case false => rw [publish_stopped hr, muted_latchIfBoundary, hidle]
  case true => rw [publish_running hr, muted_latchIfBoundary, hidle, muted_deliverFrame]

/-! ## The capture steps -/

theorem muted_completeIfFull (s : State) : muted (completeIfFull s) = completeIfFull (muted s) := by
  rw [completeIfFull, apply_ite muted, frameCompleteNormal, muted_publish]
  rfl

theorem muted_occurrenceComplete (s : State) : muted (occurrenceComplete s) = occurrenceComplete (muted s) := by
  rw [occurrenceComplete, apply_ite muted, average, muted_publish]
  rfl

theorem muted_occurrenceIfFull (s : State) : muted (occurrenceIfFull s) = occurrenceIfFull (muted s) := by
  rw [occurrenceIfFull, apply_ite muted, muted_occurrenceComplete]
  rfl

theorem muted_startCapture (T : Nat) (forced : Bool) (s : State) :
    muted (startCapture T forced s) = startCapture T forced (muted s) := by
  have hmode : (muted s).act.mode = s.act.mode := rfl
  rw [startCapture, startCapture, hmode]
  cases s.act.mode
  case normal => exact muted_completeIfFull (normalStarted T forced s)
  case average => exact muted_occurrenceIfFull (occurrenceStarted T forced s)

theorem muted_fillStep (i : Nat) (s : State) : muted (fillStep i s) = fillStep i (muted s) := by
  rw [fillStep, apply_ite muted, muted_completeIfFull]
  rfl

theorem muted_accumulateStep (i : Nat) (s : State) : muted (accumulateStep i s) = accumulateStep i (muted s) := by
  rw [accumulateStep, apply_ite muted, muted_occurrenceIfFull]
  rfl

/-- The comparison reads the store and the active set alone, so the muted unit fires at the same codes (R131). -/
theorem triggerStep_muted (i : Nat) (s : State) :
    triggerStep i (muted s) = (muted (triggerStep i s).1, (triggerStep i s).2) := by
  have htriggered : triggered i (muted s) = triggered i s := rfl
  rw [triggerStep, triggerStep, htriggered]
  split
  case isTrue => exact congrArg (·, true) (muted_startCapture i false (withMiss 0 s)).symm
  case isFalse => rfl

/-! ## One code, one pass, one iteration -/

theorem codeStep_muted (i : Nat) (p : State × Bool) :
    codeStep i (muted p.1, p.2) = (muted (codeStep i p).1, (codeStep i p).2) := by
  have hcstate : (muted p.1).cstate = p.1.cstate := rfl
  rw [codeStep, codeStep, hcstate]
  cases p.1.cstate
  case idle => simp only [triggerStep_muted]
  case filling => exact congrArg (·, p.2) (muted_fillStep i p.1).symm
  case accumulating => exact congrArg (·, p.2) (muted_accumulateStep i p.1).symm
  all_goals rfl

theorem codeSteps_muted (b n : Nat) (p : State × Bool) :
    codeSteps b n (muted p.1, p.2) = (muted (codeSteps b n p).1, (codeSteps b n p).2) := by
  induction n generalizing b p with
  | zero => rfl
  | succ n ih => rw [codeSteps, codeStep_muted, ih, codeSteps]

theorem passScanned_muted (words : List RawWord) (s : State) :
    passScanned words (muted s) = (muted (passScanned words s).1, (passScanned words s).2) := by
  have hloaded : passLoaded words (muted s) = muted (passLoaded words s) :=
    congrArg (decodeBlock words) (muted_latchIfBoundary s).symm
  rw [passScanned, hloaded]
  exact codeSteps_muted s.wp s.par.n (passLoaded words s, false)

theorem muted_missAccount (fired : Bool) (s : State) : muted (missAccount fired s) = missAccount fired (muted s) := by
  rw [missAccount, apply_ite muted]
  rfl

theorem muted_forceFire (fired : Bool) (last : Nat) (s : State) :
    muted (forceFire fired last s) = forceFire fired last (muted s) := by
  rw [forceFire, apply_ite muted, muted_startCapture]
  rfl

theorem muted_processPass (words : List RawWord) (s : State) :
    muted (processPass words s) = processPass words (muted s) := by
  rw [processPass, processPass, passScanned_muted, muted_forceFire, muted_missAccount]
  rfl

theorem muted_pollSlot (k : Slot) (s : State) : muted (pollSlot k s) = pollSlot k (muted s) := by
  rw [pollSlot, pollSlot, apply_ite muted, ← muted_processPass]
  rfl

theorem muted_poll (s : State) : muted (poll s) = poll (muted s) := by
  rw [poll, poll, muted_pollSlot, muted_pollSlot]

/-- Settles O38: states with one capture side are one state when muted, and a POLL commutes with muting. -/
theorem runDoesNotTouchCapture : Obligations.RunDoesNotTouchCapture := by
  intro s t h
  rw [sameCapture_iff_muted_eq] at h ⊢
  rw [muted_poll, muted_poll, h]

end Sys2Proof.Machine
end

section
/-! PROOFS. The Normal-mode capture (O27-O29): its start and one code of it as equations, and the state of a filling frame so
many codes after its trigger. -/

namespace Sys2Proof.Machine

/-! ## The start and one code -/

/-- A forward pixel changes the one column it is taken into (R153). -/
theorem setIfInBounds_eq_ofFn (v : Frame) (i : Nat) (c : Code) :
    v.setIfInBounds i c = Vector.ofFn fun k : Fin FL => if k.val = i then c else v[k] := by
  apply Vector.ext
  intro k hk
  simp only [Vector.getElem_setIfInBounds, Vector.getElem_ofFn, Fin.getElem_fin, eq_comm]

theorem pixelFilled_eq (i : Nat) (s : State) :
    pixelFilled i s = { s with
      framebuf := .tabulate fun ch => Vector.ofFn fun k : Fin FL =>
        if k.val = s.pix.toNat then storeRead s ch i else (s.framebuf.get ch)[k]
      pix := s.pix + 1, skipcnt := s.act.skip } := by
  simp only [pixelFilled, setIfInBounds_eq_ofFn]

/-- Settles O27: the writes of the start are those of the statement, and PIX is FL after them exactly at position FL − 1. -/
theorem startCaptureNormalBackfills : Obligations.StartCaptureNormalBackfills := by
  intro s T forced buf t
  have hpix : t.pix.toNat = FL ↔ s.act.pos.toNat + 1 = FL := toNat_succ_eq_FL_iff s.act.pos
  have ht : normalStarted T forced s = t := rfl
  simp only [startCaptureNormal, ht, completeIfFull, hpix]
  rfl

/-- Settles O28: a code that is not skipped is the next pixel, and PIX is FL after it exactly from the last column. -/
theorem fillStepTakesOrSkips : Obligations.FillStepTakesOrSkips := by
  intro s i buf t
  have hpix : t.pix.toNat = FL ↔ s.pix.toNat + 1 = FL := toNat_succ_eq_FL_iff s.pix
  have ht : pixelFilled i s = t := pixelFilled_eq i s
  simp only [fillStep, ht, completeIfFull, hpix]
  rfl

/-! ## A filling frame, column by column -/

/-- The number of the code that is taken `j` columns after the trigger (R155). -/
def codeOfColumn (a : ActiveCfg) (j : Nat) : Nat := j * (a.skip.toNat + 1)

/-- The last column's code completes the frame. -/
theorem codesToComplete_eq_codeOfColumn (a : ActiveCfg) : codesToComplete a = codeOfColumn a (FL - 1 - a.pos.toNat) := rfl

section
variable (s : State) (idx : Nat → Nat) (stores : Nat → PerChannel Memory) (forced : Bool)

/-- The frame buffer of one channel when the columns below `p` of a capture over the given codes have been taken. -/
def filledBelow (p : Nat) (ch : Channel) : Frame :=
  Vector.ofFn fun k : Fin FL => if k.val < p then ((frameAcross s idx stores).get ch)[k] else (s.framebuf.get ch)[k]

/-- A capture triggered in `s` at the `n`-th code after the trigger, when `j` columns after the trigger have been taken and `r`
codes skipped since. -/
def fillingAt (n j r : Nat) : State :=
  { s with
    store := stores n
    cstate := .filling
    trigIdx := idx 0
    forced := forced
    framebuf := .tabulate (filledBelow s idx stores (s.act.pos.toNat + 1 + j))
    pix := BitVec.ofNat 9 (s.act.pos.toNat + 1 + j)
    skipcnt := s.act.skip - BitVec.ofNat 16 r }

/-- A pixel from the trigger on is read at its own code, from the store as it stands there. -/
theorem getElem_frameAcross_forward {k : Nat} (hk : k < FL) {j : Nat} (hj : k = s.act.pos.toNat + j) (ch : Channel) :
    ((frameAcross s idx stores).get ch)[k] =
      storeRead { s with store := stores (codeOfColumn s.act j) } ch (idx (codeOfColumn s.act j)) := by
  subst hj
  simp [frameAcross, codeOfColumn]

/-- The capture starts with the columns up to the trigger position taken (R151). -/
theorem normalStarted_eq_fillingAt :
    normalStarted (idx 0) forced { s with store := stores 0 } = fillingAt s idx stores forced 0 0 0 := by
  have hbuf : backfilled { s with store := stores 0 } (idx 0) = filledBelow s idx stores (s.act.pos.toNat + 1) := by
    funext ch
    apply Vector.ext
    intro k hk
    simp only [backfilled, filledBelow, Vector.getElem_ofFn, Fin.getElem_fin]
    obtain hlt | rfl | hgt := Nat.lt_trichotomy k s.act.pos.toNat
    · rw [if_pos hlt, if_pos (by omega)]
      simp [frameAcross, hlt]
    · rw [if_neg (by omega), if_pos rfl, if_pos (by omega), getElem_frameAcross_forward s idx stores hk (j := 0) rfl,
        codeOfColumn, Nat.zero_mul]
    · rw [if_neg (by omega), if_neg (by omega), if_neg (by omega)]
  have hpix : s.act.pos + 1 = BitVec.ofNat 9 (s.act.pos.toNat + 1) := by
    rw [BitVec.ofNat_add, BitVec.ofNat_toNat, BitVec.setWidth_eq]
    rfl
  have hskip : s.act.skip - BitVec.ofNat 16 0 = s.act.skip := BitVec.sub_zero _
  simp only [normalStarted, fillingAt, hbuf, hpix, hskip, Nat.add_zero]

/-- A capture with columns left goes on (R153). -/
theorem completeIfFull_fillingAt_of_lt {j : Nat} (hj : s.act.pos.toNat + 1 + j < FL) (n r : Nat) :
    completeIfFull (fillingAt s idx stores forced n j r) = fillingAt s idx stores forced n j r := by
  have hpix : (fillingAt s idx stores forced n j r).pix.toNat = s.act.pos.toNat + 1 + j := toNat_ofNat_pix hj.le
  rw [completeIfFull, hpix, if_neg hj.ne]

/-- A skipped code (R153). -/
theorem fillStep_fillingAt_skip {r : Nat} (hr : r < s.act.skip.toNat) (i n j : Nat) :
    fillStep i (fillingAt s idx stores forced n j r) = fillingAt s idx stores forced n j (r + 1) := by
  have hne : (fillingAt s idx stores forced n j r).skipcnt ≠ 0 := by
    have hmax := s.act.skip.isLt
    intro h0
    have hskip := congrArg BitVec.toNat (sub_eq_zero.mp h0)
    rw [BitVec.toNat_ofNat, Nat.mod_eq_of_lt (by omega)] at hskip
    omega
  have hcount : s.act.skip - BitVec.ofNat 16 (r + 1) = s.act.skip - BitVec.ofNat 16 r - 1 := by
    rw [BitVec.ofNat_add, sub_sub]
    rfl
  rw [fillStep, if_pos hne, fillingAt, fillingAt, hcount]
  rfl

/-- The code of the next column is taken into it (R153). -/
theorem pixelFilled_fillingAt {j n : Nat} (hj : s.act.pos.toNat + 1 + j < FL) (hn : n = codeOfColumn s.act (j + 1)) (r : Nat) :
    pixelFilled (idx n) (fillingAt s idx stores forced n j r) = fillingAt s idx stores forced n (j + 1) 0 := by
  subst hn
  have hpix : (BitVec.ofNat 9 (s.act.pos.toNat + 1 + j)).toNat = s.act.pos.toNat + 1 + j := toNat_ofNat_pix hj.le
  have hbuf : (fun ch => (filledBelow s idx stores (s.act.pos.toNat + 1 + j) ch).setIfInBounds (s.act.pos.toNat + 1 + j)
      (storeRead { s with store := stores (codeOfColumn s.act (j + 1)) } ch (idx (codeOfColumn s.act (j + 1))))) =
        filledBelow s idx stores (s.act.pos.toNat + 1 + (j + 1)) := by
    funext ch
    apply Vector.ext
    intro k hk
    simp only [setIfInBounds_eq_ofFn, filledBelow, Vector.getElem_ofFn, Fin.getElem_fin]
    obtain hlt | heq | hgt := Nat.lt_trichotomy k (s.act.pos.toNat + 1 + j)
    · rw [if_neg hlt.ne, if_pos hlt, if_pos (by omega)]
    · rw [if_pos heq, if_pos (by omega), getElem_frameAcross_forward s idx stores hk (j := j + 1) (by omega)]
    · rw [if_neg hgt.ne', if_neg (by omega), if_neg (by omega)]
  have hskip : s.act.skip - BitVec.ofNat 16 0 = s.act.skip := BitVec.sub_zero _
  have hsucc : BitVec.ofNat 9 (s.act.pos.toNat + 1 + j) + 1 = BitVec.ofNat 9 (s.act.pos.toNat + 1 + (j + 1)) :=
    (BitVec.ofNat_add (s.act.pos.toNat + 1 + j) 1).symm
  simp only [pixelFilled, fillingAt, hpix, hsucc, PerChannel.get_tabulate, ← hbuf, hskip]
  rfl

/-- With the skipped codes past, the code of the next column is taken; the last one publishes (R153, R154). -/
theorem fillStep_fillingAt_take {j n : Nat} (hj : s.act.pos.toNat + 1 + j < FL) (hn : n = codeOfColumn s.act (j + 1)) :
    fillStep (idx n) (fillingAt s idx stores forced n j s.act.skip.toNat) =
      completeIfFull (fillingAt s idx stores forced n (j + 1) 0) := by
  have hzero : (fillingAt s idx stores forced n j s.act.skip.toNat).skipcnt = 0 := by
    rw [fillingAt, BitVec.ofNat_toNat, BitVec.setWidth_eq, sub_self]
  rw [fillStep, if_neg (not_not_intro hzero), pixelFilled_fillingAt s idx stores forced hj hn]

/-- The next code of a filling frame is stepped with the store as it then stands (R153, R242). -/
theorem scanAcross_succ_of_fillingAt {n j r : Nat} {p : State × Bool} {fired : Bool}
    (h : scanAcross idx stores n p = (fillingAt s idx stores forced n j r, fired)) :
    scanAcross idx stores (n + 1) p = (fillStep (idx (n + 1)) (fillingAt s idx stores forced (n + 1) j r), fired) := by
  rw [scanAcross, h]
  rfl

/-- Between two columns codes are skipped. -/
theorem scanAcross_skip {n j r : Nat} {p : State × Bool} {fired : Bool} (hr : r ≤ s.act.skip.toNat)
    (h : scanAcross idx stores n p = (fillingAt s idx stores forced n j 0, fired)) :
    scanAcross idx stores (n + r) p = (fillingAt s idx stores forced (n + r) j r, fired) := by
  induction r with
  | zero => exact h
  | succ r ih =>
    rw [← Nat.add_assoc, scanAcross_succ_of_fillingAt s idx stores forced (ih (Nat.le_of_succ_le hr)),
      fillStep_fillingAt_skip s idx stores forced hr]

/-- The `j`-th column after the trigger is taken by its own code, and the last column completes the frame. -/
theorem scanAcross_column (hmode : s.act.mode = .normal) {j : Nat} (hj : s.act.pos.toNat + 1 + j ≤ FL) (fired : Bool) :
    scanAcross idx stores (codeOfColumn s.act j) (startCapture (idx 0) forced { s with store := stores 0 }, fired) =
      (completeIfFull (fillingAt s idx stores forced (codeOfColumn s.act j) j 0), fired) := by
  induction j with
  | zero =>
    have hzero : codeOfColumn s.act 0 = 0 := Nat.zero_mul _
    rw [hzero, scanAcross, startCapture, hmode, ← normalStarted_eq_fillingAt]
    rfl
  | succ j ih =>
    have hlt : s.act.pos.toNat + 1 + j < FL := by omega
    have hcolumn := ih hlt.le
    rw [completeIfFull_fillingAt_of_lt s idx stores forced hlt] at hcolumn
    have hnext : codeOfColumn s.act (j + 1) = codeOfColumn s.act j + s.act.skip.toNat + 1 := Nat.succ_mul ..
    rw [← fillStep_fillingAt_take s idx stores forced hlt rfl, hnext]
    exact scanAcross_succ_of_fillingAt s idx stores forced (scanAcross_skip s idx stores forced le_rfl hcolumn)

/-- Until its last code a capture is filling, some columns taken and some codes skipped. -/
theorem scanAcross_of_lt (hmode : s.act.mode = .normal) {m : Nat} (hm : m < codesToComplete s.act) (fired : Bool) :
    ∃ j r, scanAcross idx stores m (startCapture (idx 0) forced { s with store := stores 0 }, fired) =
      (fillingAt s idx stores forced m j r, fired) := by
  have hj : m / (s.act.skip.toNat + 1) < FL - 1 - s.act.pos.toNat := 
    Nat.div_lt_of_lt_mul (by rwa [Nat.mul_comm])
  have hr : m % (s.act.skip.toNat + 1) ≤ s.act.skip.toNat := Nat.le_of_lt_succ (Nat.mod_lt _ (Nat.succ_pos _))
  have hm' : codeOfColumn s.act (m / (s.act.skip.toNat + 1)) + m % (s.act.skip.toNat + 1) = m := Nat.div_add_mod' ..
  have hlt : s.act.pos.toNat + 1 + m / (s.act.skip.toNat + 1) < FL := by
    generalize m / (s.act.skip.toNat + 1) = j at hj ⊢
    omega
  have hcolumn := scanAcross_column s idx stores forced hmode hlt.le fired
  rw [completeIfFull_fillingAt_of_lt s idx stores forced hlt] at hcolumn
  have hskipped := scanAcross_skip s idx stores forced hr hcolumn
  rw [hm'] at hskipped
  exact ⟨_, _, hskipped⟩

/-- With every column taken the buffer is the frame, and it is published (R154, R155). -/
theorem scanAcross_complete (hmode : s.act.mode = .normal) (hpos : s.act.pos.toNat < FL) (fired : Bool) :
    (scanAcross idx stores (codesToComplete s.act)
        (startCapture (idx 0) forced { s with store := stores 0 }, fired)).1 =
      publish (frameAcross s idx stores) { s with
        store := stores (codesToComplete s.act), cstate := .filling, trigIdx := idx 0, forced := forced
        framebuf := frameAcross s idx stores, pix := 319, skipcnt := s.act.skip } := by
  have hfull : s.act.pos.toNat + 1 + (FL - 1 - s.act.pos.toNat) = FL := by omega
  have hbuf : PerChannel.tabulate (filledBelow s idx stores FL) = frameAcross s idx stores := by
    refine PerChannel.ext_get fun ch => Vector.ext fun k hk => ?_
    rw [PerChannel.get_tabulate, filledBelow, Vector.getElem_ofFn, if_pos hk]
    rfl
  have hskip : s.act.skip - BitVec.ofNat 16 0 = s.act.skip := BitVec.sub_zero _
  have hat : fillingAt s idx stores forced (codesToComplete s.act) (FL - 1 - s.act.pos.toNat) 0 = { s with
      store := stores (codesToComplete s.act), cstate := .filling, trigIdx := idx 0, forced := forced
      framebuf := frameAcross s idx stores, pix := 319, skipcnt := s.act.skip } := by
    rw [fillingAt, hfull, hbuf, hskip]
    rfl
  rw [codesToComplete_eq_codeOfColumn, scanAcross_column s idx stores forced hmode hfull.le fired,
    ← codesToComplete_eq_codeOfColumn, hat]
  rfl

end

/-! ## A capture within one pass -/

/-- Code steps that read one store are codes scanned with the store standing still. -/
theorem codeSteps_eq_scanAcross (T m : Nat) (p : State × Bool) :
    codeSteps (T + 1) m p = scanAcross (T + ·) (fun _ => p.1.store) m p := by
  induction m with
  | zero => rfl
  | succ m ih =>
    rw [codeSteps_add, scanAcross, ← ih, codeSteps, codeSteps, Nat.add_right_comm, Nat.add_assoc T m 1]
    congr 2
    rw [← codeSteps_store (T + 1) m p]

/-- Read from one store at consecutive indices, the frame of a trigger is that of its store (R155). -/
theorem frameAcross_eq_frameAt (s : State) (T : Nat) : frameAcross s (T + ·) (fun _ => s.store) = frameAt s T := by
  refine PerChannel.ext_get fun ch => Vector.ext fun k hk => ?_
  by_cases hlt : k < s.act.pos.toNat
  · simp [frameAcross, frameAt, pixelIndex, hlt]
  · obtain ⟨j, rfl⟩ := Nat.exists_eq_add_of_le (Nat.le_of_not_lt hlt)
    rw [getElem_frameAcross_forward s (T + ·) (fun _ => s.store) hk rfl, frameAt, PerChannel.get_tabulate, Vector.getElem_ofFn,
      pixelIndex_forward]
    rfl

/-- Settles O29: a capture over any passes column by column, and one within a pass as the case of a store that stands still. -/
theorem normalFrameContent : Obligations.NormalFrameContent := by
  constructor
  case left =>
    intro s T forced hs _ hmode
    have hscan (m : Nat) : codeSteps (T + 1) m (startCapture T forced s, true) =
        scanAcross (T + ·) (fun _ => s.store) m (startCapture T forced s, true) := by
      rw [codeSteps_eq_scanAcross, startCapture_store]
    constructor
    case left =>
      intro m hm
      obtain ⟨j, r, hfill⟩ := scanAcross_of_lt s (T + ·) (fun _ => s.store) forced hmode hm true
      rw [hscan]
      exact hfill ▸ ⟨rfl, rfl⟩
    case right =>
      rw [captureScan, hscan, ← frameAcross_eq_frameAt]
      exact scanAcross_complete s (T + ·) (fun _ => s.store) forced hmode hs.act_legal.pos true
  case right =>
    intro s idx stores forced fired hs _ hmode p
    refine ⟨fun m hm => ?_, scanAcross_complete s idx stores forced hmode hs.act_legal.pos fired⟩
    obtain ⟨j, r, hfill⟩ := scanAcross_of_lt s idx stores forced hmode hm fired
    rw [hfill]
    exact ⟨rfl, rfl⟩

end Sys2Proof.Machine
end

section
/-! PROOFS. One Average-mode occurrence with equal weighting as one equation (O31): the column-by-column sums of the cycle's
proof, closed by OCCURRENCE_COMPLETE. -/

namespace Sys2Proof.Machine

/-- With every column added, the accumulators hold the base and the frame of the trigger (R171-R173). -/
theorem summedBelow_FL (s : State) (T : Nat) (ch : Channel) :
    summedBelow s T FL ch = Vector.ofFn fun k : Fin FL =>
      accumulate ((occurrenceBase s).get ch)[k] (storeRead s ch (pixelIndex s.act T k.val)) := by
  simp only [summedBelow, Fin.is_lt, if_true]

/-- Settles O31: the capture adds every column of its frame once, and OCCURRENCE_COMPLETE re-arms or publishes. -/
theorem occurrenceAddsItsFrame : Obligations.OccurrenceAddsItsFrame := by
  intro s T forced hs _ hmode hhalve base sum u
  obtain ⟨-, -, -, hcomplete⟩ := backfillWeighting
  have hsum : PerChannel.tabulate (summedBelow s T FL) = sum := by
    simp only [funext (summedBelow_FL s T)]
    rfl
  have hforced : ((if s.avgcnt = 0 then false else s.forced) || forced) = ((s.avgcnt != 0 && s.forced) || forced) :=
    congrArg State.forced (occurrenceStarted_eq T forced s)
  have hsummed : occurrenceAt T forced s FL s.act.skip = { u with cstate := .accumulating, acc := sum } := by
    rw [occurrenceAt, hsum, hforced]
    rfl
  rw [captureScan_average T forced hmode hhalve hs.act_legal.pos, hsummed]
  exact hcomplete _ hs.avgcnt_lt

end Sys2Proof.Machine
end

section
/-! PROOFS. The Viewport Mapper (O40-O43): what the class, the clamp and the outcome of a coordinate are as numbers, the
columns of one trace, and the erase of a trace against its drawing. -/

namespace Sys2Proof.Machine

/-! ## One coordinate -/

/-- CLASSIFY, the bounds read as integers (R191). -/
theorem classify_eq (a : ActiveCfg) (y : Int) :
    classify a y = if y < a.yMin.toInt then .below else if a.yMax.toInt < y then .above else .inRange := rfl

/-- A coordinate that is neither below nor above the band fits the 16 bits CLAMP gives it (R192). -/
theorem toInt_ofInt_of_inBand {lo hi : BitVec 16} {y : Int} (hlo : ¬ y < lo.toInt) (hhi : ¬ hi.toInt < y) :
    (BitVec.ofInt 16 y).toInt = y := by
  have hmin : -2 ^ 15 ≤ lo.toInt := BitVec.le_toInt lo
  have hmax : hi.toInt < 2 ^ 15 := BitVec.toInt_lt
  exact BitVec.toInt_ofInt_eq_self (by decide) (by omega) (by omega)

/-- CLAMP as an integer (R192). -/
theorem toInt_clampY (a : ActiveCfg) (y : Int) :
    (clampY a y).toInt = if y < a.yMin.toInt then a.yMin.toInt else if a.yMax.toInt < y then a.yMax.toInt else y := by
  rw [clampY, classify_eq]
  split_ifs with hlo hhi
  case pos | pos => rfl
  case neg => exact toInt_ofInt_of_inBand hlo hhi

/-- In a band that is not empty, testing BELOW first makes no difference. -/
theorem clampInt_of_le {lo hi : Int} (h : lo ≤ hi) (y : Int) :
    clampInt y lo hi = if y < lo then lo else if hi < y then hi else y := by
  unfold clampInt
  split_ifs <;> omega

/-- Settles O40: CLAMP as an integer takes the branches of CLASSIFY, which are `clamp`'s when the band is not empty. -/
theorem coordinatesAreClassifiedAndClamped : Obligations.CoordinatesAreClassifiedAndClamped := fun a y =>
  ⟨fun _ _ => rfl, classify_eq a y, toInt_clampY a y, fun hband => by rw [toInt_clampY, clampInt_of_le hband]⟩

/-! ## The nine outcomes -/

theorem ClampClass.code_le (k : ClampClass) : k.code ≤ 2 := by cases k <;> decide

/-- An outcome number fits its 4 bits (R193). -/
theorem toNat_outcome (a : ActiveCfg) (p q : Int) :
    (outcome a p q).toNat = 3 * (classify a p).code + (classify a q).code := by
  have hp := (classify a p).code_le
  have hq := (classify a q).code_le
  exact Nat.mod_eq_of_lt (by omega)

theorem outcome_le (a : ActiveCfg) (p q : Int) : (outcome a p q).toNat ≤ 8 := by
  have hp := (classify a p).code_le
  have hq := (classify a q).code_le
  rw [toNat_outcome]
  omega

/-- Codes that reach each of the three classes reach each of the nine outcomes: the classes of outcome `o` are `o / 3` and
`o % 3` (R193). -/
theorem exists_outcome_of_classes {a : ActiveCfg} {ch : Channel} {l : List Code}
    (hl : ∀ k < 3, ∃ c ∈ l, (classify a (mapY a ch c)).code = k) {o : Nat} (ho : o < 9) :
    ∃ p ∈ l, ∃ q ∈ l, (outcome a (mapY a ch p) (mapY a ch q)).toNat = o := by
  obtain ⟨p, hp, hpk⟩ := hl (o / 3) (by omega)
  obtain ⟨q, hq, hqk⟩ := hl (o % 3) (by omega)
  refine ⟨p, hp, q, hq, ?_⟩
  rw [toNat_outcome, hpk, hqk]
  exact Nat.div_add_mod o 3

/-- Settles O41: R198's three codes fall in the three classes, so their pairs have the nine outcomes. -/
theorem nineOutcomesAreReached : Obligations.NineOutcomesAreReached := by
  refine ⟨⟨rfl, rfl, rfl⟩, fun a p q => ⟨toNat_outcome a p q, outcome_le a p q⟩, ?_⟩
  intro a ch hmid hdiv hmin hmax
  have hmap (c : Code) : mapY a ch c = 247 - ((c.toNat / 16 : Nat) : Int) := by
    rw [mapY, hmid, hdiv]
    rfl
  have hclass (y : Int) : classify a y = if y < 0 then .below else if 239 < y then .above else .inRange := by
    rw [classify_eq, hmin, hmax]
    rfl
  have h2048 : mapY a ch 2048 = 119 := hmap 2048
  have h4095 : mapY a ch 4095 = -8 := hmap 4095
  have h0 : mapY a ch 0 = 247 := hmap 0
  have hin : classify a 119 = .inRange := hclass 119
  have hbelow : classify a (-8) = .below := hclass (-8)
  have habove : classify a 247 = .above := hclass 247
  refine ⟨h2048, h4095, h0, hin, hbelow, habove, fun o ho => exists_outcome_of_classes (fun k hk => ?_) ho⟩
  match k, hk with
  | 0, _ => exact ⟨2048, by simp, by rw [h2048, hin]; rfl⟩
  | 1, _ => exact ⟨4095, by simp, by rw [h4095, hbelow]; rfl⟩
  | 2, _ => exact ⟨0, by simp, by rw [h0, habove]; rfl⟩

/-! ## A trace and its erase -/

/-- The pair of neighbours that ends at the column after `c`. -/
theorem getElem?_adjacent_toList {α : Type} {n : Nat} (v : Vector α n) {c : Nat} (h : c + 1 < n) :
    (adjacent v.toList)[c]? = some (c + 1, v[c], v[c + 1]) := by
  have hc : v.toList[c]? = some v[c] := by simp [Nat.lt_of_succ_lt h]
  have hnext : v.toList[c + 1]? = some v[c + 1] := by simp [h]
  rw [getElem?_adjacent, hc, hnext]
  rfl

/-- Settles O42: a trace has a record for each pair of neighbouring columns, FL − 1 of them. -/
theorem aTraceIs318Segments : Obligations.ATraceIs318Segments := by
  intro a ch f
  constructor
  case left => simp [drawTrace]
  case right =>
    intro c h
    rw [drawTrace, List.getElem?_map, getElem?_adjacent_toList _ h, Option.map_some, traceY, getElem_mapCols, getElem_mapCols]
    rfl

/-- The ERASE records of the coordinates a draw persists are its DRAW records with the kind and the outcome of an erase, since
the pairs of clamped columns are the clamped pairs of columns (R194, R196). -/
theorem map_eraseRecord_adjacent_clamped (a : ActiveCfg) (ch : Channel) (f : Frame) :
    (adjacent (mapCols (clampY a) (traceY a ch f)).toList).map (fun t => eraseRecord ch t.1 t.2.1 t.2.2) =
      (drawTrace a ch f).map fun r => { r with kind := .erase, outcome := 15 } := by
  rw [toList_mapCols, map_adjacent, drawTrace, List.map_map, List.map_map]
  rfl

/-- Settles O43: after the mapping RY holds an enabled channel's clamped columns, and a disabled channel's is not valid. -/
theorem eraseRemovesWhatWasDrawn : Obligations.EraseRemovesWhatWasDrawn := by
  intro s frame ch
  refine ⟨viewportMap_ryValid frame s ch, ?_⟩
  rw [eraseTrace, viewportMap_ryValid]
  split
  case isTrue hen => rw [viewportMap_ry frame s ch hen, map_eraseRecord_adjacent_clamped]
  case isFalse => rfl

end Sys2Proof.Machine
end

section
/-! PROOFS. The Measurement Engine (O44-O49): the bounds of a frame's codes, the crossings as a part of the column indices, the
bins as the differences of successive crossings, the outlier band in integers and in rationals, and the estimate set. -/

namespace Sys2Proof.Machine

/-! ## Amplitude -/

/-- What lies below a running minimum. -/
theorem le_foldl_min_iff {α : Type} (g : α → Nat) (l : List α) (b n : Nat) :
    n ≤ l.foldl (fun m c => min m (g c)) b ↔ n ≤ b ∧ ∀ c ∈ l, n ≤ g c := by
  induction l generalizing b with
  | nil => simp
  | cons a l ih => simp [ih, and_assoc]

/-- What lies above a running maximum. -/
theorem foldl_max_le_iff {α : Type} (g : α → Nat) (l : List α) (b n : Nat) :
    l.foldl (fun m c => max m (g c)) b ≤ n ↔ b ≤ n ∧ ∀ c ∈ l, g c ≤ n := by
  induction l generalizing b with
  | nil => simp
  | cons a l ih => simp [ih, and_assoc]

theorem code_le (c : Code) : c.toNat ≤ 4095 := by omega

/-- The minimum of a frame is the greatest lower bound of its codes (R210). -/
theorem le_frameMin_iff (f : Frame) (n : Nat) : n ≤ frameMin f ↔ ∀ (k : Nat) (h : k < FL), n ≤ f[k].toNat := by
  rw [frameMin, le_foldl_min_iff]
  constructor
  case mp =>
    rintro ⟨-, hall⟩ k h
    exact hall _ (by simp)
  case mpr =>
    intro hall
    refine ⟨(hall 0 (by decide)).trans (code_le _), fun c hc => ?_⟩
    obtain ⟨k, h, rfl⟩ := Vector.getElem_of_mem (Vector.mem_toList_iff.mp hc)
    exact hall k h

/-- The maximum of a frame is the least upper bound of its codes (R210). -/
theorem frameMax_le_iff (f : Frame) (n : Nat) : frameMax f ≤ n ↔ ∀ (k : Nat) (h : k < FL), f[k].toNat ≤ n := by
  rw [frameMax, foldl_max_le_iff]
  constructor
  case mp =>
    rintro ⟨-, hall⟩ k h
    exact hall _ (by simp)
  case mpr =>
    refine fun hall => ⟨Nat.zero_le n, fun c hc => ?_⟩
    obtain ⟨k, h, rfl⟩ := Vector.getElem_of_mem (Vector.mem_toList_iff.mp hc)
    exact hall k h

theorem frameMin_le (f : Frame) (k : Nat) (h : k < FL) : frameMin f ≤ f[k].toNat := (le_frameMin_iff f _).mp le_rfl k h

theorem le_frameMax (f : Frame) (k : Nat) (h : k < FL) : f[k].toNat ≤ frameMax f := (frameMax_le_iff f _).mp le_rfl k h

/-- The minimum is a code of the frame, since otherwise one more than it would be a lower bound. -/
theorem frameMin_attained (f : Frame) : ∃ (k : Nat) (h : k < FL), f[k].toNat = frameMin f := by
  by_contra! hne
  have hsucc : frameMin f + 1 ≤ frameMin f :=
    (le_frameMin_iff f _).mpr fun k h => Nat.lt_of_le_of_ne (frameMin_le f k h) (hne k h).symm
  omega

/-- The maximum is a code of the frame, since otherwise one less than it would be an upper bound. -/
theorem frameMax_attained (f : Frame) : ∃ (k : Nat) (h : k < FL), f[k].toNat = frameMax f := by
  by_contra! hne
  have hlt (k : Nat) (h : k < FL) : f[k].toNat < frameMax f := Nat.lt_of_le_of_ne (le_frameMax f k h) (hne k h)
  have hpos : f[0].toNat < frameMax f := hlt 0 (by decide)
  have hpred : frameMax f ≤ frameMax f - 1 := (frameMax_le_iff f _).mpr fun k h => Nat.le_sub_one_of_lt (hlt k h)
  omega

/-- Settles O44: the minimum and the maximum are attained bounds, and the voltages are of their differences from 2048. -/
theorem amplitudeOfARecord : Obligations.AmplitudeOfARecord := by
  intro a ch f seq u r
  have hminmax : frameMin f ≤ frameMax f := (frameMin_le f 0 (by decide)).trans (le_frameMax f 0 (by decide))
  have hmax : frameMax f ≤ 4095 := (frameMax_le_iff f _).mpr fun k h => code_le _
  have hp2p : r.p2p = frameMax f - frameMin f := rfl
  refine ⟨frameMin_attained f, frameMin_le f, frameMax_attained f, le_frameMax f, Nat.sub_add_cancel hminmax, by omega,
    ?minMv, ?maxMv, ?p2pMv⟩
  case minMv | maxMv => simp [r, measRecord, volts]
  case p2pMv => rfl

/-! ## Crossings -/

/-- The indices of the pairs of neighbours count up from the first one. -/
theorem map_fst_adjacentFrom {α : Type} (l : List α) (c : Nat) :
    (adjacentFrom c l).map Prod.fst = List.range' c (l.length - 1) := by
  induction l generalizing c with
  | nil => rfl
  | cons a l ih =>
    cases l with
    | nil => rfl
    | cons b l => simpa [adjacentFrom, List.range'_succ] using ih (c + 1)

/-- The pairs of neighbours of a vector. -/
theorem mem_adjacent_toList {α : Type} {n : Nat} (v : Vector α n) (t : Nat × α × α) :
    t ∈ adjacent v.toList ↔ ∃ (c : Nat) (h : c + 1 < n), t = (c + 1, v[c], v[c + 1]) := by
  rw [List.mem_iff_getElem?]
  constructor
  case mp =>
    rintro ⟨c, hc⟩
    obtain ⟨hlen, -⟩ := List.getElem?_eq_some_iff.mp hc
    rw [length_adjacent, Vector.length_toList] at hlen
    have h : c + 1 < n := by omega
    rw [getElem?_adjacent_toList v h, Option.some_inj] at hc
    exact ⟨c, h, hc.symm⟩
  case mpr =>
    rintro ⟨c, h, rfl⟩
    exact ⟨c, getElem?_adjacent_toList v h⟩

/-- A crossing is an index whose column and the one before it pass the reference (R213). -/
theorem mem_crossings_iff (e : Edge) (f : Frame) (k : Nat) :
    k ∈ crossings e f ↔ ∃ (c : Nat) (h : c + 1 < FL), k = c + 1 ∧ cross e f[3] f[c] f[c + 1] = true := by
  simp only [crossings, List.mem_map, List.mem_filter, mem_adjacent_toList]
  constructor
  case mp =>
    rintro ⟨-, ⟨⟨c, h, rfl⟩, hcross⟩, rfl⟩
    exact ⟨c, h, rfl, hcross⟩
  case mpr =>
    rintro ⟨c, h, rfl, hcross⟩
    exact ⟨_, ⟨⟨c, h, rfl⟩, hcross⟩, rfl⟩

theorem succ_mem_crossings_iff (e : Edge) (f : Frame) (k : Nat) (h : k + 1 < FL) :
    k + 1 ∈ crossings e f ↔ cross e f[3] f[k] f[k + 1] = true := by
  rw [mem_crossings_iff]
  constructor
  case mp =>
    rintro ⟨c, _, hk, hcross⟩
    cases hk
    exact hcross
  case mpr =>
    intro hcross
    exact ⟨k, h, rfl, hcross⟩

/-- The crossings are some of the indices in [1, FL), in order (R213). -/
theorem crossings_sublist (e : Edge) (f : Frame) : (crossings e f).Sublist (List.range' 1 (FL - 1)) := by
  have hidx : (adjacent f.toList).map Prod.fst = List.range' 1 (FL - 1) := by
    rw [adjacent, map_fst_adjacentFrom, Vector.length_toList]
  rw [← hidx]
  exact List.filter_sublist.map Prod.fst

theorem crossings_pairwise (e : Edge) (f : Frame) : (crossings e f).Pairwise (· < ·) :=
  .sublist (crossings_sublist e f) (List.pairwise_lt_range' 1)

theorem length_crossings_le (e : Edge) (f : Frame) : (crossings e f).length ≤ 318 := by
  simpa using (crossings_sublist e f).length_le

/-- No code is both strictly on the far side of the reference and past it. -/
theorem cross_self (e : Edge) (c : Code) : cross e c c c = false := by cases e <;> simp [cross]

/-- Settles O45: membership is the edge's comparison, and the order and the bounds are those of the column indices. -/
theorem crossingsAreHalfOpen : Obligations.CrossingsAreHalfOpen := by
  refine ⟨fun f k h => ⟨?rising, ?falling⟩, fun e f => ⟨crossings_pairwise e f, length_crossings_le e f, ?bounds⟩, ?constant⟩
  case rising | falling => simp [succ_mem_crossings_iff _ f k h, cross, BitVec.lt_def, BitVec.le_def]
  case bounds =>
    intro k hk
    obtain ⟨c, h, rfl, -⟩ := (mem_crossings_iff e f k).mp hk
    exact ⟨Nat.succ_pos c, h⟩
  case constant =>
    intro e c
    refine List.eq_nil_iff_forall_not_mem.mpr fun k hk => ?_
    obtain ⟨i, h, -, hcross⟩ := (mem_crossings_iff e _ k).mp hk
    simp [cross_self] at hcross

/-! ## Intervals and bins -/

@[simp] theorem length_intervals (xs : List Nat) : (intervals xs).length = xs.length - 1 := by simp [intervals]

/-- The `j`-th interval is the difference of two successive crossings (R214). -/
theorem getElem?_intervals {xs : List Nat} {j x y : Nat} (hx : xs[j]? = some x) (hy : xs[j + 1]? = some y) :
    (intervals xs)[j]? = some (y - x) := by
  simp [intervals, getElem?_adjacent, hx, hy]

/-- Where the intervals fit the bin array, the bins hold all of them and then zeros (R214). -/
theorem intervalBins_eq {xs : List Nat} (h : (intervals xs).length ≤ TIME_AVG) :
    intervalBins xs = intervals xs ++ List.replicate (TIME_AVG - (intervals xs).length) 0 := by
  rw [intervalBins, List.take_of_length_le h]

/-- Settles O46: at most 318 ascending crossings have at most 317 differences, all positive, which fit the bins. -/
theorem intervalsFitTheBins : Obligations.IntervalsFitTheBins := by
  intro e f xs
  have hlen : (intervals xs).length = xs.length - 1 := length_intervals xs
  have hxs : xs.length ≤ 318 := length_crossings_le e f
  have hmax : (intervals xs).length ≤ 317 := by omega
  have hfit : (intervals xs).length ≤ TIME_AVG := hmax.trans (by decide)
  have hbins := intervalBins_eq hfit
  refine ⟨?size, hmax, hlen, ?filled, ?cleared⟩
  case size =>
    rw [hbins, List.length_append, List.length_replicate, Nat.add_sub_of_le hfit]
  case filled =>
    intro j x y hx hy
    have hj := getElem?_intervals hx hy
    obtain ⟨hltx, rfl⟩ := List.getElem?_eq_some_iff.mp hx
    obtain ⟨hlty, rfl⟩ := List.getElem?_eq_some_iff.mp hy
    have hasc : xs[j] < xs[j + 1] := List.pairwise_iff_getElem.mp (crossings_pairwise e f) j (j + 1) hltx hlty (by omega)
    rw [hbins, List.getElem?_append_left (by omega)]
    exact ⟨hj, Nat.sub_pos_of_lt hasc⟩
  case cleared =>
    intro j hj hcap
    rw [hbins, List.getElem?_append_right (by omega), List.getElem?_replicate_of_lt (by omega)]

/-! ## Outlier rejection -/

theorem nonzeroBins_eq_nil_iff (bins : List Nat) : nonzeroBins bins = [] ↔ ∀ b ∈ bins, b = 0 := by
  simp [nonzeroBins, List.filter_eq_nil_iff]

/-- There is no first mean exactly when there is no interval (R215). -/
theorem firstMean_eq_none_iff (bins : List Nat) : firstMean bins = none ↔ nonzeroBins bins = [] := by
  simp [firstMean]

/-- The first mean is the mean of the nonzero bins (R215). -/
theorem firstMean_eq_some_iff (bins : List Nat) (q : ℚ) :
    firstMean bins = some q ↔
      nonzeroBins bins ≠ [] ∧ ((nonzeroBins bins).sum : ℚ) / ((nonzeroBins bins).length : ℚ) = q := by
  simp [firstMean]

/-- What is kept is chosen bin by bin (R216). -/
theorem outlierReject_eq (bins : List Nat) :
    outlierReject bins = bins.filter fun b =>
      (decide ((nonzeroBins bins).sum ≤ 2 * (nonzeroBins bins).length * b) &&
        decide (2 * (nonzeroBins bins).length * b ≤ 3 * (nonzeroBins bins).sum)) && decide (b ≠ 0) :=
  List.filter_filter

/-- The integer bounds of R216 are those of the rational band. -/
theorem outlierBand_iff {m : Nat} (hm : 0 < m) (S b : Nat) :
    (S ≤ 2 * m * b ↔ 1 / 2 * ((S : ℚ) / m) ≤ b) ∧ (2 * m * b ≤ 3 * S ↔ (b : ℚ) ≤ 3 / 2 * ((S : ℚ) / m)) := by
  have hm' : (0 : ℚ) < m := by exact_mod_cast hm
  have hlow : 1 / 2 * ((S : ℚ) / m) = S / (2 * m) := by field_simp
  have hhigh : 3 / 2 * ((S : ℚ) / m) = 3 * S / (2 * m) := by field_simp
  rw [hlow, hhigh, div_le_iff₀ (by positivity), le_div_iff₀ (by positivity), mul_comm (b : ℚ)]
  exact ⟨by exact_mod_cast Iff.rfl, by exact_mod_cast Iff.rfl⟩

/-- Settles O47: for each bin the integer comparisons of R216 decide the rational band. -/
theorem outlierBandIsClosed : Obligations.OutlierBandIsClosed := by
  intro bins
  refine ⟨(firstMean_eq_none_iff bins).trans (nonzeroBins_eq_nil_iff bins), fun mean1 hmean => ?_⟩
  obtain ⟨hne, rfl⟩ := (firstMean_eq_some_iff bins mean1).mp hmean
  refine ⟨rfl, ?_⟩
  have hband := outlierBand_iff (List.length_pos_iff.mpr hne) (nonzeroBins bins).sum
  rw [outlierReject_eq]
  refine List.filter_congr fun b _ => ?_
  obtain ⟨hlow, hhigh⟩ := hband b
  rw [decide_eq_decide.mpr hlow, decide_eq_decide.mpr hhigh, Bool.and_comm, Bool.and_assoc]

/-! ## The estimate -/

/-- What is kept is some of the nonzero bins (R216). -/
theorem outlierReject_sublist (bins : List Nat) : (outlierReject bins).Sublist (nonzeroBins bins) := List.filter_sublist

/-- Intervals that are kept have a positive sum, each being positive. -/
theorem sum_outlierReject_pos {bins : List Nat} (h : outlierReject bins ≠ []) : 0 < (outlierReject bins).sum := by
  obtain ⟨b, hb⟩ := List.exists_mem_of_ne_nil _ h
  have hne : b ≠ 0 := by simpa using (List.mem_filter.mp ((outlierReject_sublist bins).subset hb)).2
  exact (Nat.pos_of_ne_zero hne).trans_le (List.le_sum_of_mem hb)

/-- FREQ_ESTIMATE is the rate of the second mean; the guard of the first mean changes nothing, since with no interval none is
kept (R219). -/
theorem freqEstimate_eq (a : ActiveCfg) (f : Frame) :
    freqEstimate a f = (secondMean (outlierReject (intervalBins (crossings a.edge f)))).map (rate a) := by
  cases hmean : firstMean (intervalBins (crossings a.edge f)) with
  | some _ => simp only [freqEstimate, hmean]
  | none =>
    have hkeep : outlierReject (intervalBins (crossings a.edge f)) = [] :=
      List.sublist_nil.mp ((firstMean_eq_none_iff _).mp hmean ▸ outlierReject_sublist _)
    simp only [freqEstimate, hmean, hkeep]
    rfl

/-- There is no second mean exactly when no interval is kept (R217). -/
theorem secondMean_eq_none_iff (keep : List Nat) : secondMean keep = none ↔ keep = [] := by simp [secondMean]

/-- The rate of a mean S / m is `m·SPPD / (S·SPPN)` (R218). -/
theorem rate_div (a : ActiveCfg) (S m : Nat) :
    rate a ((S : ℚ) / m) = ((m : ℚ) * a.sppd.toNat) / ((S : ℚ) * a.sppn.toNat) := by
  rw [rate, div_mul_div_comm, one_div_div]

/-- Settles O48: the estimate is the rate of the kept intervals' mean, and all the factors of the quotient are positive. -/
theorem estimateIsTheReciprocalMean : Obligations.EstimateIsTheReciprocalMean := by
  intro a f hn hd keep
  have hest : freqEstimate a f = (secondMean keep).map (rate a) := freqEstimate_eq a f
  rw [hest]
  refine ⟨Option.map_eq_none_iff.trans (secondMean_eq_none_iff keep), fun est h => ?_⟩
  have hkeep : keep ≠ [] := fun hnil => by simp [(secondMean_eq_none_iff keep).mpr hnil] at h
  have hmean : secondMean keep = some ((keep.sum : ℚ) / (keep.length : ℚ)) := by simp [secondMean, hkeep]
  rw [hmean, Option.map_some, Option.some_inj, rate_div] at h
  subst h
  have hsum : 0 < keep.sum := sum_outlierReject_pos hkeep
  have hlen : 0 < keep.length := List.length_pos_iff.mpr hkeep
  have hn' : 0 < a.sppn.toNat := BitVec.toNat_pos_of_ne_zero hn
  have hd' : 0 < a.sppd.toNat := BitVec.toNat_pos_of_ne_zero hd
  exact ⟨by positivity, rfl⟩

/-! ## The estimate set -/

/-- An estimate before the tenth fills its entry and reports nothing (R221). -/
theorem freqSetUpdate_of_lt (set : Vector ℚ MEASURE_AVG) {cnt : BitVec 4} (h : cnt.toNat < 9) (est : Option ℚ) :
    freqSetUpdate set cnt est =
      ⟨set.set cnt.toNat (est.getD 0) (h.trans (by decide : 9 < MEASURE_AVG)), cnt + 1, false, 0⟩ := by
  have hnot : cnt.toNat + 1 ≠ 10 := by omega
  have hset : set.setIfInBounds cnt.toNat (est.getD 0) = set.set cnt.toNat (est.getD 0) (h.trans (by decide)) := by
    rw [← Vector.toList_inj, Vector.toList_setIfInBounds, Vector.toList_set]
  rw [freqSetUpdate, if_neg hnot, hset]

/-- The entries of a set whose last one has just been filled. -/
theorem toList_setIfInBounds_last (set : Vector ℚ MEASURE_AVG) (q : ℚ) :
    (set.setIfInBounds 9 q).toList = set.toList.take 9 ++ [q] := by
  have hlast : set.toList.drop 10 = [] := List.drop_eq_nil_of_le (by simp)
  rw [Vector.toList_setIfInBounds, List.set_eq_take_append_cons_drop, if_pos (by simp), hlast]

/-- Settles O49: the set is complete exactly at the tenth estimate, and `setMean` is the mean of its nonzero entries. -/
theorem estimateSetReportsEveryTenth : Obligations.EstimateSetReportsEveryTenth := by
  intro set cnt est
  refine ⟨fun h => freqSetUpdate_of_lt set h est, ?tenth⟩
  case tenth =>
    rintro rfl nz
    have hmean : setMean (set.setIfInBounds 9 (est.getD 0)) = if nz = [] then none else some (nz.sum / (nz.length : ℚ)) := by
      rw [setMean, toList_setIfInBounds_last]
      simp only [List.length_eq_zero_iff]
      rfl
    have hfull : freqSetUpdate set 9 est =
        ⟨Vector.replicate MEASURE_AVG 0, 0, (setMean (set.setIfInBounds 9 (est.getD 0))).isSome,
          (setMean (set.setIfInBounds 9 (est.getD 0))).getD 0⟩ := rfl
    rw [hfull, hmean]
    by_cases hnil : nz = [] <;> simp [hnil]

end Sys2Proof.Machine
end

section
/-! PROOFS. The commands (O10-O15): the equation of each group of commands, the row a table command writes, and CALIBRATE as one
function of each row of the vertical table. -/

namespace Sys2Proof

theorem PerChannel.get_set {α : Type} (p : PerChannel α) (ch ch' : Channel) (v : α) :
    (p.set ch v).get ch' = if ch' = ch then v else p.get ch' := by
  split
  case isTrue h => rw [h, get_set_same]
  case isFalse h => exact get_set_other p v h

namespace Machine

/-! ## Control and pending registers -/

/-- Write-one-to-clear, bit by bit (R266). -/
theorem clearSticky_eq_ite (m : BitVec 3) (s : State) :
    clearSticky m s = { s with
      ovr := if m.getLsbD 0 = true then false else s.ovr
      cfgerr := if m.getLsbD 1 = true then false else s.cfgerr
      cmderr := if m.getLsbD 2 = true then false else s.cmderr } := by
  have hbit (a b : Bool) : (a && !b) = if b = true then false else a := by cases b <;> simp
  simp only [clearSticky, hbit]

/-- Settles O10: the three equations. -/
theorem controlCommandsResult : Obligations.ControlCommandsResult := fun s =>
  ⟨rfl, fun _ => rfl, fun m => congrArg Host.Outcome.next (clearSticky_eq_ite m s)⟩

/-- Settles O11: each command is one write of the pending registers; SET_CHEN writes its own channel's flag alone. -/
theorem pendingCommandsResult : Obligations.PendingCommandsResult := by
  intro s
  refine ⟨fun _ => rfl, fun ch en => ?chen, fun _ => rfl, fun _ => rfl, fun _ => rfl, fun _ => rfl, fun _ => rfl,
    fun _ => rfl, fun _ => rfl⟩
  case chen => exact ⟨s.pend.chen.set ch en, rfl, fun ch' => PerChannel.get_set _ ch ch' en⟩

/-! ## Clamped selections -/

/-- The clamp of a scale index loses nothing to the field's width (R267, R268). -/
theorem toNat_clampIndex (idx : BitVec 7) (rows : Nat) : (clampIndex idx rows).toNat = min idx.toNat (rows - 1) := by
  rw [clampIndex, BitVec.toNat_ofNat]
  exact Nat.mod_eq_of_lt (lt_of_le_of_lt (Nat.min_le_left _ _) idx.isLt)

/-- The clamp of a trigger position loses nothing to the field's width (R270). -/
theorem toNat_clampPos (pos : BitVec 9) : (clampPos pos).toNat = min pos.toNat (FL - 1) := by
  rw [clampPos, BitVec.toNat_ofNat]
  exact Nat.mod_eq_of_lt (lt_of_le_of_lt (Nat.min_le_left _ _) pos.isLt)

/-- Settles O12: each selection is one write of the pending registers, with the clamped number. -/
theorem selectionCommandsClamp : Obligations.SelectionCommandsClamp := by
  intro s
  refine ⟨fun ch idx => ⟨s.pend.vscale.set ch (clampIndex idx s.nv), rfl, ?same, fun ch' hne => ?other⟩,
    fun idx => ⟨clampIndex idx s.nh, rfl, toNat_clampIndex idx s.nh⟩,
    fun _ pos _ _ => ⟨clampPos pos, rfl, toNat_clampPos pos⟩⟩
  case same => rw [PerChannel.get_set_same, toNat_clampIndex]
  case other => exact PerChannel.get_set_other _ _ hne

/-! ## Scale tables -/

section
variable {s : State} {idx : BitVec 7} {bad : Bool}

theorem loadVrow_of_refused (f : VRow → VRow) (h : s.nv ≤ idx.toNat ∨ bad = true) : loadVrow idx bad f s = setCfgerr s := by
  rw [loadVrow, if_pos (by simpa using h)]

theorem loadVrow_of_accepted (f : VRow → VRow) (h : ¬ (s.nv ≤ idx.toNat ∨ bad = true)) :
    loadVrow idx bad f s = modifyVrow idx f s := by
  rw [loadVrow, if_neg (by simpa using h)]

theorem loadHrow_of_refused (f : HRow → HRow) (h : s.nh ≤ idx.toNat ∨ bad = true) : loadHrow idx bad f s = setCfgerr s := by
  rw [loadHrow, if_pos (by simpa using h)]

theorem loadHrow_of_accepted (f : HRow → HRow) (h : ¬ (s.nh ≤ idx.toNat ∨ bad = true)) :
    loadHrow idx bad f s = modifyHrow idx f s := by
  rw [loadHrow, if_neg (by simpa using h)]

end

/-- One row of a table changed, every other row as it was. -/
theorem getElem?_modify_of_some {α : Type} {l : List α} {r : Nat} {row : α} (h : l[r]? = some row) (i : Nat) (f : α → α) :
    (l.modify i f)[r]? = some (if r = i then f row else row) := by
  rw [List.getElem?_modify, h]
  simp only [eq_comm (a := i)]
  split <;> rfl

theorem modifyVrow_written (idx : BitVec 7) (f : VRow → VRow) (s : State) :
    VrowWritten idx.toNat f s (modifyVrow idx f s) :=
  ⟨rfl, nv_modifyVrow idx f s, fun _ _ h => getElem?_modify_of_some h idx.toNat f⟩

theorem modifyHrow_written (idx : BitVec 7) (f : HRow → HRow) (s : State) :
    HrowWritten idx.toNat f s (modifyHrow idx f s) :=
  ⟨rfl, nh_modifyHrow idx f s, fun _ _ h => getElem?_modify_of_some h idx.toNat f⟩

/-- A vertical table command that is accepted writes its row alone (R271-R273). -/
theorem loadVrow_written {idx : BitVec 7} {bad : Bool} {s : State} (f : VRow → VRow)
    (h : ¬ (s.nv ≤ idx.toNat ∨ bad = true)) :
    ∃ t, Host.Outcome.next (φ := Fault) (ρ := Refusal) (loadVrow idx bad f s) = .next t ∧ VrowWritten idx.toNat f s t :=
  ⟨_, rfl, loadVrow_of_accepted f h ▸ modifyVrow_written idx f s⟩

/-- A horizontal table command that is accepted writes its row alone (R274-R276). -/
theorem loadHrow_written {idx : BitVec 7} {bad : Bool} {s : State} (f : HRow → HRow)
    (h : ¬ (s.nh ≤ idx.toNat ∨ bad = true)) :
    ∃ t, Host.Outcome.next (φ := Fault) (ρ := Refusal) (loadHrow idx bad f s) = .next t ∧ HrowWritten idx.toNat f s t :=
  ⟨_, rfl, loadHrow_of_accepted f h ▸ modifyHrow_written idx f s⟩

/-- Settles O13: per command, the refusal and the row written. -/
theorem loadVerticalRow : Obligations.LoadVerticalRow := by
  intro s idx v
  refine ⟨?div, ?mvpp, ?mid⟩
  case div =>
    split
    case isTrue h => exact congrArg _ (loadVrow_of_refused _ (by simpa using h))
    case isFalse h => exact loadVrow_written _ (by simpa using h)
  case mvpp =>
    split
    case isTrue h => exact congrArg _ (loadVrow_of_refused _ (.inl h))
    case isFalse h => exact loadVrow_written _ (by simpa using h)
  case mid =>
    split
    case isTrue h => exact fun ch => congrArg _ (loadVrow_of_refused _ (.inl h))
    case isFalse h => exact ⟨loadVrow_written _ (by simpa using h), loadVrow_written _ (by simpa using h)⟩

/-- Settles O14: per command, the refusal and the row written. -/
theorem loadHorizontalRow : Obligations.LoadHorizontalRow := by
  intro s idx v
  refine ⟨?skip, ?sppn, ?sppd⟩
  case skip =>
    split
    case isTrue h => exact congrArg _ (loadHrow_of_refused _ (.inl h))
    case isFalse h => exact loadHrow_written _ (by simpa using h)
  case sppn | sppd =>
    split
    case isTrue h => exact congrArg _ (loadHrow_of_refused _ (by simpa using h))
    case isFalse h => exact loadHrow_written _ (by simpa using h)

/-! ## CALIBRATE -/

/-- What CALIBRATE makes of row `r` of the vertical table: the midlevel of each channel that is enabled in the last frame and
whose active scale is this row is calibrated (R263). -/
def calibratedRow (s : State) (r : Nat) (row : VRow) : VRow :=
  ⟨row.div, row.mvpp, .tabulate fun ch =>
    if s.lfChen.get ch = true ∧ (s.act.vscale.get ch).toNat = r then calibratedMid s ch else row.mid.get ch⟩

/-- CALIBRATE of both channels, once a frame has been published (R263). -/
def calibrateBoth (s : State) : State := calibrateChannel .ch2 (calibrateChannel .ch1 s)

theorem execCalibrate_of_frame {s : State} (h : s.lfValid = true) : exec .calibrate s = .next (calibrateBoth s) := by
  rw [exec, execCalibrate, if_pos h, calibrateBoth]

theorem execCalibrate_of_no_frame {s : State} (h : s.lfValid = false) : exec .calibrate s = .next s := by
  rw [exec, execCalibrate, if_neg (by simp [h])]

@[simp] theorem calibratedMid_calibrateChannel (ch ch' : Channel) (s : State) :
    calibratedMid (calibrateChannel ch' s) ch = calibratedMid s ch := by
  simp [calibratedMid]

theorem calibrateChannel_onlyVtab (ch : Channel) (s : State) :
    calibrateChannel ch s = { s with vtab := (calibrateChannel ch s).vtab } := by
  unfold calibrateChannel
  split <;> rfl

/-- One channel's calibration of each row. -/
theorem getElem?_calibrateChannel (ch : Channel) (s : State) (r : Nat) :
    (calibrateChannel ch s).vtab[r]? = s.vtab[r]?.map fun row =>
      if s.lfChen.get ch = true ∧ (s.act.vscale.get ch).toNat = r then
        { row with mid := row.mid.set ch (calibratedMid s ch) }
      else row := by
  unfold calibrateChannel
  split
  case isTrue hen => simp only [hen, true_and, modifyVrow_vtab, List.getElem?_modify]; congr 1
  case isFalse hen => simp [hen]

theorem calibrateBoth_onlyVtab (s : State) : calibrateBoth s = { s with vtab := (calibrateBoth s).vtab } := by
  have h1 := calibrateChannel_onlyVtab .ch1 s
  have h2 := calibrateChannel_onlyVtab .ch2 (calibrateChannel .ch1 s)
  rw [calibrateBoth, h2, h1]

theorem getElem?_calibrateBoth (s : State) (r : Nat) :
    (calibrateBoth s).vtab[r]? = s.vtab[r]?.map (calibratedRow s r) := by
  rw [calibrateBoth, getElem?_calibrateChannel, getElem?_calibrateChannel, Option.map_map]
  congr 1
  funext row
  simp only [Function.comp, calibrateChannel_lfChen, calibrateChannel_act, calibratedMid_calibrateChannel, calibratedRow]
  simp only [PerChannel.tabulate]
  split_ifs <;> rfl

theorem calibrateBoth_nv (s : State) : (calibrateBoth s).nv = s.nv := by
  simp only [State.nv, calibrateBoth, calibrateChannel]
  split <;> split <;> simp

/-- Calibrating a calibrated row writes the values it holds (R263). -/
theorem calibratedRow_idem (s : State) (r : Nat) (row : VRow) :
    calibratedRow s r (calibratedRow s r row) = calibratedRow s r row := by
  simp only [calibratedRow, PerChannel.get_tabulate]
  congr 2
  funext ch
  split <;> rfl

/-- CALIBRATE reads nothing that it writes. -/
theorem calibratedRow_calibrateBoth (s : State) : calibratedRow (calibrateBoth s) = calibratedRow s := by
  simp [funext_iff, calibratedRow, calibrateBoth]

theorem calibrateBoth_idem (s : State) : calibrateBoth (calibrateBoth s) = calibrateBoth s := by
  have hrows : (calibrateBoth (calibrateBoth s)).vtab = (calibrateBoth s).vtab := by
    refine List.ext_getElem? fun r => ?_
    rw [getElem?_calibrateBoth, getElem?_calibrateBoth, calibratedRow_calibrateBoth, Option.map_map]
    exact congrArg (Option.map · _) (funext (calibratedRow_idem s r))
  rw [calibrateBoth_onlyVtab (calibrateBoth s), hrows]

/-- The mean of a frame is a code. -/
theorem frameMean_lt (f : Frame) : frameMean f < 4096 := by
  have hsum : (f.toList.map BitVec.toNat).sum ≤ (f.toList.map BitVec.toNat).length * 4095 := by
    refine List.sum_le_card_nsmul _ 4095 fun n hn => ?_
    obtain ⟨c, -, rfl⟩ := List.mem_map.1 hn
    omega
  rw [List.length_map, Vector.length_toList] at hsum
  exact Nat.div_lt_of_lt_mul (lt_of_le_of_lt hsum (by norm_num))

/-- Saturation leaves a number of 16 signed bits as it is (R13). -/
theorem toInt_sat16 {v : Int} (hlo : -32768 ≤ v) (hhi : v ≤ 32767) : (sat16 v).toInt = v := by
  have hclamp : clampInt v (-32768) 32767 = v := by rw [clampInt, max_eq_left hlo, min_eq_left hhi]
  rw [sat16, hclamp, BitVec.toInt_ofInt, Int.bmod_eq_of_le] <;> omega

/-- MAP_Y takes a code down from the midlevel by its pixels, so a midlevel that many above `y` puts the code at `y` (R190). -/
theorem mapY_eq_of_mid {a : ActiveCfg} {ch : Channel} {c : Code} {y : Int}
    (h : (a.mid.get ch).toInt = y + ((c.toNat / (a.div.get ch).toNat : Nat) : Int)) : mapY a ch c = y := by
  rw [mapY, signed16, h]
  omega

/-- Settles O15: row by row for the written midlevels; the mean's pixels cancel in MAP_Y for where the mean then stands. -/
theorem calibrateCentresTheMean : Obligations.CalibrateCentresTheMean := by
  refine ⟨fun s => ?written, fun s ch a hdiv hmid hlo hhi => mapY_eq_of_mid ?centred⟩
  case written =>
    by_cases hlf : s.lfValid = true
    case pos =>
      have hlf' : (calibrateBoth s).lfValid = true := (congrArg State.lfValid (calibrateBoth_onlyVtab s)).trans hlf
      have hagain : exec .calibrate (calibrateBoth s) = .next (calibrateBoth s) := by
        rw [execCalibrate_of_frame hlf', calibrateBoth_idem]
      exact ⟨calibrateBoth s, execCalibrate_of_frame hlf, calibrateBoth_onlyVtab s, calibrateBoth_nv s,
        fun hno => absurd hlf (by simp [hno]), fun _ r row hrow => by rw [getElem?_calibrateBoth, hrow]; rfl, hagain⟩
    case neg =>
      have hno : exec .calibrate s = .next s := execCalibrate_of_no_frame (by simpa using hlf)
      exact ⟨s, hno, rfl, rfl, fun _ => rfl, fun h => absurd h hlf, hno⟩
  case centred =>
    rw [hmid, hdiv, calibratedMid, toInt_sat16 hlo hhi, BitVec.toNat_ofNat, Nat.mod_eq_of_lt (frameMean_lt _)]

end Machine
end Sys2Proof
end

section
/-! PROOFS. Completion, the sticky bits and reset (O9, O17, O55): every step answers, and what one step does to OVR, CFGERR and
CMDERR, said once. -/

namespace Sys2Proof.Machine

/-! ## Completion -/

/-- Settles O9: a command is made of the host's writes, which all answer; of the events, a delivery alone can be refused. -/
theorem everyStepCompletes : Obligations.EveryStepCompletes := by
  refine ⟨fun i s => ?command, fun s hblock => ?step, fun s k ws rest hin hlen => ?refused⟩
  case command =>
    obtain ⟨t, ht, -⟩ := exec_hostWrites s i
    exact ⟨t, ht⟩
  case step =>
    obtain ⟨-, h⟩ | ⟨k, ws, rest, hin, h⟩ | ⟨w, rest, -, h⟩ | ⟨rest, -, h⟩ | ⟨a, rest, -, h⟩ := step_cases s <;> rw [h]
    case inr.inl => exact ⟨_, if_pos (hblock k ws rest hin)⟩
    case inr.inr.inl =>
      obtain ⟨t, ht, -⟩ := command_hostWrites w { s with inputs := rest }
      exact ⟨t, ht⟩
    all_goals exact ⟨_, rfl⟩
  case refused =>
    rw [step_of_inputs_cons hin]
    exact if_neg hlen

/-! ## The sticky bits -/

/-- The three sticky bits: OVR, CFGERR, CMDERR (R43). -/
def stickyBits (s : State) : Bool × Bool × Bool := (s.ovr, s.cfgerr, s.cmderr)

theorem stickyBits_eq_iff {s : State} {ovr cfgerr cmderr : Bool} :
    stickyBits s = (ovr, cfgerr, cmderr) ↔ s.ovr = ovr ∧ s.cfgerr = cfgerr ∧ s.cmderr = cmderr := by
  simp [stickyBits]

/-- What one step can do to the sticky bits, each with the event at the schedule's head that it takes (R302-R306). -/
inductive StickyEffect (s t : State) : Prop
  | kept (bits : stickyBits t = stickyBits s)
  | overran {k : Slot} {ws : List RawWord} {rest : List Event} (head : s.inputs = .deliver k ws :: rest)
      (full : (s.mbox.get k).flag = true) (bits : stickyBits t = (true, s.cfgerr, s.cmderr))
  | refused {w : CmdWord} {i : Instr} {rest : List Event} (head : s.inputs = .command w :: rest)
      (word : decode w = .ok i) (operand : refusedOperand s i = true) (bits : stickyBits t = (s.ovr, true, s.cmderr))
  | reserved {w : CmdWord} {e : DecodeError} {rest : List Event} (head : s.inputs = .command w :: rest)
      (word : decode w = .error e) (bits : stickyBits t = (s.ovr, s.cfgerr, true))
  | cleared {w : CmdWord} {m : BitVec 3} {rest : List Event} (head : s.inputs = .command w :: rest)
      (word : decode w = .ok (.clearStatus m))
      (bits : stickyBits t = (s.ovr && !m.getLsbD 0, s.cfgerr && !m.getLsbD 1, s.cmderr && !m.getLsbD 2))

/-- An operand that is refused sets CFGERR and does nothing else (R304). -/
theorem exec_of_refusedOperand {i : Instr} {s : State} (h : refusedOperand s i = true) :
    exec i s = .next (setCfgerr s) := by
  cases i with
  | loadVdiv idx data => exact congrArg _ (loadVrow_of_refused _ (by simpa [refusedOperand] using h))
  | loadVmvpp idx data | loadVmid ch idx data =>
    exact congrArg _ (loadVrow_of_refused _ (.inl (by simpa [refusedOperand] using h)))
  | loadHskip idx data => exact congrArg _ (loadHrow_of_refused _ (.inl (by simpa [refusedOperand] using h)))
  | loadHsppn idx data | loadHsppd idx data =>
    exact congrArg _ (loadHrow_of_refused _ (by simpa [refusedOperand] using h))
  | setNumavg data => exact congrArg _ (if_pos (by simpa [refusedOperand] using h))
  | _ => exact absurd h Bool.false_ne_true

theorem stickyBits_loadVrow {s : State} {idx : BitVec 7} {bad : Bool} (f : VRow → VRow)
    (h : ¬ (s.nv ≤ idx.toNat ∨ bad = true)) : stickyBits (loadVrow idx bad f s) = stickyBits s := by
  rw [loadVrow_of_accepted f h]; rfl

theorem stickyBits_loadHrow {s : State} {idx : BitVec 7} {bad : Bool} (f : HRow → HRow)
    (h : ¬ (s.nh ≤ idx.toNat ∨ bad = true)) : stickyBits (loadHrow idx bad f s) = stickyBits s := by
  rw [loadHrow_of_accepted f h]; rfl

/-- A command that is not refused leaves the sticky bits alone, but for CLEAR_STATUS (R266, R302-R306). -/
theorem stickyBits_exec {i : Instr} {s t : State} (ht : exec i s = .next t) (hok : refusedOperand s i = false)
    (hclear : ∀ m, i ≠ .clearStatus m) : stickyBits t = stickyBits s := by
  cases i <;> cases ht
  case clearStatus m => exact absurd rfl (hclear m)
  case calibrate => split <;> simp [stickyBits]
  case loadVdiv | loadVmvpp | loadVmid => exact stickyBits_loadVrow _ (by simpa [refusedOperand] using hok)
  case loadHskip | loadHsppn | loadHsppd => exact stickyBits_loadHrow _ (by simpa [refusedOperand] using hok)
  case setNumavg data => rw [if_neg (by simpa [refusedOperand] using hok)]; rfl
  all_goals rfl

/-- The bounds an operand is refused by do not read the schedule. -/
theorem refusedOperand_withInputs (s : State) (rest : List Event) (i : Instr) :
    refusedOperand { s with inputs := rest } i = refusedOperand s i := rfl

theorem stickyBits_poll (s : State) : stickyBits (poll s) = stickyBits s := by
  obtain ⟨-, -, -, -, -, hovr, hcfg, hcmd, -⟩ := (onlyConsumerWrites_iff s (poll s)).1 (pollWritesOnlyConsumerState.1 s)
  rw [stickyBits, hovr, hcfg, hcmd, stickyBits]

/-- The agents' steps one by one (R302-R306). -/
theorem step_stickyEffect {s t : State} (ht : step s = .next t) : StickyEffect s t := by
  obtain ⟨-, h⟩ | ⟨k, ws, rest, hin, h⟩ | ⟨w, rest, hin, h⟩ | ⟨rest, -, h⟩ | ⟨a, rest, -, h⟩ := step_cases s <;> rw [h] at ht
  case inl => cases ht; exact .kept (stickyBits_poll s)
  case inr.inl =>
    obtain ⟨-, hd⟩ | ⟨-, hfull, hd⟩ | ⟨-, -, hd⟩ := deliverStep_cases k ws { s with inputs := rest } <;> rw [hd] at ht <;>
      cases ht
    · exact .overran hin hfull rfl
    · exact .kept rfl
  case inr.inr.inl =>
    obtain ⟨i, hw, hc⟩ | ⟨e, hw, hc⟩ := command_cases w { s with inputs := rest } <;> rw [hc] at ht
    case inr => cases ht; exact .reserved hin hw rfl
    case inl =>
      cases hop : refusedOperand s i with
      | true =>
        rw [exec_of_refusedOperand ((refusedOperand_withInputs s rest i).trans hop)] at ht
        cases ht
        exact .refused hin hw hop rfl
      | false =>
        by_cases hclear : ∃ m, i = .clearStatus m
        · obtain ⟨m, rfl⟩ := hclear
          cases ht
          exact .cleared hin hw rfl
        · have bits : stickyBits t = stickyBits { s with inputs := rest } :=
            stickyBits_exec ht ((refusedOperand_withInputs s rest i).trans hop) fun m hm => hclear ⟨m, hm⟩
          exact .kept bits
  case inr.inr.inr.inl => cases ht; exact .kept (stickyBits_poll _)
  case inr.inr.inr.inr => cases ht; exact .kept rfl

/-- Settles O17: the two forward causes as equations, and each change of a bit by the effect of the step that made it. -/
theorem stickyBitsHaveTheirCauses : Obligations.StickyBitsHaveTheirCauses := by
  refine ⟨fun i s h => exec_of_refusedOperand h, fun w s ⟨e, h⟩ => command_of_decode_error h s, fun s t ht => ?_⟩
  -- The head event of the effect is the witness of its clause; the other clauses' bits did not change as they say.
  obtain bits | ⟨head, full, bits⟩ | ⟨head, word, operand, bits⟩ | ⟨head, word, bits⟩ | ⟨head, word, bits⟩ :=
    step_stickyEffect ht
  all_goals
    obtain ⟨hovr, hcfg, hcmd⟩ := stickyBits_eq_iff.1 bits
    simp_all

/-! ## Reset -/

/-- Settles O55: value by value; the active set is the one the reset's latch gives. -/
theorem resetHoldsTheSpecValues : Obligations.ResetHoldsTheSpecValues := by
  intro p
  refine ⟨storeRead_resetWith p, rfl, fun k => ?flags, ⟨rfl, rfl, rfl, rfl, rfl, rfl, rfl, rfl, rfl, rfl, rfl, rfl, rfl,
    rfl, rfl⟩, rfl, rfl, rfl, rfl, rfl, rfl, rfl, rfl, rfl, fun ch => ?channels, rfl, rfl, rfl, rfl, rfl, rfl, rfl, rfl, rfl,
    rfl⟩
  case flags => cases k <;> rfl
  case channels => cases ch <;> exact ⟨rfl, rfl, rfl, rfl, rfl, rfl, rfl, rfl⟩

end Sys2Proof.Machine
end

section
/-! PROOFS. The consumer loop and the producer (O50, O51, O53, O59): one slot of a POLL as one equation, the order of a pass, the
two outcomes of a delivery, and a schedule in which no delivery finds its slot full. -/

namespace Sys2Proof.Machine

/-! ## POLL -/

theorem pollSlot_of_empty {k : Slot} {s : State} (h : (s.mbox.get k).flag = false) : pollSlot k s = s := by
  rw [pollSlot, if_neg (by simp [h])]

/-- A flagged slot is processed, and its flag cleared; the pass itself writes no mailbox (R240). -/
theorem pollSlot_of_full {k : Slot} {s : State} (h : (s.mbox.get k).flag = true) :
    pollSlot k s = { processPass (s.mbox.get k).data s with mbox := s.mbox.set k ⟨(s.mbox.get k).data, false⟩ } := by
  rw [pollSlot, if_pos h, consumed, processPass_mbox]

/-- Flagged or not, a slot is left with its data and a clear flag, and the other slot as it was (R240). -/
theorem pollSlot_mbox_get (k k' : Slot) (s : State) :
    (pollSlot k s).mbox.get k' = if k' = k then ⟨(s.mbox.get k).data, false⟩ else s.mbox.get k' := by
  cases hf : (s.mbox.get k).flag with
  | false =>
    rw [pollSlot_of_empty hf, ← hf]
    split
    case isTrue h => rw [h]
    case isFalse => rfl
  | true =>
    rw [pollSlot_of_full hf]
    split
    case isTrue h => rw [h]; exact PerSlot.get_set_same _ k _
    case isFalse h => exact PerSlot.get_set_other _ _ h

/-- After a POLL both flags are clear and the mailbox data are as they were (R240). -/
theorem poll_mbox_get (k : Slot) (s : State) : (poll s).mbox.get k = ⟨(s.mbox.get k).data, false⟩ := by
  rw [poll, pollSlot_mbox_get, pollSlot_mbox_get, pollSlot_mbox_get]
  cases k <;> rfl

/-- Settles O50: slot by slot for each combination of the two flags. -/
theorem pollConsumesBothSlots : Obligations.PollConsumesBothSlots := by
  intro s
  refine ⟨fun h0 h1 => ?idle, fun h0 h1 => ?ping, fun h0 h1 => ?pong, fun h0 h1 => ?both, fun k => poll_mbox_get k s⟩
  case idle => rw [poll, pollSlot_of_empty h0, pollSlot_of_empty h1]
  case ping =>
    have hpong : ((pollSlot .ping s).mbox.get .pong).flag = false := by rw [pollSlot_mbox_get]; exact h1
    rw [poll, pollSlot_of_empty hpong, pollSlot_of_full h0]
    rfl
  case pong =>
    rw [poll, pollSlot_of_empty h0, pollSlot_of_full h1]
    rfl
  case both =>
    have hpong : ((pollSlot .ping s).mbox.get .pong).flag = true := by rw [pollSlot_mbox_get]; exact h1
    rw [poll, pollSlot_of_full hpong, pollSlot_of_full h0]
    rfl

/-! ## A pass -/

/-- The last of a run of codes is stepped last (R241). -/
theorem codeSteps_succ (b n : Nat) (p : State × Bool) : codeSteps b (n + 1) p = codeStep (b + n) (codeSteps b n p) :=
  codeSteps_add b n 1 p

/-- An armed detector starts a capture at a code that makes an edge, with MISS cleared (R131, R132, R242). -/
theorem codeStep_of_triggered {s : State} {i : Nat} (hidle : s.cstate = .idle) (hedge : triggered i s = true) (fired : Bool) :
    codeStep i (s, fired) = (startCapture i false { s with miss := 0 }, true) := by
  simp [codeStep, hidle, triggerStep, hedge, fire, withMiss]

theorem codeStep_of_filling {s : State} (h : s.cstate = .filling) (i : Nat) (fired : Bool) :
    codeStep i (s, fired) = (fillStep i s, fired) := by
  simp only [codeStep, h]

theorem codeStep_of_accumulating {s : State} (h : s.cstate = .accumulating) (i : Nat) (fired : Bool) :
    codeStep i (s, fired) = (accumulateStep i s, fired) := by
  simp only [codeStep, h]

/-- Settles O51: the pass by its definition, the scan from its last code, one equation per capture state. -/
theorem passRunsInOrder : Obligations.PassRunsInOrder :=
  ⟨fun _ _ => rfl, fun b n p => ⟨rfl, codeSteps_succ b n p⟩, fun i _ fired =>
    ⟨fun hidle hedge => codeStep_of_triggered hidle hedge fired, fun hidle hquiet => codeStep_of_not_triggered hidle hquiet fired,
      fun h => codeStep_of_filling h i fired, fun h => codeStep_of_accumulating h i fired⟩⟩

/-! ## DELIVER -/

theorem deliverStep_of_empty {k : Slot} {words : List RawWord} {s : State} (hlen : words.length = s.par.n)
    (h : (s.mbox.get k).flag = false) : deliverStep k words s = .next (fillSlot k words s) := by
  rw [deliverStep, if_pos hlen, deliver, if_neg (by simp [h])]

theorem deliverStep_of_full {k : Slot} {words : List RawWord} {s : State} (hlen : words.length = s.par.n)
    (h : (s.mbox.get k).flag = true) : deliverStep k words s = .next (overrun k s) := by
  rw [deliverStep, if_pos hlen, deliver, if_pos h]

/-- Settles O53: the slot filled, or overrun with as many drawn words as a block has. -/
theorem deliverFillsOrOverruns : Obligations.DeliverFillsOrOverruns := fun s _ _ hlen =>
  ⟨fun h => deliverStep_of_empty hlen h,
    fun h => ⟨drawnWords s.draws s.par.n, length_drawnWords s.draws s.par.n, deliverStep_of_full hlen h⟩⟩

/-! ## The throughput obligation -/

theorem mailFlags_get (s : State) (k : Slot) : (mailFlags s).get k = (s.mbox.get k).flag := by cases k <;> rfl

theorem mailFlags_congr {s t : State} (h : t.mbox = s.mbox) : mailFlags t = mailFlags s := by rw [mailFlags, h, mailFlags]

theorem mailFlags_poll (s : State) : mailFlags (poll s) = ⟨false, false⟩ := by rw [mailFlags, poll_mbox_get, poll_mbox_get]

theorem mailFlags_fillSlot (k : Slot) (words : List RawWord) (s : State) :
    mailFlags (fillSlot k words s) = (mailFlags s).set k true := by cases k <;> rfl

/-- What a schedule that keeps the throughput obligation has left to run: whole blocks, no delivery into a full slot, and OVR
clear (R248). -/
structure OnSchedule (s : State) : Prop where
  blocks : wholeBlocks s.par.n s.inputs = true
  throughput : keepsThroughput (mailFlags s) s.inputs = true
  ovr : s.ovr = false

/-- A step of the host or the read port, or a POLL, sets no OVR: that needs a delivery (R303). -/
theorem ovr_of_no_delivery {s t : State} (ht : step s = .next t) (hovr : s.ovr = false)
    (hno : ∀ k ws rest, s.inputs ≠ .deliver k ws :: rest) : t.ovr = false := by
  by_contra hset
  obtain ⟨-, -, hcauses⟩ := stickyBitsHaveTheirCauses
  obtain ⟨hfull, -⟩ := hcauses s t ht
  obtain ⟨⟨k, ws, rest, hin, -⟩, -⟩ := hfull hovr (by simpa using hset)
  exact hno k ws rest hin

/-- A step that is no delivery, and leaves flags the rest of the schedule keeps the obligation from, stays on schedule. -/
theorem OnSchedule.of_no_delivery {s t : State} {e : Event} {rest : List Event} (h : OnSchedule s) (ht : step s = .next t)
    (hin : s.inputs = e :: rest) (hno : ∀ k ws, e ≠ .deliver k ws) (hpar : t.par = s.par) (hrest : t.inputs = rest)
    (hkeep : keepsThroughput (mailFlags t) rest = true) : OnSchedule t where
  blocks := by
    have hall := h.blocks
    rw [hin, wholeBlocks, List.all_cons, Bool.and_eq_true] at hall
    rw [hpar, hrest]
    exact hall.2
  throughput := hrest ▸ hkeep
  ovr := ovr_of_no_delivery ht h.ovr fun k ws _ hin' => hno k ws (List.cons.inj (hin.symm.trans hin')).1

/-- The next step of a schedule is taken, and leaves the rest of it on schedule (R248). -/
theorem OnSchedule.exists_step {s : State} (h : OnSchedule s) {e : Event} {rest : List Event} (hin : s.inputs = e :: rest) :
    ∃ t, step s = .next t ∧ t.inputs = rest ∧ OnSchedule t := by
  have hstep := step_of_inputs_cons hin
  have hkeep := h.throughput
  rw [hin] at hkeep
  cases e with
  | deliver k ws =>
    have hblocks := h.blocks
    rw [hin] at hblocks
    simp only [keepsThroughput, Bool.and_eq_true, Bool.not_eq_true', mailFlags_get] at hkeep
    simp only [wholeBlocks, List.all_cons, Bool.and_eq_true, beq_iff_eq] at hblocks
    obtain ⟨hempty, hkeep⟩ := hkeep
    obtain ⟨hlen, hblocks⟩ := hblocks
    refine ⟨fillSlot k ws { s with inputs := rest }, hstep.trans (deliverStep_of_empty hlen hempty), rfl, hblocks, ?_, h.ovr⟩
    rw [mailFlags_fillSlot]
    exact hkeep
  | command w =>
    obtain ⟨t, ht, hw⟩ := command_hostWrites w { s with inputs := rest }
    have hframe := hw.onlyHostWrites
    have hrest : t.inputs = rest := (congrArg State.inputs hframe :)
    have hflags : mailFlags t = mailFlags s := mailFlags_congr (congrArg State.mbox hframe :)
    exact ⟨t, hstep.trans ht, hrest,
      h.of_no_delivery (hstep.trans ht) hin nofun (congrArg State.par hframe :) hrest (hflags ▸ hkeep)⟩
  | poll =>
    have hpoll := (onlyConsumerWrites_iff _ _).1 (pollWritesOnlyConsumerState.1 { s with inputs := rest })
    obtain ⟨hpar, -, -, -, -, -, -, -, -, -, hrest⟩ := hpoll
    exact ⟨_, hstep, hrest, h.of_no_delivery hstep hin nofun hpar hrest ((mailFlags_poll _).symm ▸ hkeep)⟩
  | read a => exact ⟨_, hstep, rfl, h.of_no_delivery hstep hin nofun rfl rfl hkeep⟩

/-- A state on schedule runs through the events it has left (R248). -/
theorem OnSchedule.exists_runSteps {es : List Event} {s : State} (h : OnSchedule s) (hin : s.inputs = es) :
    ∃ t, runSteps es.length s = .next t ∧ OnSchedule t := by
  induction es generalizing s with
  | nil => exact ⟨s, rfl, h⟩
  | cons e es ih =>
    obtain ⟨u, hu, hrest, hleft⟩ := h.exists_step hin
    obtain ⟨t, ht, hend⟩ := ih hleft hrest
    exact ⟨t, by rw [List.length_cons, runSteps, hu]; exact ht, hend⟩

/-- Settles O59: by induction on the schedule, each step of which leaves the rest on schedule. -/
theorem throughputKeepsOvrClear : Obligations.ThroughputKeepsOvrClear := by
  intro s hblocks hkeep hovr
  have hstart : OnSchedule s := ⟨hblocks, hkeep, hovr⟩
  obtain ⟨t, ht, hend⟩ := hstart.exists_runSteps rfl
  exact ⟨t, ht, hend.ovr⟩

end Sys2Proof.Machine
end
